-- ==== Sys2Proof/Word.lean ====
section
/-! DEFINITION. The two bit-vector types of TXE: a memory byte and a 32-bit register word
(spec 00 R6: bit 0 is the least significant bit). -/

namespace Sys2Proof

/-- One byte of the byte-addressed memory (20 R60). -/
abbrev Byte := BitVec 8

/-- A 32-bit register word: CMD, STRIDE and STATUS (10 R23). -/
abbrev Word := BitVec 32

end Sys2Proof
end

