-- ==== Sys2Proof/Syntax.lean ====
section
/-! DEFINITION. The commands of TXE as syntax: one constructor of `Instr` for each row of the opcode map
(spec 30 R101, spec/opcode_table.json). A command carries its BD field and, where the row has one, its
TXT field; its addresses and its pitch are the latched SRC, DST and STRIDE (30 R102). -/

namespace Sys2Proof

/-- Bits per pixel sample, the legal values of the field BD (30 R98). -/
inductive BitDepth where
  | b8
  | b10
  | b12
  deriving DecidableEq, Repr

/-- The transform types of the field TXT (30 R95): the first half of a name is the column (vertical)
kernel, the second half the row (horizontal) kernel. -/
inductive TxType where
  | dctDct
  | adstDct
  | dctAdst
  | adstAdst
  deriving DecidableEq, Repr

/-- The 34 commands (30 R101). -/
inductive Instr where
  -- format K, OP 1: 1-D forward kernels on a vector in memory (48 R260)
  | fdct4 (bd : BitDepth)
  | fdct8 (bd : BitDepth)
  | fdct16 (bd : BitDepth)
  | fdct32 (bd : BitDepth)
  | fadst4 (bd : BitDepth)
  | fadst8 (bd : BitDepth)
  | fadst16 (bd : BitDepth)
  | fwht4 (bd : BitDepth)
  -- format K, OP 2: 1-D inverse kernels on a vector in memory (48 R261)
  | idct4 (bd : BitDepth)
  | idct8 (bd : BitDepth)
  | idct16 (bd : BitDepth)
  | idct32 (bd : BitDepth)
  | iadst4 (bd : BitDepth)
  | iadst8 (bd : BitDepth)
  | iadst16 (bd : BitDepth)
  | iwht4 (bd : BitDepth)
  -- format B, OP 3: forward 2-D transforms (45 R200)
  | fht4 (tx : TxType) (bd : BitDepth)
  | fht8 (tx : TxType) (bd : BitDepth)
  | fht16 (tx : TxType) (bd : BitDepth)
  | fht32 (bd : BitDepth)
  -- format B, OP 4: inverse 2-D transforms, added to the destination (46 R220)
  | iht4Add (tx : TxType) (bd : BitDepth)
  | iht8Add (tx : TxType) (bd : BitDepth)
  | iht16Add (tx : TxType) (bd : BitDepth)
  | iht32Add (bd : BitDepth)
  -- format D, OP 5: forward DC only (48 R262)
  | fdc4 (bd : BitDepth)
  | fdc8 (bd : BitDepth)
  | fdc16 (bd : BitDepth)
  | fdc32 (bd : BitDepth)
  -- format D, OP 6: inverse DC only, added to the destination (48 R263)
  | idc4Add (bd : BitDepth)
  | idc8Add (bd : BitDepth)
  | idc16Add (bd : BitDepth)
  | idc32Add (bd : BitDepth)
  -- format W, OP 7 and 8: Walsh-Hadamard blocks (45 R210, 46 R230)
  | fwht4x4 (bd : BitDepth)
  | iwht4x4Add (bd : BitDepth)
  deriving DecidableEq, Repr

end Sys2Proof
end

