-- ==== Sys2Proof/WellFormed.lean ====
section
/-! DEFINITION. Which command words are legal: the nine clauses of spec 30 R97, each a check of its own on
the raw 32-bit word, written from the clauses' text and not from the decoder. A term of `Instr` is legal
by construction: its fields are the legal field values only. -/

namespace Sys2Proof

/-- The clauses of 30 R97, under which a word is illegal. -/
inductive Illegal where
  /-- (a) `ZERO != 0` -/
  | zeroField
  /-- (b) `OP` is 0 or 9 to 15 -/
  | reservedOp
  /-- (c) `BD = 3` -/
  | reservedDepth
  /-- (d) format K with `K = 3` -/
  | reservedKernel
  /-- (e) format K with `K = 1` (ADST) and `SZ = 3` -/
  | adst32
  /-- (f) format K with `K = 2` (WHT) and `SZ != 0` -/
  | whtSize
  /-- (g) format B with `SZ = 3` and `TXT != 0` -/
  | type32
  /-- (h) format D with bits 7:6 not 0 -/
  | dcBits
  /-- (i) format W with `SZ != 0` or bits 7:6 not 0 -/
  | whtBlockBits
  deriving DecidableEq, Repr

/-- The fields of a command word as numbers (30 R91). -/
structure RawFields where
  op   : Nat
  sz   : Nat
  kind : Nat
  bd   : Nat
  zero : Nat
  deriving DecidableEq, Repr

/-- 30 R91: OP 3:0, SZ 5:4, TXT or K 7:6, BD 9:8, ZERO 31:10. -/
def rawFields (w : Word) : RawFields where
  op   := w.toNat % 16
  sz   := w.toNat / 16 % 4
  kind := w.toNat / 64 % 4
  bd   := w.toNat / 256 % 4
  zero := w.toNat / 1024

/-- The formats of 30 R92, from the OP field. -/
def isFormatK (f : RawFields) : Bool := f.op = 1 || f.op = 2
def isFormatB (f : RawFields) : Bool := f.op = 3 || f.op = 4
def isFormatD (f : RawFields) : Bool := f.op = 5 || f.op = 6
def isFormatW (f : RawFields) : Bool := f.op = 7 || f.op = 8

/-- `clauseHolds c f`: the word with fields `f` is illegal under clause `c` of 30 R97. -/
def clauseHolds (c : Illegal) (f : RawFields) : Bool :=
  match c with
  | .zeroField      => f.zero ≠ 0
  | .reservedOp     => f.op = 0 || 9 ≤ f.op
  | .reservedDepth  => f.bd = 3
  | .reservedKernel => isFormatK f && f.kind = 3
  | .adst32         => isFormatK f && f.kind = 1 && f.sz = 3
  | .whtSize        => isFormatK f && f.kind = 2 && f.sz ≠ 0
  | .type32         => isFormatB f && f.sz = 3 && f.kind ≠ 0
  | .dcBits         => isFormatD f && f.kind ≠ 0
  | .whtBlockBits   => isFormatW f && (f.sz ≠ 0 || f.kind ≠ 0)

/-- All clauses of 30 R97, in the rule's order. -/
def allClauses : List Illegal :=
  [.zeroField, .reservedOp, .reservedDepth, .reservedKernel, .adst32, .whtSize, .type32, .dcBits,
   .whtBlockBits]

/-- A command word is legal when no clause of 30 R97 holds of it. -/
def wellFormedWord (w : Word) : Bool :=
  allClauses.all fun c => !clauseHolds c (rawFields w)

end Sys2Proof
end

