-- ==== Sys2Proof/Decode.lean ====
section
/-! DEFINITION. The decoder and the encoder of command words (spec 30 R91 to R101). A command is one 32-bit
word written to CMD; nothing is fetched from memory, so there is no byte order and no length to decode
(30 R90, 20 R80). -/

namespace Sys2Proof

/-- Bits `lo + len - 1` down to `lo` of a word, as a number (00 R6, `w[hi:lo]`). -/
def field (w : Word) (lo len : Nat) : Nat := (w.toNat >>> lo) % 2 ^ len

/-- The bit depth of a BD code (30 R98); code 3 is reserved. -/
def decodeDepth : Nat → Except Illegal BitDepth
  | 0 => .ok .b8
  | 1 => .ok .b10
  | 2 => .ok .b12
  | _ => .error .reservedDepth

/-- The transform type of a TXT code (30 R95). -/
def decodeTxType : Nat → TxType
  | 0 => .dctDct
  | 1 => .adstDct
  | 2 => .dctAdst
  | _ => .adstAdst

/-- Format K, OP 1 (30 R96, R97 d to f): `k` is the kernel kind, `sz` the size code. -/
def decodeKF (k sz : Nat) (bd : BitDepth) : Except Illegal Instr :=
  match k, sz with
  | 0, 0 => .ok (.fdct4 bd)
  | 0, 1 => .ok (.fdct8 bd)
  | 0, 2 => .ok (.fdct16 bd)
  | 0, _ => .ok (.fdct32 bd)
  | 1, 0 => .ok (.fadst4 bd)
  | 1, 1 => .ok (.fadst8 bd)
  | 1, 2 => .ok (.fadst16 bd)
  | 1, _ => .error .adst32
  | 2, 0 => .ok (.fwht4 bd)
  | 2, _ => .error .whtSize
  | _, _ => .error .reservedKernel

/-- Format K, OP 2. -/
def decodeKI (k sz : Nat) (bd : BitDepth) : Except Illegal Instr :=
  match k, sz with
  | 0, 0 => .ok (.idct4 bd)
  | 0, 1 => .ok (.idct8 bd)
  | 0, 2 => .ok (.idct16 bd)
  | 0, _ => .ok (.idct32 bd)
  | 1, 0 => .ok (.iadst4 bd)
  | 1, 1 => .ok (.iadst8 bd)
  | 1, 2 => .ok (.iadst16 bd)
  | 1, _ => .error .adst32
  | 2, 0 => .ok (.iwht4 bd)
  | 2, _ => .error .whtSize
  | _, _ => .error .reservedKernel

/-- Format B, OP 3 (30 R97 g). -/
def decodeFHT (txt sz : Nat) (bd : BitDepth) : Except Illegal Instr :=
  match sz with
  | 0 => .ok (.fht4 (decodeTxType txt) bd)
  | 1 => .ok (.fht8 (decodeTxType txt) bd)
  | 2 => .ok (.fht16 (decodeTxType txt) bd)
  | _ => if txt = 0 then .ok (.fht32 bd) else .error .type32

/-- Format B, OP 4. -/
def decodeIHTA (txt sz : Nat) (bd : BitDepth) : Except Illegal Instr :=
  match sz with
  | 0 => .ok (.iht4Add (decodeTxType txt) bd)
  | 1 => .ok (.iht8Add (decodeTxType txt) bd)
  | 2 => .ok (.iht16Add (decodeTxType txt) bd)
  | _ => if txt = 0 then .ok (.iht32Add bd) else .error .type32

/-- Format D, OP 5 (30 R97 h). -/
def decodeFDC (bits76 sz : Nat) (bd : BitDepth) : Except Illegal Instr :=
  if bits76 ≠ 0 then .error .dcBits else
  match sz with
  | 0 => .ok (.fdc4 bd)
  | 1 => .ok (.fdc8 bd)
  | 2 => .ok (.fdc16 bd)
  | _ => .ok (.fdc32 bd)

/-- Format D, OP 6. -/
def decodeIDCA (bits76 sz : Nat) (bd : BitDepth) : Except Illegal Instr :=
  if bits76 ≠ 0 then .error .dcBits else
  match sz with
  | 0 => .ok (.idc4Add bd)
  | 1 => .ok (.idc8Add bd)
  | 2 => .ok (.idc16Add bd)
  | _ => .ok (.idc32Add bd)

/-- Format W, OP 7 and 8 (30 R97 i): `i` is the format's one command. -/
def decodeW (bits76 sz : Nat) (i : Instr) : Except Illegal Instr :=
  if sz ≠ 0 ∨ bits76 ≠ 0 then .error .whtBlockBits else .ok i

/-- The command a word stands for, or the clause of 30 R97 that refuses it (30 R93, R101). Total on all
2^32 words; no word is executed as something else and none is ignored. -/
def decode (w : Word) : Except Illegal Instr :=
  if field w 10 22 ≠ 0 then .error .zeroField else
  match decodeDepth (field w 8 2) with
  | .error e => .error e
  | .ok bd =>
    match field w 0 4 with
    | 1 => decodeKF (field w 6 2) (field w 4 2) bd
    | 2 => decodeKI (field w 6 2) (field w 4 2) bd
    | 3 => decodeFHT (field w 6 2) (field w 4 2) bd
    | 4 => decodeIHTA (field w 6 2) (field w 4 2) bd
    | 5 => decodeFDC (field w 6 2) (field w 4 2) bd
    | 6 => decodeIDCA (field w 6 2) (field w 4 2) bd
    | 7 => decodeW (field w 6 2) (field w 4 2) (.fwht4x4 bd)
    | 8 => decodeW (field w 6 2) (field w 4 2) (.iwht4x4Add bd)
    | _ => .error .reservedOp

/-- The BD code of a bit depth (30 R98). -/
def depthCode : BitDepth → Nat
  | .b8  => 0
  | .b10 => 1
  | .b12 => 2

/-- The TXT code of a transform type (30 R95). -/
def txCode : TxType → Nat
  | .dctDct   => 0
  | .adstDct  => 1
  | .dctAdst  => 2
  | .adstAdst => 3

/-- "The word of a command is match + (TXT << 6) + (BD << 8)" (30 R101). -/
def commandWord (base txt bd : Nat) : Word := BitVec.ofNat 32 (base + txt * 64 + bd * 256)

/-- The encoder: the column "match" of 30 R101, with the free fields put in. -/
def encode : Instr → Word
  | .fdct4 bd       => commandWord 0x01 0 (depthCode bd)
  | .fdct8 bd       => commandWord 0x11 0 (depthCode bd)
  | .fdct16 bd      => commandWord 0x21 0 (depthCode bd)
  | .fdct32 bd      => commandWord 0x31 0 (depthCode bd)
  | .fadst4 bd      => commandWord 0x41 0 (depthCode bd)
  | .fadst8 bd      => commandWord 0x51 0 (depthCode bd)
  | .fadst16 bd     => commandWord 0x61 0 (depthCode bd)
  | .fwht4 bd       => commandWord 0x81 0 (depthCode bd)
  | .idct4 bd       => commandWord 0x02 0 (depthCode bd)
  | .idct8 bd       => commandWord 0x12 0 (depthCode bd)
  | .idct16 bd      => commandWord 0x22 0 (depthCode bd)
  | .idct32 bd      => commandWord 0x32 0 (depthCode bd)
  | .iadst4 bd      => commandWord 0x42 0 (depthCode bd)
  | .iadst8 bd      => commandWord 0x52 0 (depthCode bd)
  | .iadst16 bd     => commandWord 0x62 0 (depthCode bd)
  | .iwht4 bd       => commandWord 0x82 0 (depthCode bd)
  | .fht4 tx bd     => commandWord 0x03 (txCode tx) (depthCode bd)
  | .fht8 tx bd     => commandWord 0x13 (txCode tx) (depthCode bd)
  | .fht16 tx bd    => commandWord 0x23 (txCode tx) (depthCode bd)
  | .fht32 bd       => commandWord 0x33 0 (depthCode bd)
  | .iht4Add tx bd  => commandWord 0x04 (txCode tx) (depthCode bd)
  | .iht8Add tx bd  => commandWord 0x14 (txCode tx) (depthCode bd)
  | .iht16Add tx bd => commandWord 0x24 (txCode tx) (depthCode bd)
  | .iht32Add bd    => commandWord 0x34 0 (depthCode bd)
  | .fdc4 bd        => commandWord 0x05 0 (depthCode bd)
  | .fdc8 bd        => commandWord 0x15 0 (depthCode bd)
  | .fdc16 bd       => commandWord 0x25 0 (depthCode bd)
  | .fdc32 bd       => commandWord 0x35 0 (depthCode bd)
  | .idc4Add bd     => commandWord 0x06 0 (depthCode bd)
  | .idc8Add bd     => commandWord 0x16 0 (depthCode bd)
  | .idc16Add bd    => commandWord 0x26 0 (depthCode bd)
  | .idc32Add bd    => commandWord 0x36 0 (depthCode bd)
  | .fwht4x4 bd     => commandWord 0x07 0 (depthCode bd)
  | .iwht4x4Add bd  => commandWord 0x08 0 (depthCode bd)

/-- The instruction the decoder reads from an instruction of `nbits` bits numbered as
spec/opcode_table.json numbers them; the bits above `nbits` are 0. A TXE command is one 32-bit word. -/
def decodeTableWord (nbits w : Nat) : Option Instr :=
  match decode (BitVec.ofNat 32 (w % 2 ^ nbits)) with
  | .ok i    => some i
  | .error _ => none

end Sys2Proof
end

