-- ==== Sys2Proof/Machine/Arith.lean ====
section
/-! DEFINITION. The arithmetic every rule is written in (spec 00 R5, R6 and 40 R124 to R131): exact integers, the two
class checks, the rounding shifts. A failed check is `none`. Since a check never changes a value and the order
of the checks cannot matter (40 R129), "some check of the command failed" is "the whole computation is
`none`", which is RANGE. -/

namespace Sys2Proof.Machine

/-- `asr(v, n) = floor(v / 2^n)` (00 R5). -/
def asr (v : Int) (n : Nat) : Int := v / 2 ^ n

/-- `rnd(v, B) = asr(v + 2^(B-1), B)` (40 R125). -/
def rnd (v : Int) (n : Nat) : Int := asr (v + 2 ^ (n - 1)) n

/-- `clamp(v, lo, hi)` (00 R5). -/
def clamp (v lo hi : Int) : Int := if v < lo then lo else if hi < v then hi else v

/-- A comparison used as a number (00 R5). -/
def asNum (b : Bool) : Int := if b then 1 else 0

/-- `fits_s(v, n)` (00 R6). -/
def fitsS (v : Int) (n : Nat) : Bool := decide (-2 ^ (n - 1) ≤ v ∧ v ≤ 2 ^ (n - 1) - 1)

/-- `enc_s(v, n)`: the n-bit two's-complement pattern of `v` (00 R6). -/
def encS (v : Int) (n : Nat) : Nat := (v % 2 ^ n).toNat

/-- `sext_n(u)`: the n-bit pattern `u` read as a signed integer (00 R6). -/
def sext (n u : Nat) : Int := if u < 2 ^ (n - 1) then (u : Int) else (u : Int) - 2 ^ n

/-- Bits per sample of a depth (30 R98). -/
def bits : BitDepth → Nat
  | .b8  => 8
  | .b10 => 10
  | .b12 => 12

/-- The bounds of the two datapaths: `EW`, the width of an element, and `AW`, the width of an accumulator
(00 R4, 47 R240). -/
structure Widths where
  ew : Nat
  aw : Nat
  deriving DecidableEq, Repr

/-- 47 R240: 16 and 32 bits when BD = 8, 32 and 64 bits when BD = 10 or 12. -/
def widths : BitDepth → Widths
  | .b8  => { ew := 16, aw := 32 }
  | .b10 => { ew := 32, aw := 64 }
  | .b12 => { ew := 32, aw := 64 }

/-- `PIXW`, the width of a pixel container (00 R4, 47 R240). -/
def pixW : BitDepth → Nat
  | .b8  => 8
  | .b10 => 16
  | .b12 => 16

/-- The clamp bound `2^BD - 1` (47 R240). -/
def maxPix (bd : BitDepth) : Int := 2 ^ bits bd - 1

/-- `low(v)` (40 R126): `v` if it fits an element, else RANGE. -/
def low (B : Widths) (v : Int) : Option Int := if fitsS v B.ew then some v else none

/-- `acc(v)` (40 R127): `v` if it fits an accumulator, else RANGE. Every write of a stage register, X, Y, T, IB or OB
applies it. -/
def acc (B : Widths) (v : Int) : Option Int := if fitsS v B.aw then some v else none

/-- `rs(v) = asr(acc(acc(v) + 8192), 14)` (40 R124). The `acc` of the register write that takes the result cannot
fail (`Laws.acc_of_rs`) and is left out. -/
def rs (B : Widths) (v : Int) : Option Int :=
  match acc B v with
  | none => none
  | some a =>
    match acc B (a + 8192) with
    | none => none
    | some b => some (asr b 14)

/-- `R(v) = low(rs(v))` (40 R128). -/
def rsLow (B : Widths) (v : Int) : Option Int :=
  match rs B v with
  | none => none
  | some r => low B r

/-- A vector of checked values: all of them, or RANGE. -/
def allSome : List (Option Int) → Option (List Int)
  | [] => some []
  | x :: xs =>
    match x, allSome xs with
    | some v, some vs => some (v :: vs)
    | _, _ => none

/-- Apply a computation that may raise RANGE to every member of a list. -/
def mapSome {α β : Type} (f : α → Option β) : List α → Option (List β)
  | [] => some []
  | a :: as =>
    match f a, mapSome f as with
    | some b, some bs => some (b :: bs)
    | _, _ => none

/-- Element `k` of a vector register file held as a list. -/
def ix (v : List Int) (k : Nat) : Int := v.getD k 0

/-- The entries `a, a+1, ..., a+n-1` of a stage: the pseudocode's `for k in a..a+n-1` (00 R7). -/
def span (a n : Nat) (f : Nat → Option Int) : List (Option Int) := (List.range n).map fun k => f (a + k)

/-- `all_zero(X)` over `X[0..n-1]` (40 R130). -/
def allZero (n : Nat) (X : Nat → Int) : Bool := (List.range n).all fun k => X k = 0

/-- The all-zero output vector of length `n` (40 R130). -/
def zeros (n : Nat) : List Int := List.replicate n 0

/-- A 1-D kernel (41 R153, 43 R176): from the bounds and the input vector X to the output vector Y, or RANGE. -/
abbrev Kernel := Widths → (Nat → Int) → Option (List Int)

end Sys2Proof.Machine
end

