-- ==== Sys2Proof/Config.lean ====
section
/-! DEFINITION. What a platform fixes (spec 00 R4, the parameters marked OPEN) and the free values:
the values the spec calls unspecified. -/

namespace Sys2Proof

/-- A range of addresses that holds plain memory, with the access sizes in bytes it admits.
`MemValid` of 00 R4 is an arbitrary predicate on (address, byte count); over a finite address space
every such predicate is a list of regions. Assumption log 1 and 16. -/
structure Region where
  base  : Nat
  len   : Nat
  sizes : List Nat
  deriving DecidableEq, Repr

/-- The open parameters of 00 R4 that a command or the host can observe: `ADDR_W`, `MemValid`
(as a list of regions) and `HAS_IRQ`. `CSR_BASE` and `K_ENGINES` are logs 3 and 2. -/
structure Platform where
  addrW   : Nat
  regions : List Region
  hasIrq  : Bool
  deriving DecidableEq, Repr

namespace Config

/-- The bytes the spec calls unspecified (60 R283, 20 R75, 70 R310 e), one for each draw.
FREE VALUE: it has no body, so nothing can be proved of any value of it. Assumption log 5. -/
opaque freeByte : Nat → Byte

end Config
end Sys2Proof
end

