-- ==== Sys2Proof/Machine/State.lean ====
section
/-! DEFINITION. The state of TXE as plain data (spec 10), the actions of the host that the state holds as a
list, the reasons a step can stop, and the state after reset (10 R33). The working registers X, Y, T, IB,
OB, PB and the stage registers are local to a command's run, as 10 R31 asks. -/

namespace Sys2Proof.Machine

/-- Memory as a sorted list of (address, byte) cells (20 R60). Its operations and its canonical form are in
Machine/Ops.lean. -/
abbrev Memory := List Host.Cell

/-- What an address that no cell lists reads as. DESIGN CHOICE, unsafe: the spec gives memory no power-on
contents (assumption log 4). -/
def Memory.unlisted : Byte := 0

/-- The descriptor of one operation (30 R90): the command word and the register values with it. SRC and DST
are numbers below 2^ADDR_W (10 R23). -/
structure Descriptor where
  cmd    : Word
  src    : Nat
  dst    : Nat
  stride : Word
  deriving DecidableEq, Repr

/-- The five host-visible registers, numbers 0 to 4 (10 R23). -/
inductive Reg where
  | cmd
  | src
  | dst
  | stride
  | status
  deriving DecidableEq, Repr

/-- What the host or the platform can do to the engine and to memory (10 R20). -/
inductive HostAction where
  /-- write `v` to a register (10 R23, R34) -/
  | writeReg (r : Reg) (v : Nat)
  /-- read a register (10 R23, R34) -/
  | readReg (r : Reg)
  /-- store `u` little-endian in the `n` bytes at `a` (20 R63, R74) -/
  | writeMem (a n u : Nat)
  /-- load the `n` bytes at `a` (20 R62, R74) -/
  | readMem (a n : Nat)
  /-- the platform's reset input (70 R310) -/
  | reset
  deriving DecidableEq, Repr

/-- One action and when it lands: `early` ones are done without waiting for a running command, so they find
`BUSY = 1`; the others wait until `BUSY = 0`, as a host that polls does (70 R311 step 5). -/
structure HostEvent where
  act   : HostAction
  early : Bool
  deriving DecidableEq, Repr

structure State where
  /-- the platform's parameters (00 R4); no step changes them -/
  plat     : Platform
  /-- register 0, CMD -/
  cmd      : Word
  /-- register 1, SRC, below 2^ADDR_W -/
  src      : Nat
  /-- register 2, DST, below 2^ADDR_W -/
  dst      : Nat
  /-- register 3, STRIDE -/
  stride   : Word
  /-- register 4, STATUS (10 R28); its bit 0, BUSY, says whether the sequencer is in IDLE (10 R29) -/
  status   : Word
  /-- the sequencer's latched copy of the descriptor (10 R29, 48 R255) -/
  latch    : Descriptor
  /-- the data memory (20 R60) -/
  mem      : Memory
  /-- the MODEL's own: what the host and the platform do next, in order (assumption log 7) -/
  host     : List HostEvent
  /-- the MODEL's own: what the last host read returned -/
  hostData : Nat
  /-- the MODEL's own: the running command's footprint bytes that the host has touched (20 R75) -/
  raced    : List Nat
  /-- the MODEL's own: how many free bytes have been drawn (assumption log 5) -/
  free     : Nat
  deriving DecidableEq, Repr

/-- Why the machine stops with a fault. The four faults of the spec (CFG, MEM, RANGE, PROTO) are not here: they
are STATUS bits, and the command completes (60 R280). -/
inductive Fault where
  /-- Raised by a memory access of the HOST (Machine/HostPort.lean), never by a command, at an address the
  platform says does not exist. Safe: the spec gives such an access no effect (assumption log 13). -/
  | noSuchAddress (a n : Nat)
  deriving DecidableEq, Repr

/-- Why an instruction is refused. -/
inductive Refusal where
  /-- Raised by an arm of `exec` whose instruction has no meaning yet; no arm does. Safe. -/
  | notModelled (mnemonic : String)
  deriving DecidableEq, Repr

/-- The platform of `State.reset`: ADDR_W and HAS_IRQ at the spec's defaults (00 R4); every access of 1, 2 or 4
bytes inside the address space admitted (DESIGN CHOICE, unsafe: assumption log 1). -/
def Platform.initial : Platform where
  addrW   := 32
  regions := [{ base := 0, len := 2 ^ 32, sizes := [1, 2, 4] }]
  hasIrq  := false

/-- The machine after reset (10 R33, 70 R310): every register 0, the engine in IDLE, no fault bit set. The latch
and the model's own fields start at 0 and empty (assumption logs 5, 7, 15). -/
def State.reset : State where
  plat     := Platform.initial
  cmd      := 0
  src      := 0
  dst      := 0
  stride   := 0
  status   := 0
  latch    := { cmd := 0, src := 0, dst := 0, stride := 0 }
  mem      := []
  host     := []
  hostData := 0
  raced    := []
  free     := 0

end Sys2Proof.Machine
end

