-- ==== Sys2Proof/Machine/Flags.lean ====
section
/-! DEFINITION. The STATUS register (spec 10 R28): its bits, the engine's setting of them, the host's write-one-to-clear.
These are the only flags of TXE; no operation sets a carry, zero, sign or overflow flag (10 R28, 40 R131 f). -/

namespace Sys2Proof.Machine

/-- The four faults; the code of a fault is its STATUS bit number (60 R280 to R284). -/
inductive FaultBit where
  | cfg
  | mem
  | range
  | proto
  deriving DecidableEq, Repr

/-- 60 R281 to R284: CFG 2, MEM 3, RANGE 4, PROTO 5. -/
def FaultBit.code : FaultBit → Nat
  | .cfg   => 2
  | .mem   => 3
  | .range => 4
  | .proto => 5

/-- The word with bit `k` set and no other. -/
def bitWord (k : Nat) : Word := BitVec.ofNat 32 (2 ^ k)

/-- The STATUS bits a host write of 1 clears: 1 to 5 (10 R28, 60 R292). -/
def clearable : Word := 0x3E

/-- One instant of STATUS: bits to clear and bits to set. Where both fall on one bit the set wins (60 R286). -/
def updateStatus (old clear set : Word) : Word := (old &&& ~~~clear) ||| set

/-- BUSY, bit 0: a command is executing, the sequencer is not in IDLE (10 R28, R29). -/
def State.busy (s : State) : Bool := s.status.getLsbD 0

/-- DONE, bit 1: the last started command has completed (10 R28). -/
def State.done (s : State) : Bool := s.status.getLsbD 1

/-- A fault bit as it stands in STATUS. -/
def State.faultSet (s : State) (f : FaultBit) : Bool := s.status.getLsbD f.code

/-- `raise CFG`, `raise MEM`, `raise RANGE`, `raise PROTO`: TAKING A FAULT. One sticky bit of STATUS is set and
nothing else happens: no state is saved, no mode changes, no control transfer (60 R280, R291). -/
def raise (f : FaultBit) (s : State) : State :=
  { s with status := updateStatus s.status 0 (bitWord f.code) }

/-- RETURN FROM A FAULT: the host's write of `m` to STATUS clears every bit k in 1..5 with `m[k] = 1`; bits 0 and
31:6 of `m` are ignored (60 R292). -/
def clearStatus (m : Word) (s : State) : State :=
  { s with status := updateStatus s.status (m &&& clearable) 0 }

/-- Command start, steps 1 and 2 of 48 R255: CMD is written, the descriptor is latched, DONE is cleared, BUSY is
set; the fault bits keep their values. -/
def start (w : Word) (s : State) : State :=
  { s with
    cmd    := w
    latch  := { cmd := w, src := s.src, dst := s.dst, stride := s.stride }
    status := updateStatus s.status (bitWord 1) (bitWord 0) }

/-- Command completion (48 R259): BUSY is cleared and DONE is set, as one event. -/
def complete (s : State) : State :=
  { s with status := updateStatus s.status (bitWord 0) (bitWord 1), raced := [] }

/-- A refused command: the fault is raised, no memory access is made, the command completes at once (48 R255
step 3, 60 R281, R282). -/
def refuse (f : FaultBit) (s : State) : State := complete (raise f s)

/-- The completion line (60 R290): absent unless the platform has `HAS_IRQ`; then a level equal to DONE. -/
def State.irqLine (s : State) : Option Bool := if s.plat.hasIrq then some s.done else none

end Sys2Proof.Machine
end

