-- ==== Sys2Proof/Machine/Ops.lean ====
section
/-! DEFINITION. The named operations over memory (spec 20 R60 to R63), the platform's admission of an access (20 R71), and
free values in memory. Taking a fault, clearing it, start and completion are beside STATUS in Machine/Flags.lean. -/

namespace Sys2Proof.Machine

/-- The byte at an address. -/
def Memory.read : Memory → Nat → Byte
  | [], _ => Memory.unlisted
  | (a, b) :: m, x => if a = x then b else Memory.read m x

/-- Store one byte, keeping the canonical form: cells sorted by address, no cell equal to what an unlisted
address reads as. -/
def Memory.write : Memory → Nat → Byte → Memory
  | [], x, v => if v = Memory.unlisted then [] else [(x, v)]
  | (a, b) :: m, x, v =>
    if x < a then (if v = Memory.unlisted then (a, b) :: m else (x, v) :: (a, b) :: m)
    else if x = a then (if v = Memory.unlisted then m else (x, v) :: m)
    else (a, b) :: Memory.write m x v

/-- The addresses of a memory rise strictly from above `lo`, and no cell holds the unlisted value. -/
def Memory.wfFrom : Nat → Memory → Bool
  | _, [] => true
  | lo, (a, b) :: m => decide (lo ≤ a) && (b != Memory.unlisted) && Memory.wfFrom (a + 1) m

/-- The canonical form of memory. -/
def Memory.wf (m : Memory) : Bool := Memory.wfFrom 0 m

/-- `MemRead(addr, n)`: the little-endian number in the `n` bytes at `a` (20 R62). -/
def Memory.readN (m : Memory) (a : Nat) : Nat → Nat
  | 0 => 0
  | n + 1 => (m.read a).toNat + 256 * Memory.readN m (a + 1) n

/-- `MemWrite(addr, n, u)`: `u` little-endian into the `n` bytes at `a` (20 R63). -/
def Memory.writeN (m : Memory) (a : Nat) : Nat → Nat → Memory
  | 0, _ => m
  | n + 1, u => Memory.writeN (m.write a (BitVec.ofNat 8 u)) (a + 1) n (u / 256)

/-- A region admits an access of `n` bytes at `a`. -/
def Region.admits (r : Region) (a n : Nat) : Bool :=
  decide (r.base ≤ a) && decide (a + n ≤ r.base + r.len) && r.sizes.contains n

/-- `MemValid(addr, n)` (00 R4, 20 R71). -/
def Platform.memValid (p : Platform) (a n : Nat) : Bool := p.regions.any fun r => Region.admits r a n

/-- An access is admitted: its address range lies in 0 .. 2^ADDR_W - 1 and `MemValid` holds (20 R71). The arithmetic
is over unbounded integers and never wraps (20 R66). -/
def Platform.admits (p : Platform) (a n : Nat) : Bool :=
  decide (a + n ≤ 2 ^ p.addrW) && Platform.memValid p a n

/-- The `n` byte addresses from `a` up. -/
def byteRange (a n : Nat) : List Nat := (List.range n).map fun k => a + k

/-- Store a fresh free byte at each of the addresses: bytes whose content the spec leaves unspecified. -/
def freeBytes : List Nat → State → State
  | [], s => s
  | a :: as, s =>
    freeBytes as { s with mem := s.mem.write a (Config.freeByte s.free), free := s.free + 1 }

end Sys2Proof.Machine
end

