-- ==== Sys2Proof/Machine/Operands.lean ====
section
/-! DEFINITION. Operand forms: element types, layouts and footprints of the commands (spec 20 R65 to R70), and the checks a
command passes before its first access (30 R100, steps 2 to 4). -/

namespace Sys2Proof.Machine

/-- The command families, one for each row of the footprint table (20 R70). -/
inductive Family where
  /-- 1-D kernel commands: a vector of COEF to a vector of COEF -/
  | kernel
  /-- FHTn, FWHT4X4: a block of RES to a dense block of COEF -/
  | forward
  /-- FDCn: a block of RES to one COEF -/
  | forwardDc
  /-- IHTn.ADD, IWHT4X4.ADD: a dense block of COEF added to a block of PIX -/
  | inverse
  /-- IDCn.ADD: one COEF added to a block of PIX -/
  | inverseDc
  deriving DecidableEq, Repr

/-- What a command's word says of its operands: family, block size N and bit depth. -/
structure Shape where
  family : Family
  n      : Nat
  bd     : BitDepth
  deriving DecidableEq, Repr

/-- One memory element: its address and its size in bytes (20 R65). -/
structure Elem where
  addr : Nat
  size : Nat
  deriving DecidableEq, Repr

/-- Bytes of a COEF element, `EW / 8` (20 R65). -/
def coefSize (bd : BitDepth) : Nat := (widths bd).ew / 8

/-- Bytes of a PIX element, `PIXW / 8` (20 R65). -/
def pixSize (bd : BitDepth) : Nat := pixW bd / 8

/-- Bytes of a RES element (20 R65). -/
def resSize : Nat := 2

/-- A vector of `n` elements at `base` (20 R66). -/
def vectorElems (base size n : Nat) : List Elem :=
  (List.range n).map fun i => { addr := base + size * i, size := size }

/-- An `n` by `n` block at `base` with the given pitch, row by row (20 R66, 00 R8). -/
def blockElems (base pitch size n : Nat) : List Elem :=
  (List.range n).flatMap fun r =>
    (List.range n).map fun c => { addr := base + size * (r * pitch + c), size := size }

/-- The element size of the source type (20 R70). -/
def Shape.srcSize (sh : Shape) : Nat :=
  match sh.family with
  | .kernel | .inverse | .inverseDc => coefSize sh.bd
  | .forward | .forwardDc           => resSize

/-- The element size of the destination type (20 R70). -/
def Shape.dstSize (sh : Shape) : Nat :=
  match sh.family with
  | .kernel | .forward | .forwardDc => coefSize sh.bd
  | .inverse | .inverseDc           => pixSize sh.bd

/-- The elements read at SRC (20 R70): the first column of "reads". -/
def Shape.srcElems (sh : Shape) (d : Descriptor) : List Elem :=
  match sh.family with
  | .kernel              => vectorElems d.src sh.srcSize sh.n
  | .forward | .forwardDc => blockElems d.src d.stride.toNat sh.srcSize sh.n
  | .inverse             => blockElems d.src sh.n sh.srcSize sh.n
  | .inverseDc           => [{ addr := d.src, size := sh.srcSize }]

/-- The elements written at DST (20 R70): the write footprint. -/
def Shape.dstElems (sh : Shape) (d : Descriptor) : List Elem :=
  match sh.family with
  | .kernel               => vectorElems d.dst sh.dstSize sh.n
  | .forward              => blockElems d.dst sh.n sh.dstSize sh.n
  | .forwardDc            => [{ addr := d.dst, size := sh.dstSize }]
  | .inverse | .inverseDc => blockElems d.dst d.stride.toNat sh.dstSize sh.n

/-- Whether the destination is read too, into PB (20 R70: the commands that add). -/
def Shape.readsDst (sh : Shape) : Bool :=
  match sh.family with
  | .inverse | .inverseDc           => true
  | .kernel | .forward | .forwardDc => false

/-- The read footprint (20 R70). -/
def Shape.readElems (sh : Shape) (d : Descriptor) : List Elem :=
  sh.srcElems d ++ (if sh.readsDst then sh.dstElems d else [])

/-- The byte addresses of elements. -/
def elemBytes (es : List Elem) : List Nat := es.flatMap fun e => byteRange e.addr e.size

/-- 30 R100 step 2: formats B, D, W need `STRIDE >= N` (20 R69); kernel commands ignore STRIDE. -/
def Shape.strideOk (sh : Shape) (d : Descriptor) : Bool :=
  match sh.family with
  | .kernel => true
  | .forward | .forwardDc | .inverse | .inverseDc => decide (sh.n ≤ d.stride.toNat)

/-- 30 R100 step 3: SRC and DST are multiples of their element sizes (20 R68). -/
def Shape.alignOk (sh : Shape) (d : Descriptor) : Bool :=
  decide (d.src % sh.srcSize = 0) && decide (d.dst % sh.dstSize = 0)

/-- 30 R100 step 4: every element of the footprint is admitted (20 R71). -/
def Shape.admitOk (sh : Shape) (p : Platform) (d : Descriptor) : Bool :=
  (sh.readElems d ++ sh.dstElems d).all fun e => Platform.admits p e.addr e.size

/-- The checks of 30 R100 after the word's legality, in their fixed order: the first that fails decides. -/
def Shape.check (sh : Shape) (p : Platform) (d : Descriptor) : Option FaultBit :=
  if !sh.strideOk d then some .cfg
  else if !sh.alignOk d then some .cfg
  else if !sh.admitOk p d then some .mem
  else none

/-- LOAD of the source into IB, row by row (20 R65, R72): RES sign-extended from 16 bits, COEF from EW bits. -/
def Shape.loadSrc (sh : Shape) (d : Descriptor) (m : Memory) : List Int :=
  (sh.srcElems d).map fun e => sext (8 * e.size) (m.readN e.addr e.size)

/-- LOAD of the destination pixels into PB, zero-extended and not checked against the pixel range (20 R65). -/
def Shape.loadDst (sh : Shape) (d : Descriptor) (m : Memory) : List Int :=
  if sh.readsDst then (sh.dstElems d).map fun e => (m.readN e.addr e.size : Int) else []

/-- STORE: each element written once with its two's-complement pattern (20 R65, R72). A pixel is never negative, so its
pattern is itself. -/
def storeElems : List Elem → List Int → Memory → Memory
  | e :: es, v :: vs, m => storeElems es vs (m.writeN e.addr e.size (encS v (8 * e.size)))
  | _, _, m => m

/-- The operand shape of each command (30 R92, R101, 20 R70). -/
def shapeOf : Instr → Shape
  | .fdct4 bd      => { family := .kernel, n := 4, bd := bd }
  | .fdct8 bd      => { family := .kernel, n := 8, bd := bd }
  | .fdct16 bd     => { family := .kernel, n := 16, bd := bd }
  | .fdct32 bd     => { family := .kernel, n := 32, bd := bd }
  | .fadst4 bd     => { family := .kernel, n := 4, bd := bd }
  | .fadst8 bd     => { family := .kernel, n := 8, bd := bd }
  | .fadst16 bd    => { family := .kernel, n := 16, bd := bd }
  | .fwht4 bd      => { family := .kernel, n := 4, bd := bd }
  | .idct4 bd      => { family := .kernel, n := 4, bd := bd }
  | .idct8 bd      => { family := .kernel, n := 8, bd := bd }
  | .idct16 bd     => { family := .kernel, n := 16, bd := bd }
  | .idct32 bd     => { family := .kernel, n := 32, bd := bd }
  | .iadst4 bd     => { family := .kernel, n := 4, bd := bd }
  | .iadst8 bd     => { family := .kernel, n := 8, bd := bd }
  | .iadst16 bd    => { family := .kernel, n := 16, bd := bd }
  | .iwht4 bd      => { family := .kernel, n := 4, bd := bd }
  | .fht4 _ bd     => { family := .forward, n := 4, bd := bd }
  | .fht8 _ bd     => { family := .forward, n := 8, bd := bd }
  | .fht16 _ bd    => { family := .forward, n := 16, bd := bd }
  | .fht32 bd      => { family := .forward, n := 32, bd := bd }
  | .iht4Add _ bd  => { family := .inverse, n := 4, bd := bd }
  | .iht8Add _ bd  => { family := .inverse, n := 8, bd := bd }
  | .iht16Add _ bd => { family := .inverse, n := 16, bd := bd }
  | .iht32Add bd   => { family := .inverse, n := 32, bd := bd }
  | .fdc4 bd       => { family := .forwardDc, n := 4, bd := bd }
  | .fdc8 bd       => { family := .forwardDc, n := 8, bd := bd }
  | .fdc16 bd      => { family := .forwardDc, n := 16, bd := bd }
  | .fdc32 bd      => { family := .forwardDc, n := 32, bd := bd }
  | .idc4Add bd    => { family := .inverseDc, n := 4, bd := bd }
  | .idc8Add bd    => { family := .inverseDc, n := 8, bd := bd }
  | .idc16Add bd   => { family := .inverseDc, n := 16, bd := bd }
  | .idc32Add bd   => { family := .inverseDc, n := 32, bd := bd }
  | .fwht4x4 bd    => { family := .forward, n := 4, bd := bd }
  | .iwht4x4Add bd => { family := .inverse, n := 4, bd := bd }

/-- The shape of the running command, if one is running and was not refused: the word is legal and the checks of
30 R100 pass on the latched descriptor. -/
def State.runningShape (s : State) : Option Shape :=
  if s.busy then
    match decode s.latch.cmd with
    | .error _ => none
    | .ok i => if (shapeOf i).check s.plat s.latch = none then some (shapeOf i) else none
  else none

end Sys2Proof.Machine
end

