-- ==== Sys2Proof/Machine/Command.lean ====
section
/-! DEFINITION. The life of a command after its start, once for every command (spec 48 R255 steps 3 and 4, R259): the checks, LOAD,
the computing phases, STORE, completion. Each instruction's meaning gives its computation. -/

namespace Sys2Proof.Machine

/-- The computing phases of a command: from IB and PB, row by row, to OB, or RANGE. -/
abbrev Computation := List Int → List Int → Option (List Int)

/-- 20 R75: a footprint byte that another agent has touched while the command was running has an unspecified value, for
the command's reads and in the end. The raced bytes become free values (assumption log 8). -/
def freeRaced (s : State) : State := freeBytes s.raced s

/-- The command with shape `sh` and computing phases `f`, on the latched descriptor. A failed check is raised and the
command completes with no memory access. Otherwise every read precedes every write (20 R72); if a value does not fit its
class RANGE is raised and every written element is unspecified (60 R283). -/
def runCommand (sh : Shape) (f : Computation) (s : State) : State :=
  match sh.check s.plat s.latch with
  | some fault => refuse fault s
  | none =>
    let s1 := freeRaced s
    match f (sh.loadSrc s1.latch s1.mem) (sh.loadDst s1.latch s1.mem) with
    | some ob =>
      complete (freeRaced { s1 with mem := storeElems (sh.dstElems s1.latch) ob s1.mem })
    | none =>
      complete (freeRaced (raise .range (freeBytes (elemBytes (sh.dstElems s1.latch)) s1)))

end Sys2Proof.Machine
end

