-- ==== Sys2Proof/Machine/Rom.lean ====
section
/-! DEFINITION. The two coefficient ROMs (spec 10 R21, R22, 40 R120 to R122). They are read-only and never change,
so they are constants and no part of State. -/

namespace Sys2Proof.Machine

/-- `C[k]`, ROM word `COSPI[k]`, k = 1 to 31 (40 R120). Other indices do not exist and no kernel reads them
(10 R21). -/
def C : Nat → Int
  | 1  => 16364
  | 2  => 16305
  | 3  => 16207
  | 4  => 16069
  | 5  => 15893
  | 6  => 15679
  | 7  => 15426
  | 8  => 15137
  | 9  => 14811
  | 10 => 14449
  | 11 => 14053
  | 12 => 13623
  | 13 => 13160
  | 14 => 12665
  | 15 => 12140
  | 16 => 11585
  | 17 => 11003
  | 18 => 10394
  | 19 => 9760
  | 20 => 9102
  | 21 => 8423
  | 22 => 7723
  | 23 => 7005
  | 24 => 6270
  | 25 => 5520
  | 26 => 4756
  | 27 => 3981
  | 28 => 3196
  | 29 => 2404
  | 30 => 1606
  | 31 => 804
  | _  => 0

/-- `S[k]`, ROM word `SINPI[k]`, k = 1 to 4 (40 R121). Other indices do not exist and no kernel reads them
(10 R22). -/
def S : Nat → Int
  | 1 => 5283
  | 2 => 9929
  | 3 => 13377
  | 4 => 15212
  | _ => 0

end Sys2Proof.Machine
end

