-- ==== Sys2Proof/Machine/KernelFdct32.lean ====
section
/-! DEFINITION. The 1-D forward kernel FDCT32 (spec 42 R170), one definition for each of its eight stages; the entries of
a stage stand in index order. Contract of 41 R153: every write is `acc`-checked, nothing is `low`-checked. TXE has this
one 32-point forward kernel and no reduced-precision variant (42 R171). -/

namespace Sys2Proof.Machine

/-- Stage 1: add-sub of mirrored inputs. -/
def fdct32Stage1 (B : Widths) (X : Nat → Int) : Option (List Int) :=
  allSome (span 0 16 (fun k => acc B (X k + X (31 - k))) ++ span 16 16 (fun k => acc B (X (31 - k) - X k)))

/-- Stage 2. -/
def fdct32Stage2 (B : Widths) (s1 : Nat → Int) : Option (List Int) :=
  allSome (
    span 0 8 (fun k => acc B (s1 k + s1 (15 - k))) ++
    span 8 8 (fun k => acc B (s1 (15 - k) - s1 k)) ++
    span 16 4 (fun k => some (s1 k)) ++ [
    rs B ((s1 27 - s1 20) * C 16), rs B ((s1 26 - s1 21) * C 16),
    rs B ((s1 25 - s1 22) * C 16), rs B ((s1 24 - s1 23) * C 16),
    rs B ((s1 24 + s1 23) * C 16), rs B ((s1 25 + s1 22) * C 16),
    rs B ((s1 26 + s1 21) * C 16), rs B ((s1 27 + s1 20) * C 16)] ++
    span 28 4 (fun k => some (s1 k)))

/-- Stage 3. -/
def fdct32Stage3 (B : Widths) (s2 : Nat → Int) : Option (List Int) :=
  allSome (
    span 0 4 (fun k => acc B (s2 k + s2 (7 - k))) ++
    span 4 4 (fun k => acc B (s2 (7 - k) - s2 k)) ++ [
    some (s2 8), some (s2 9),
    rs B ((s2 13 - s2 10) * C 16), rs B ((s2 12 - s2 11) * C 16),
    rs B ((s2 12 + s2 11) * C 16), rs B ((s2 13 + s2 10) * C 16),
    some (s2 14), some (s2 15)] ++
    span 0 4 (fun k => acc B (s2 (16 + k) + s2 (23 - k))) ++
    span 0 4 (fun k => acc B (s2 (19 - k) - s2 (20 + k))) ++
    span 0 4 (fun k => acc B (s2 (31 - k) - s2 (24 + k))) ++
    span 0 4 (fun k => acc B (s2 (28 + k) + s2 (27 - k))))

/-- Stage 4. -/
def fdct32Stage4 (B : Widths) (s1 : Nat → Int) : Option (List Int) :=
  allSome [
    acc B (s1 0 + s1 3), acc B (s1 1 + s1 2), acc B (s1 1 - s1 2), acc B (s1 0 - s1 3),
    some (s1 4),
    rs B ((s1 6 - s1 5) * C 16),
    rs B ((s1 6 + s1 5) * C 16),
    some (s1 7),
    acc B (s1 8 + s1 11),  acc B (s1 9 + s1 10),  acc B (s1 9 - s1 10),  acc B (s1 8 - s1 11),
    acc B (s1 15 - s1 12), acc B (s1 14 - s1 13), acc B (s1 14 + s1 13), acc B (s1 15 + s1 12),
    some (s1 16), some (s1 17),
    rs B (s1 29 * C 24 - s1 18 * C 8),
    rs B (s1 28 * C 24 - s1 19 * C 8),
    rs B (-s1 20 * C 24 - s1 27 * C 8),
    rs B (-s1 21 * C 24 - s1 26 * C 8),
    some (s1 22), some (s1 23), some (s1 24), some (s1 25),
    rs B (s1 26 * C 24 - s1 21 * C 8),
    rs B (s1 27 * C 24 - s1 20 * C 8),
    rs B (s1 28 * C 8 + s1 19 * C 24),
    rs B (s1 29 * C 8 + s1 18 * C 24),
    some (s1 30), some (s1 31)]

/-- Stage 5. -/
def fdct32Stage5 (B : Widths) (s2 : Nat → Int) : Option (List Int) :=
  allSome [
    rs B ((s2 0 + s2 1) * C 16),
    rs B ((s2 0 - s2 1) * C 16),
    rs B (s2 2 * C 24 + s2 3 * C 8),
    rs B (s2 3 * C 24 - s2 2 * C 8),
    acc B (s2 4 + s2 5), acc B (s2 4 - s2 5), acc B (s2 7 - s2 6), acc B (s2 7 + s2 6),
    some (s2 8),
    rs B (s2 14 * C 24 - s2 9 * C 8),
    rs B (-s2 10 * C 24 - s2 13 * C 8),
    some (s2 11), some (s2 12),
    rs B (s2 13 * C 24 - s2 10 * C 8),
    rs B (s2 14 * C 8 + s2 9 * C 24),
    some (s2 15),
    acc B (s2 16 + s2 19), acc B (s2 17 + s2 18), acc B (s2 17 - s2 18), acc B (s2 16 - s2 19),
    acc B (s2 23 - s2 20), acc B (s2 22 - s2 21), acc B (s2 22 + s2 21), acc B (s2 23 + s2 20),
    acc B (s2 24 + s2 27), acc B (s2 25 + s2 26), acc B (s2 25 - s2 26), acc B (s2 24 - s2 27),
    acc B (s2 31 - s2 28), acc B (s2 30 - s2 29), acc B (s2 30 + s2 29), acc B (s2 31 + s2 28)]

/-- Stage 6. -/
def fdct32Stage6 (B : Widths) (s1 : Nat → Int) : Option (List Int) :=
  allSome [
    some (s1 0), some (s1 1), some (s1 2), some (s1 3),
    rs B (s1 4 * C 28 + s1 7 * C 4),
    rs B (s1 5 * C 12 + s1 6 * C 20),
    rs B (s1 6 * C 12 - s1 5 * C 20),
    rs B (s1 7 * C 28 - s1 4 * C 4),
    acc B (s1 8 + s1 9),   acc B (s1 8 - s1 9),   acc B (s1 11 - s1 10), acc B (s1 11 + s1 10),
    acc B (s1 12 + s1 13), acc B (s1 12 - s1 13), acc B (s1 15 - s1 14), acc B (s1 15 + s1 14),
    some (s1 16),
    rs B (s1 30 * C 28 - s1 17 * C 4),
    rs B (-s1 18 * C 28 - s1 29 * C 4),
    some (s1 19), some (s1 20),
    rs B (s1 26 * C 12 - s1 21 * C 20),
    rs B (-s1 22 * C 12 - s1 25 * C 20),
    some (s1 23), some (s1 24),
    rs B (s1 25 * C 12 - s1 22 * C 20),
    rs B (s1 26 * C 20 + s1 21 * C 12),
    some (s1 27), some (s1 28),
    rs B (s1 29 * C 28 - s1 18 * C 4),
    rs B (s1 30 * C 4 + s1 17 * C 28),
    some (s1 31)]

/-- Stage 7. -/
def fdct32Stage7 (B : Widths) (s2 : Nat → Int) : Option (List Int) :=
  allSome (span 0 8 (fun k => some (s2 k)) ++ [
    rs B (s2 8 * C 30 + s2 15 * C 2),
    rs B (s2 9 * C 14 + s2 14 * C 18),
    rs B (s2 10 * C 22 + s2 13 * C 10),
    rs B (s2 11 * C 6 + s2 12 * C 26),
    rs B (s2 12 * C 6 - s2 11 * C 26),
    rs B (s2 13 * C 22 - s2 10 * C 10),
    rs B (s2 14 * C 14 - s2 9 * C 18),
    rs B (s2 15 * C 30 - s2 8 * C 2),
    acc B (s2 16 + s2 17), acc B (s2 16 - s2 17), acc B (s2 19 - s2 18), acc B (s2 19 + s2 18),
    acc B (s2 20 + s2 21), acc B (s2 20 - s2 21), acc B (s2 23 - s2 22), acc B (s2 23 + s2 22),
    acc B (s2 24 + s2 25), acc B (s2 24 - s2 25), acc B (s2 27 - s2 26), acc B (s2 27 + s2 26),
    acc B (s2 28 + s2 29), acc B (s2 28 - s2 29), acc B (s2 31 - s2 30), acc B (s2 31 + s2 30)])

/-- Stage 8: output placement and the last sixteen rotations; the entries are Y[0], Y[1], ..., Y[31]. -/
def fdct32Stage8 (B : Widths) (s1 : Nat → Int) : Option (List Int) :=
  allSome [
    some (s1 0),  rs B (s1 16 * C 31 + s1 31 * C 1),
    some (s1 8),  rs B (s1 24 * C 3 - s1 23 * C 29),
    some (s1 4),  rs B (s1 20 * C 27 + s1 27 * C 5),
    some (s1 12), rs B (s1 28 * C 7 - s1 19 * C 25),
    some (s1 2),  rs B (s1 18 * C 23 + s1 29 * C 9),
    some (s1 10), rs B (s1 26 * C 11 - s1 21 * C 21),
    some (s1 6),  rs B (s1 22 * C 19 + s1 25 * C 13),
    some (s1 14), rs B (s1 30 * C 15 - s1 17 * C 17),
    some (s1 1),  rs B (s1 17 * C 15 + s1 30 * C 17),
    some (s1 9),  rs B (s1 25 * C 19 - s1 22 * C 13),
    some (s1 5),  rs B (s1 21 * C 11 + s1 26 * C 21),
    some (s1 13), rs B (s1 29 * C 23 - s1 18 * C 9),
    some (s1 3),  rs B (s1 19 * C 7 + s1 28 * C 25),
    some (s1 11), rs B (s1 27 * C 27 - s1 20 * C 5),
    some (s1 7),  rs B (s1 23 * C 3 + s1 24 * C 29),
    some (s1 15), rs B (s1 31 * C 31 - s1 16 * C 1)]

/-- FDCT32 (42 R170): the eight stages in turn. -/
def fdct32 : Kernel := fun B X => do
  let a1 ← fdct32Stage1 B X
  let a2 ← fdct32Stage2 B (ix a1)
  let a3 ← fdct32Stage3 B (ix a2)
  let a4 ← fdct32Stage4 B (ix a3)
  let a5 ← fdct32Stage5 B (ix a4)
  let a6 ← fdct32Stage6 B (ix a5)
  let a7 ← fdct32Stage7 B (ix a6)
  fdct32Stage8 B (ix a7)

end Sys2Proof.Machine
end

