-- ==== Sys2Proof/Machine/KernelIdct32.lean ====
section
/-! DEFINITION. The 1-D inverse kernel IDCT32 (spec 44 R195), one definition for each of its eight stages; the entries of a
stage stand in index order. Contract of 43 R176: every value stored is wrapped in `low` or `R`, except plain copies. -/

namespace Sys2Proof.Machine

/-- Stage 1: even inputs reordered, odd inputs rotated. -/
def idct32Stage1 (B : Widths) (X : Nat → Int) : Option (List Int) :=
  allSome [
    some (X 0), some (X 16), some (X 8),  some (X 24), some (X 4), some (X 20), some (X 12), some (X 28),
    some (X 2), some (X 18), some (X 10), some (X 26), some (X 6), some (X 22), some (X 14), some (X 30),
    rsLow B (X 1 * C 31 - X 31 * C 1),
    rsLow B (X 17 * C 15 - X 15 * C 17),
    rsLow B (X 9 * C 23 - X 23 * C 9),
    rsLow B (X 25 * C 7 - X 7 * C 25),
    rsLow B (X 5 * C 27 - X 27 * C 5),
    rsLow B (X 21 * C 11 - X 11 * C 21),
    rsLow B (X 13 * C 19 - X 19 * C 13),
    rsLow B (X 29 * C 3 - X 3 * C 29),
    rsLow B (X 29 * C 29 + X 3 * C 3),
    rsLow B (X 13 * C 13 + X 19 * C 19),
    rsLow B (X 21 * C 21 + X 11 * C 11),
    rsLow B (X 5 * C 5 + X 27 * C 27),
    rsLow B (X 25 * C 25 + X 7 * C 7),
    rsLow B (X 9 * C 9 + X 23 * C 23),
    rsLow B (X 17 * C 17 + X 15 * C 15),
    rsLow B (X 1 * C 1 + X 31 * C 31)]

/-- Stage 2. -/
def idct32Stage2 (B : Widths) (s1 : Nat → Int) : Option (List Int) :=
  allSome (span 0 8 (fun k => some (s1 k)) ++ [
    rsLow B (s1 8 * C 30 - s1 15 * C 2),
    rsLow B (s1 9 * C 14 - s1 14 * C 18),
    rsLow B (s1 10 * C 22 - s1 13 * C 10),
    rsLow B (s1 11 * C 6 - s1 12 * C 26),
    rsLow B (s1 11 * C 26 + s1 12 * C 6),
    rsLow B (s1 10 * C 10 + s1 13 * C 22),
    rsLow B (s1 9 * C 18 + s1 14 * C 14),
    rsLow B (s1 8 * C 2 + s1 15 * C 30),
    low B (s1 16 + s1 17), low B (s1 16 - s1 17), low B (s1 19 - s1 18), low B (s1 18 + s1 19),
    low B (s1 20 + s1 21), low B (s1 20 - s1 21), low B (s1 23 - s1 22), low B (s1 22 + s1 23),
    low B (s1 24 + s1 25), low B (s1 24 - s1 25), low B (s1 27 - s1 26), low B (s1 26 + s1 27),
    low B (s1 28 + s1 29), low B (s1 28 - s1 29), low B (s1 31 - s1 30), low B (s1 30 + s1 31)])

/-- Stage 3. -/
def idct32Stage3 (B : Widths) (s2 : Nat → Int) : Option (List Int) :=
  allSome (span 0 4 (fun k => some (s2 k)) ++ [
    rsLow B (s2 4 * C 28 - s2 7 * C 4),
    rsLow B (s2 5 * C 12 - s2 6 * C 20),
    rsLow B (s2 5 * C 20 + s2 6 * C 12),
    rsLow B (s2 4 * C 4 + s2 7 * C 28),
    low B (s2 8 + s2 9),   low B (s2 8 - s2 9),
    low B (s2 11 - s2 10), low B (s2 10 + s2 11),
    low B (s2 12 + s2 13), low B (s2 12 - s2 13),
    low B (s2 15 - s2 14), low B (s2 14 + s2 15),
    some (s2 16),
    rsLow B (s2 30 * C 28 - s2 17 * C 4),
    rsLow B (-s2 18 * C 28 - s2 29 * C 4),
    some (s2 19), some (s2 20),
    rsLow B (s2 26 * C 12 - s2 21 * C 20),
    rsLow B (-s2 22 * C 12 - s2 25 * C 20),
    some (s2 23), some (s2 24),
    rsLow B (s2 25 * C 12 - s2 22 * C 20),
    rsLow B (s2 21 * C 12 + s2 26 * C 20),
    some (s2 27), some (s2 28),
    rsLow B (s2 29 * C 28 - s2 18 * C 4),
    rsLow B (s2 17 * C 28 + s2 30 * C 4),
    some (s2 31)])

/-- Stage 4. -/
def idct32Stage4 (B : Widths) (s1 : Nat → Int) : Option (List Int) :=
  allSome [
    rsLow B ((s1 0 + s1 1) * C 16),
    rsLow B ((s1 0 - s1 1) * C 16),
    rsLow B (s1 2 * C 24 - s1 3 * C 8),
    rsLow B (s1 2 * C 8 + s1 3 * C 24),
    low B (s1 4 + s1 5), low B (s1 4 - s1 5),
    low B (s1 7 - s1 6), low B (s1 6 + s1 7),
    some (s1 8),
    rsLow B (s1 14 * C 24 - s1 9 * C 8),
    rsLow B (-s1 10 * C 24 - s1 13 * C 8),
    some (s1 11), some (s1 12),
    rsLow B (s1 13 * C 24 - s1 10 * C 8),
    rsLow B (s1 9 * C 24 + s1 14 * C 8),
    some (s1 15),
    low B (s1 16 + s1 19), low B (s1 17 + s1 18), low B (s1 17 - s1 18), low B (s1 16 - s1 19),
    low B (s1 23 - s1 20), low B (s1 22 - s1 21), low B (s1 21 + s1 22), low B (s1 20 + s1 23),
    low B (s1 24 + s1 27), low B (s1 25 + s1 26), low B (s1 25 - s1 26), low B (s1 24 - s1 27),
    low B (s1 31 - s1 28), low B (s1 30 - s1 29), low B (s1 29 + s1 30), low B (s1 28 + s1 31)]

/-- Stage 5. -/
def idct32Stage5 (B : Widths) (s2 : Nat → Int) : Option (List Int) :=
  allSome [
    low B (s2 0 + s2 3), low B (s2 1 + s2 2), low B (s2 1 - s2 2), low B (s2 0 - s2 3),
    some (s2 4),
    rsLow B ((s2 6 - s2 5) * C 16),
    rsLow B ((s2 5 + s2 6) * C 16),
    some (s2 7),
    low B (s2 8 + s2 11),  low B (s2 9 + s2 10),  low B (s2 9 - s2 10),  low B (s2 8 - s2 11),
    low B (s2 15 - s2 12), low B (s2 14 - s2 13), low B (s2 13 + s2 14), low B (s2 12 + s2 15),
    some (s2 16), some (s2 17),
    rsLow B (s2 29 * C 24 - s2 18 * C 8),
    rsLow B (s2 28 * C 24 - s2 19 * C 8),
    rsLow B (-s2 20 * C 24 - s2 27 * C 8),
    rsLow B (-s2 21 * C 24 - s2 26 * C 8),
    some (s2 22), some (s2 23), some (s2 24), some (s2 25),
    rsLow B (s2 26 * C 24 - s2 21 * C 8),
    rsLow B (s2 27 * C 24 - s2 20 * C 8),
    rsLow B (s2 19 * C 24 + s2 28 * C 8),
    rsLow B (s2 18 * C 24 + s2 29 * C 8),
    some (s2 30), some (s2 31)]

/-- Stage 6. -/
def idct32Stage6 (B : Widths) (s1 : Nat → Int) : Option (List Int) :=
  allSome (
    span 0 4 (fun k => low B (s1 k + s1 (7 - k))) ++
    span 4 4 (fun k => low B (s1 (7 - k) - s1 k)) ++ [
    some (s1 8), some (s1 9),
    rsLow B ((s1 13 - s1 10) * C 16), rsLow B ((s1 12 - s1 11) * C 16),
    rsLow B ((s1 11 + s1 12) * C 16), rsLow B ((s1 10 + s1 13) * C 16),
    some (s1 14), some (s1 15)] ++
    span 0 4 (fun k => low B (s1 (16 + k) + s1 (23 - k))) ++
    span 20 4 (fun k => low B (s1 (39 - k) - s1 k)) ++
    span 0 4 (fun k => low B (s1 (31 - k) - s1 (24 + k))) ++
    span 28 4 (fun k => low B (s1 (55 - k) + s1 k)))

/-- Stage 7. -/
def idct32Stage7 (B : Widths) (s2 : Nat → Int) : Option (List Int) :=
  allSome (
    span 0 8 (fun k => low B (s2 k + s2 (15 - k))) ++
    span 8 8 (fun k => low B (s2 (15 - k) - s2 k)) ++
    span 16 4 (fun k => some (s2 k)) ++
    span 0 4 (fun k => rsLow B ((s2 (27 - k) - s2 (20 + k)) * C 16)) ++
    span 24 4 (fun k => rsLow B ((s2 (47 - k) + s2 k) * C 16)) ++
    span 28 4 (fun k => some (s2 k)))

/-- Stage 8: output add-sub. -/
def idct32Stage8 (B : Widths) (s1 : Nat → Int) : Option (List Int) :=
  allSome (
    span 0 16 (fun k => low B (s1 k + s1 (31 - k))) ++
    span 16 16 (fun k => low B (s1 (31 - k) - s1 k)))

/-- IDCT32 (44 R195): the eight stages in turn. -/
def idct32 : Kernel := fun B X => do
  let a1 ← idct32Stage1 B X
  let a2 ← idct32Stage2 B (ix a1)
  let a3 ← idct32Stage3 B (ix a2)
  let a4 ← idct32Stage4 B (ix a3)
  let a5 ← idct32Stage5 B (ix a4)
  let a6 ← idct32Stage6 B (ix a5)
  let a7 ← idct32Stage7 B (ix a6)
  idct32Stage8 B (ix a7)

end Sys2Proof.Machine
end

