-- ==== Sys2Proof/Machine/KernelsForward.lean ====
section
/-! DEFINITION. The 1-D forward kernels FDCT4, FDCT8, FDCT16, FADST4, FADST8, FADST16 and FWHT4 (spec 41), line by line
from their pseudocode. Contract (41 R153): a kernel reads X and the ROMs, writes Y and stage registers, and touches nothing
else; every register write is `acc`-checked, a round-shift by `rs`; nothing is `low`-checked. The graph of the 8- and
16-point ADST is written once for the forward and the inverse kernel, which differ only in their checks (43 R186, R187). -/

namespace Sys2Proof.Machine

/-- FDCT4 (41 R150). -/
def fdct4 : Kernel := fun B X => do
  let s0 ← acc B (X 0 + X 3)
  let s1 ← acc B (X 1 + X 2)
  let s2 ← acc B (X 1 - X 2)
  let s3 ← acc B (X 0 - X 3)
  let y0 ← rs B ((s0 + s1) * C 16)
  let y2 ← rs B ((s0 - s1) * C 16)
  let y1 ← rs B (s2 * C 24 + s3 * C 8)
  let y3 ← rs B (s3 * C 24 - s2 * C 8)
  return [y0, y1, y2, y3]

/-- FDCT8 (41 R151). -/
def fdct8 : Kernel := fun B X => do
  let s0 ← acc B (X 0 + X 7)
  let s1 ← acc B (X 1 + X 6)
  let s2 ← acc B (X 2 + X 5)
  let s3 ← acc B (X 3 + X 4)
  let s4 ← acc B (X 3 - X 4)
  let s5 ← acc B (X 2 - X 5)
  let s6 ← acc B (X 1 - X 6)
  let s7 ← acc B (X 0 - X 7)
  -- even half
  let x0 ← acc B (s0 + s3)
  let x1 ← acc B (s1 + s2)
  let x2 ← acc B (s1 - s2)
  let x3 ← acc B (s0 - s3)
  let y0 ← rs B ((x0 + x1) * C 16)
  let y4 ← rs B ((x0 - x1) * C 16)
  let y2 ← rs B (x2 * C 24 + x3 * C 8)
  let y6 ← rs B (x3 * C 24 - x2 * C 8)
  -- odd half
  let t2 ← rs B ((s6 - s5) * C 16)
  let t3 ← rs B ((s6 + s5) * C 16)
  let z0 ← acc B (s4 + t2)
  let z1 ← acc B (s4 - t2)
  let z2 ← acc B (s7 - t3)
  let z3 ← acc B (s7 + t3)
  let y1 ← rs B (z0 * C 28 + z3 * C 4)
  let y5 ← rs B (z1 * C 12 + z2 * C 20)
  let y3 ← rs B (z2 * C 12 - z1 * C 20)
  let y7 ← rs B (z3 * C 28 - z0 * C 4)
  return [y0, y1, y2, y3, y4, y5, y6, y7]

/-- The even half of FDCT16: the FDCT8 graph on `e[0..7]`, the outputs Y[0], Y[2], ..., Y[14] (41 R152). -/
def fdct16Even (B : Widths) (e : Nat → Int) : Option (List Int) := do
  let s0 ← acc B (e 0 + e 7)
  let s1 ← acc B (e 1 + e 6)
  let s2 ← acc B (e 2 + e 5)
  let s3 ← acc B (e 3 + e 4)
  let s4 ← acc B (e 3 - e 4)
  let s5 ← acc B (e 2 - e 5)
  let s6 ← acc B (e 1 - e 6)
  let s7 ← acc B (e 0 - e 7)
  let x0 ← acc B (s0 + s3)
  let x1 ← acc B (s1 + s2)
  let x2 ← acc B (s1 - s2)
  let x3 ← acc B (s0 - s3)
  let y0 ← rs B ((x0 + x1) * C 16)
  let y8 ← rs B ((x0 - x1) * C 16)
  let y4 ← rs B (x3 * C 8 + x2 * C 24)
  let y12 ← rs B (x3 * C 24 - x2 * C 8)
  let t2 ← rs B ((s6 - s5) * C 16)
  let t3 ← rs B ((s6 + s5) * C 16)
  let z0 ← acc B (s4 + t2)
  let z1 ← acc B (s4 - t2)
  let z2 ← acc B (s7 - t3)
  let z3 ← acc B (s7 + t3)
  let y2 ← rs B (z0 * C 28 + z3 * C 4)
  let y10 ← rs B (z1 * C 12 + z2 * C 20)
  let y6 ← rs B (z2 * C 12 - z1 * C 20)
  let y14 ← rs B (z3 * C 28 - z0 * C 4)
  return [y0, y2, y4, y6, y8, y10, y12, y14]

/-- The odd half of FDCT16 on `d[0..7]`: the outputs Y[1], Y[3], ..., Y[15] (41 R152). -/
def fdct16Odd (B : Widths) (d : Nat → Int) : Option (List Int) := do
  let p2 ← rs B ((d 5 - d 2) * C 16)
  let p3 ← rs B ((d 4 - d 3) * C 16)
  let p4 ← rs B ((d 4 + d 3) * C 16)
  let p5 ← rs B ((d 5 + d 2) * C 16)
  let q0 ← acc B (d 0 + p3)
  let q1 ← acc B (d 1 + p2)
  let q2 ← acc B (d 1 - p2)
  let q3 ← acc B (d 0 - p3)
  let q4 ← acc B (d 7 - p4)
  let q5 ← acc B (d 6 - p5)
  let q6 ← acc B (d 6 + p5)
  let q7 ← acc B (d 7 + p4)
  let r1 ← rs B (q6 * C 24 - q1 * C 8)
  let r2 ← rs B (q2 * C 24 + q5 * C 8)
  let r5 ← rs B (q2 * C 8 - q5 * C 24)
  let r6 ← rs B (q1 * C 24 + q6 * C 8)
  let w0 ← acc B (q0 + r1)
  let w1 ← acc B (q0 - r1)
  let w2 ← acc B (q3 + r2)
  let w3 ← acc B (q3 - r2)
  let w4 ← acc B (q4 - r5)
  let w5 ← acc B (q4 + r5)
  let w6 ← acc B (q7 - r6)
  let w7 ← acc B (q7 + r6)
  let y1 ← rs B (w0 * C 30 + w7 * C 2)
  let y9 ← rs B (w1 * C 14 + w6 * C 18)
  let y5 ← rs B (w2 * C 22 + w5 * C 10)
  let y13 ← rs B (w3 * C 6 + w4 * C 26)
  let y3 ← rs B (w4 * C 6 - w3 * C 26)
  let y11 ← rs B (w5 * C 22 - w2 * C 10)
  let y7 ← rs B (w6 * C 14 - w1 * C 18)
  let y15 ← rs B (w7 * C 30 - w0 * C 2)
  return [y1, y3, y5, y7, y9, y11, y13, y15]

/-- FDCT16 (41 R152): `e[k] <- X[k] + X[15-k]`, `d[k] <- X[7-k] - X[8+k]`, then the two halves. -/
def fdct16 : Kernel := fun B X => do
  let e ← allSome (span 0 8 fun k => acc B (X k + X (15 - k)))
  let d ← allSome (span 0 8 fun k => acc B (X (7 - k) - X (8 + k)))
  let y ← fdct16Even B (ix e)
  let z ← fdct16Odd B (ix d)
  return (List.range 16).map fun k => if k % 2 = 0 then ix y (k / 2) else ix z (k / 2)

/-- FADST4 (41 R160). -/
def fadst4 : Kernel := fun B X =>
  if allZero 4 X then some (zeros 4) else do
  let s0 ← acc B (S 1 * X 0)
  let s1 ← acc B (S 4 * X 0)
  let s2 ← acc B (S 2 * X 1)
  let s3 ← acc B (S 1 * X 1)
  let s4 ← acc B (S 3 * X 2)
  let s5 ← acc B (S 4 * X 3)
  let s6 ← acc B (S 2 * X 3)
  let s7 ← acc B (X 0 + X 1 - X 3)
  let t0 ← acc B (s0 + s2 + s5)
  let t1 ← acc B (S 3 * s7)
  let t2 ← acc B (s1 - s3 + s6)
  let t3 ← acc B s4
  let y0 ← rs B (t0 + t3)
  let y1 ← rs B t1
  let y2 ← rs B (t2 - t3)
  let y3 ← rs B (t2 - t0 + t3)
  return [y0, y1, y2, y3]

/-- The graph of the 8-point ADST (41 R161, 43 R186). `keep` checks a value that is not a product sum, `rot` is the
round-shift: `acc` and `rs` in FADST8, `low` and `R` in IADST8. -/
def adst8Graph (B : Widths) (keep rot : Int → Option Int) (X : Nat → Int) : Option (List Int) := do
  -- stage 1, on x0 = X[7], x1 = X[0], x2 = X[5], x3 = X[2], x4 = X[3], x5 = X[4], x6 = X[1], x7 = X[6]
  let s0 ← acc B (C 2 * X 7 + C 30 * X 0)
  let s1 ← acc B (C 30 * X 7 - C 2 * X 0)
  let s2 ← acc B (C 10 * X 5 + C 22 * X 2)
  let s3 ← acc B (C 22 * X 5 - C 10 * X 2)
  let s4 ← acc B (C 18 * X 3 + C 14 * X 4)
  let s5 ← acc B (C 14 * X 3 - C 18 * X 4)
  let s6 ← acc B (C 26 * X 1 + C 6 * X 6)
  let s7 ← acc B (C 6 * X 1 - C 26 * X 6)
  let x0 ← rot (s0 + s4)
  let x1 ← rot (s1 + s5)
  let x2 ← rot (s2 + s6)
  let x3 ← rot (s3 + s7)
  let x4 ← rot (s0 - s4)
  let x5 ← rot (s1 - s5)
  let x6 ← rot (s2 - s6)
  let x7 ← rot (s3 - s7)
  -- stage 2, with s0 .. s3 the copies of x0 .. x3
  let s4 ← acc B (C 8 * x4 + C 24 * x5)
  let s5 ← acc B (C 24 * x4 - C 8 * x5)
  let s6 ← acc B (C 8 * x7 - C 24 * x6)
  let s7 ← acc B (C 8 * x6 + C 24 * x7)
  let u0 ← keep (x0 + x2)
  let u1 ← keep (x1 + x3)
  let u2 ← keep (x0 - x2)
  let u3 ← keep (x1 - x3)
  let u4 ← rot (s4 + s6)
  let u5 ← rot (s5 + s7)
  let u6 ← rot (s4 - s6)
  let u7 ← rot (s5 - s7)
  -- stage 3
  let s2 ← acc B (C 16 * (u2 + u3))
  let s3 ← acc B (C 16 * (u2 - u3))
  let s6 ← acc B (C 16 * (u6 + u7))
  let s7 ← acc B (C 16 * (u6 - u7))
  let v2 ← rot s2
  let v3 ← rot s3
  let v6 ← rot s6
  let v7 ← rot s7
  -- output shuffle, four signs flipped
  let y1 ← keep (-u4)
  let y3 ← keep (-v2)
  let y5 ← keep (-v7)
  let y7 ← keep (-u1)
  return [u0, y1, v6, y3, v3, y5, u5, y7]

/-- FADST8 (41 R161). -/
def fadst8 : Kernel := fun B X =>
  if allZero 8 X then some (zeros 8) else adst8Graph B (acc B) (rs B) X

/-- Input shuffle of the 16-point ADST: `u[i] <- X[adst16In i]` (41 R162). -/
def adst16In (i : Nat) : Nat := ([15, 0, 13, 2, 11, 4, 9, 6, 7, 8, 5, 10, 3, 12, 1, 14] : List Nat).getD i 0

/-- Stage 1 of the 16-point ADST: the product sums `s[0..15]` of the shuffled inputs. -/
def adst16Stage1 (B : Widths) (u : Nat → Int) : Option (List Int) :=
  allSome [
    acc B (u 0 * C 1 + u 1 * C 31),    acc B (u 0 * C 31 - u 1 * C 1),
    acc B (u 2 * C 5 + u 3 * C 27),    acc B (u 2 * C 27 - u 3 * C 5),
    acc B (u 4 * C 9 + u 5 * C 23),    acc B (u 4 * C 23 - u 5 * C 9),
    acc B (u 6 * C 13 + u 7 * C 19),   acc B (u 6 * C 19 - u 7 * C 13),
    acc B (u 8 * C 17 + u 9 * C 15),   acc B (u 8 * C 15 - u 9 * C 17),
    acc B (u 10 * C 21 + u 11 * C 11), acc B (u 10 * C 11 - u 11 * C 21),
    acc B (u 12 * C 25 + u 13 * C 7),  acc B (u 12 * C 7 - u 13 * C 25),
    acc B (u 14 * C 29 + u 15 * C 3),  acc B (u 14 * C 3 - u 15 * C 29)]

/-- Stage 2: `s[0..7]` copies, `s[8..15]` product sums. -/
def adst16Stage2 (B : Widths) (u : Nat → Int) : Option (List Int) :=
  allSome (span 0 8 (fun k => some (u k)) ++ [
    acc B (u 8 * C 4 + u 9 * C 28),    acc B (u 8 * C 28 - u 9 * C 4),
    acc B (u 10 * C 20 + u 11 * C 12), acc B (u 10 * C 12 - u 11 * C 20),
    acc B (u 13 * C 4 - u 12 * C 28),  acc B (u 12 * C 4 + u 13 * C 28),
    acc B (u 15 * C 20 - u 14 * C 12), acc B (u 14 * C 20 + u 15 * C 12)])

/-- Stage 3: `s[0..3]` and `s[8..11]` copies, the rest product sums. -/
def adst16Stage3 (B : Widths) (u : Nat → Int) : Option (List Int) :=
  allSome (span 0 4 (fun k => some (u k)) ++ [
    acc B (u 4 * C 8 + u 5 * C 24),    acc B (u 4 * C 24 - u 5 * C 8),
    acc B (u 7 * C 8 - u 6 * C 24),    acc B (u 6 * C 8 + u 7 * C 24)] ++
    span 8 4 (fun k => some (u k)) ++ [
    acc B (u 12 * C 8 + u 13 * C 24),  acc B (u 12 * C 24 - u 13 * C 8),
    acc B (u 15 * C 8 - u 14 * C 24),  acc B (u 14 * C 8 + u 15 * C 24)])

/-- Stage 4: the `C[16]` products of `u[2], u[3], u[6], u[7], u[10], u[11], u[14], u[15]`, in that order, each
round-shifted; the sign is applied to the constant before rounding. -/
def adst16Stage4 (B : Widths) (rot : Int → Option Int) (u : Nat → Int) : Option (List Int) := do
  let s ← allSome [
    acc B (-C 16 * (u 2 + u 3)),   acc B (C 16 * (u 2 - u 3)),
    acc B (C 16 * (u 6 + u 7)),    acc B (C 16 * (u 7 - u 6)),
    acc B (C 16 * (u 10 + u 11)),  acc B (C 16 * (u 11 - u 10)),
    acc B (-C 16 * (u 14 + u 15)), acc B (C 16 * (u 14 - u 15))]
  mapSome rot s

/-- The graph of the 16-point ADST (41 R162, 43 R187), `keep` and `rot` as in `adst8Graph`. -/
def adst16Graph (B : Widths) (keep rot : Int → Option Int) (X : Nat → Int) : Option (List Int) := do
  let s1 ← adst16Stage1 B (fun i => X (adst16In i))
  let s := ix s1
  let u1 ← allSome (span 0 8 (fun k => rot (s k + s (k + 8))) ++ span 0 8 (fun k => rot (s k - s (k + 8))))
  let s2 ← adst16Stage2 B (ix u1)
  let s := ix s2
  let u2 ← allSome (
    span 0 4 (fun k => keep (s k + s (k + 4))) ++ span 0 4 (fun k => keep (s k - s (k + 4))) ++
    span 0 4 (fun k => rot (s (8 + k) + s (12 + k))) ++ span 0 4 (fun k => rot (s (8 + k) - s (12 + k))))
  let s3 ← adst16Stage3 B (ix u2)
  let s := ix s3
  let u3 ← allSome [
    keep (s 0 + s 2),   keep (s 1 + s 3),   keep (s 0 - s 2),   keep (s 1 - s 3),
    rot (s 4 + s 6),    rot (s 5 + s 7),    rot (s 4 - s 6),    rot (s 5 - s 7),
    keep (s 8 + s 10),  keep (s 9 + s 11),  keep (s 8 - s 10),  keep (s 9 - s 11),
    rot (s 12 + s 14),  rot (s 13 + s 15),  rot (s 12 - s 14),  rot (s 13 - s 15)]
  let u := ix u3
  let r4 ← adst16Stage4 B rot u
  let r := ix r4
  -- output shuffle, with r 0 .. r 7 the new u[2], u[3], u[6], u[7], u[10], u[11], u[14], u[15]
  allSome [
    some (u 0),  keep (-u 8),  some (u 12), keep (-u 4),
    some (r 2),  some (r 6),   some (r 4),  some (r 0),
    some (r 1),  some (r 5),   some (r 7),  some (r 3),
    some (u 5),  keep (-u 13), some (u 9),  keep (-u 1)]

/-- FADST16 (41 R162). -/
def fadst16 : Kernel := fun B X =>
  if allZero 16 X then some (zeros 16) else adst16Graph B (acc B) (rs B) X

/-- FWHT4 (41 R166). -/
def fwht4 : Kernel := fun B X => do
  let a ← acc B (X 0 + X 1)
  let d ← acc B (X 3 - X 2)
  let m ← acc B (a - d)
  let e ← acc B (asr m 1)
  let b ← acc B (e - X 1)
  let c ← acc B (e - X 2)
  let a' ← acc B (a - c)
  let d' ← acc B (d + b)
  return [a', c, d', b]

end Sys2Proof.Machine
end

