-- ==== Sys2Proof/Machine/KernelsInverse.lean ====
section
/-! DEFINITION. The 1-D inverse kernels IDCT4, IDCT8, IDCT16, IADST4, IADST8, IADST16 and IWHT4 (spec 43), line by line from
their pseudocode. Contract (43 R176): every value stored in a stage register or in Y is wrapped in `low`, a rotation output in
`R = low(rs( ))` (but see `iwht4`); product sums are `acc`-checked; a copy carries no check; the final shift is not applied here. -/

namespace Sys2Proof.Machine

/-- IDCT4 (43 R175). -/
def idct4 : Kernel := fun B X => do
  let s0 ← rsLow B ((X 0 + X 2) * C 16)
  let s1 ← rsLow B ((X 0 - X 2) * C 16)
  let s2 ← rsLow B (X 1 * C 24 - X 3 * C 8)
  let s3 ← rsLow B (X 1 * C 8 + X 3 * C 24)
  let y0 ← low B (s0 + s3)
  let y1 ← low B (s1 + s2)
  let y2 ← low B (s1 - s2)
  let y3 ← low B (s0 - s3)
  return [y0, y1, y2, y3]

/-- IDCT8 (43 R178). -/
def idct8 : Kernel := fun B X => do
  -- stage 1, with s1[0] = X[0], s1[1] = X[2], s1[2] = X[4], s1[3] = X[6]
  let a4 ← rsLow B (X 1 * C 28 - X 7 * C 4)
  let a7 ← rsLow B (X 1 * C 4 + X 7 * C 28)
  let a5 ← rsLow B (X 5 * C 12 - X 3 * C 20)
  let a6 ← rsLow B (X 5 * C 20 + X 3 * C 12)
  -- stage 2
  let b0 ← rsLow B ((X 0 + X 4) * C 16)
  let b1 ← rsLow B ((X 0 - X 4) * C 16)
  let b2 ← rsLow B (X 2 * C 24 - X 6 * C 8)
  let b3 ← rsLow B (X 2 * C 8 + X 6 * C 24)
  let b4 ← low B (a4 + a5)
  let b5 ← low B (a4 - a5)
  let b6 ← low B (a7 - a6)
  let b7 ← low B (a6 + a7)
  -- stage 3, with s1[4] = s2[4] and s1[7] = s2[7]
  let c0 ← low B (b0 + b3)
  let c1 ← low B (b1 + b2)
  let c2 ← low B (b1 - b2)
  let c3 ← low B (b0 - b3)
  let c5 ← rsLow B ((b6 - b5) * C 16)
  let c6 ← rsLow B ((b5 + b6) * C 16)
  -- stage 4
  let y0 ← low B (c0 + b7)
  let y1 ← low B (c1 + c6)
  let y2 ← low B (c2 + c5)
  let y3 ← low B (c3 + b4)
  let y4 ← low B (c3 - b4)
  let y5 ← low B (c2 - c5)
  let y6 ← low B (c1 - c6)
  let y7 ← low B (c0 - b7)
  return [y0, y1, y2, y3, y4, y5, y6, y7]

/-- Stage 1 of IDCT16: `s1[i] <- X[idct16In i]` (43 R180). -/
def idct16In (i : Nat) : Nat := ([0, 8, 4, 12, 2, 10, 6, 14, 1, 9, 5, 13, 3, 11, 7, 15] : List Nat).getD i 0

/-- Stage 2. -/
def idct16Stage2 (B : Widths) (s1 : Nat → Int) : Option (List Int) :=
  allSome (span 0 8 (fun k => some (s1 k)) ++ [
    rsLow B (s1 8 * C 30 - s1 15 * C 2),
    rsLow B (s1 9 * C 14 - s1 14 * C 18),
    rsLow B (s1 10 * C 22 - s1 13 * C 10),
    rsLow B (s1 11 * C 6 - s1 12 * C 26),
    rsLow B (s1 11 * C 26 + s1 12 * C 6),
    rsLow B (s1 10 * C 10 + s1 13 * C 22),
    rsLow B (s1 9 * C 18 + s1 14 * C 14),
    rsLow B (s1 8 * C 2 + s1 15 * C 30)])

/-- Stage 3. -/
def idct16Stage3 (B : Widths) (s2 : Nat → Int) : Option (List Int) :=
  allSome (span 0 4 (fun k => some (s2 k)) ++ [
    rsLow B (s2 4 * C 28 - s2 7 * C 4),
    rsLow B (s2 5 * C 12 - s2 6 * C 20),
    rsLow B (s2 5 * C 20 + s2 6 * C 12),
    rsLow B (s2 4 * C 4 + s2 7 * C 28),
    low B (s2 8 + s2 9),   low B (s2 8 - s2 9),
    low B (s2 11 - s2 10), low B (s2 10 + s2 11),
    low B (s2 12 + s2 13), low B (s2 12 - s2 13),
    low B (s2 15 - s2 14), low B (s2 14 + s2 15)])

/-- Stage 4. -/
def idct16Stage4 (B : Widths) (s1 : Nat → Int) : Option (List Int) :=
  allSome [
    rsLow B ((s1 0 + s1 1) * C 16),
    rsLow B ((s1 0 - s1 1) * C 16),
    rsLow B (s1 2 * C 24 - s1 3 * C 8),
    rsLow B (s1 2 * C 8 + s1 3 * C 24),
    low B (s1 4 + s1 5), low B (s1 4 - s1 5),
    low B (s1 7 - s1 6), low B (s1 6 + s1 7),
    some (s1 8),
    rsLow B (s1 14 * C 24 - s1 9 * C 8),
    rsLow B (-s1 10 * C 24 - s1 13 * C 8),
    some (s1 11), some (s1 12),
    rsLow B (s1 13 * C 24 - s1 10 * C 8),
    rsLow B (s1 9 * C 24 + s1 14 * C 8),
    some (s1 15)]

/-- Stage 5. -/
def idct16Stage5 (B : Widths) (s2 : Nat → Int) : Option (List Int) :=
  allSome [
    low B (s2 0 + s2 3), low B (s2 1 + s2 2), low B (s2 1 - s2 2), low B (s2 0 - s2 3),
    some (s2 4),
    rsLow B ((s2 6 - s2 5) * C 16),
    rsLow B ((s2 5 + s2 6) * C 16),
    some (s2 7),
    low B (s2 8 + s2 11),  low B (s2 9 + s2 10),  low B (s2 9 - s2 10),  low B (s2 8 - s2 11),
    low B (s2 15 - s2 12), low B (s2 14 - s2 13), low B (s2 13 + s2 14), low B (s2 12 + s2 15)]

/-- Stage 6. -/
def idct16Stage6 (B : Widths) (s1 : Nat → Int) : Option (List Int) :=
  allSome (
    span 0 4 (fun k => low B (s1 k + s1 (7 - k))) ++
    span 4 4 (fun k => low B (s1 (7 - k) - s1 k)) ++ [
    some (s1 8), some (s1 9),
    rsLow B ((s1 13 - s1 10) * C 16), rsLow B ((s1 12 - s1 11) * C 16),
    rsLow B ((s1 11 + s1 12) * C 16), rsLow B ((s1 10 + s1 13) * C 16),
    some (s1 14), some (s1 15)])

/-- Stage 7: the outputs. -/
def idct16Stage7 (B : Widths) (s2 : Nat → Int) : Option (List Int) :=
  allSome (
    span 0 8 (fun k => low B (s2 k + s2 (15 - k))) ++
    span 8 8 (fun k => low B (s2 (15 - k) - s2 k)))

/-- IDCT16 (43 R180): the seven stages in turn. -/
def idct16 : Kernel := fun B X => do
  let a2 ← idct16Stage2 B (fun i => X (idct16In i))
  let a3 ← idct16Stage3 B (ix a2)
  let a4 ← idct16Stage4 B (ix a3)
  let a5 ← idct16Stage5 B (ix a4)
  let a6 ← idct16Stage6 B (ix a5)
  idct16Stage7 B (ix a6)

/-- IADST4 (43 R185). -/
def iadst4 : Kernel := fun B X =>
  if allZero 4 X then some (zeros 4) else do
  let s0 ← acc B (S 1 * X 0)
  let s1 ← acc B (S 2 * X 0)
  let s2 ← acc B (S 3 * X 1)
  let s3 ← acc B (S 4 * X 2)
  let s4 ← acc B (S 1 * X 2)
  let s5 ← acc B (S 2 * X 3)
  let s6 ← acc B (S 4 * X 3)
  let s7 ← low B (X 0 - X 2 + X 3)
  let t0 ← acc B (s0 + s3 + s5)
  let t1 ← acc B (s1 - s4 - s6)
  let t3 ← acc B s2
  let t2 ← acc B (S 3 * s7)
  let y0 ← rsLow B (t0 + t3)
  let y1 ← rsLow B (t1 + t3)
  let y2 ← rsLow B t2
  let y3 ← rsLow B (t0 + t1 - t3)
  return [y0, y1, y2, y3]

/-- IADST8 (43 R186): the graph of FADST8 with every value that is not a product sum held to an element. -/
def iadst8 : Kernel := fun B X =>
  if allZero 8 X then some (zeros 8) else adst8Graph B (low B) (rsLow B) X

/-- IADST16 (43 R187): the graph of FADST16 with every value that is not a product sum held to an element. -/
def iadst16 : Kernel := fun B X =>
  if allZero 16 X then some (zeros 16) else adst16Graph B (low B) (rsLow B) X

/-- IWHT4 (43 R190). DEDUCED: R190's pseudocode and its Exceptions line put `acc` on the lifting values and `low` on the outputs alone,
as 46 R230 says too, where 43 R176, 46 R222 and the derived table 47 R243 speak of `low` on every stored stage value. The model
follows R190, the operation rule (assumption log 20). -/
def iwht4 : Kernel := fun B X => do
  let a ← acc B (X 0 + X 1)
  let d ← acc B (X 2 - X 3)
  let m ← acc B (a - d)
  let e ← acc B (asr m 1)
  let b ← acc B (e - X 3)
  let c ← acc B (e - X 1)
  let a' ← acc B (a - b)
  let d' ← acc B (d + c)
  let y0 ← low B a'
  let y1 ← low B b
  let y2 ← low B c
  let y3 ← low B d'
  return [y0, y1, y2, y3]

end Sys2Proof.Machine
end

