-- ==== Sys2Proof/Machine/KernelCommands.lean ====
section
/-! DEFINITION. The 1-D kernel commands: KF (spec 48 R260) and KI (48 R261). -/

namespace Sys2Proof.Machine

/-- The computing phase of a kernel command (48 R260, R261): the inputs `low`-checked, the kernel as written in its own
rule, the outputs `low`-checked. No scaling, no final shift. -/
def kernelComputation (n : Nat) (k : Kernel) (B : Widths) : Computation := fun ib _ => do
  let x ← allSome (span 0 n fun j => low B (ix ib j))
  let y ← k B (ix x)
  mapSome (low B) y

/-- FDCT4 (41 R150). -/
def execFdct4 (bd : BitDepth) (s : State) : Host.Outcome State Fault Refusal :=
  .next (runCommand (shapeOf (.fdct4 bd)) (kernelComputation 4 fdct4 (widths bd)) s)

/-- FDCT8 (41 R151). -/
def execFdct8 (bd : BitDepth) (s : State) : Host.Outcome State Fault Refusal :=
  .next (runCommand (shapeOf (.fdct8 bd)) (kernelComputation 8 fdct8 (widths bd)) s)

/-- FDCT16 (41 R152). -/
def execFdct16 (bd : BitDepth) (s : State) : Host.Outcome State Fault Refusal :=
  .next (runCommand (shapeOf (.fdct16 bd)) (kernelComputation 16 fdct16 (widths bd)) s)

/-- FDCT32 (42 R170). -/
def execFdct32 (bd : BitDepth) (s : State) : Host.Outcome State Fault Refusal :=
  .next (runCommand (shapeOf (.fdct32 bd)) (kernelComputation 32 fdct32 (widths bd)) s)

/-- FADST4 (41 R160). -/
def execFadst4 (bd : BitDepth) (s : State) : Host.Outcome State Fault Refusal :=
  .next (runCommand (shapeOf (.fadst4 bd)) (kernelComputation 4 fadst4 (widths bd)) s)

/-- FADST8 (41 R161). -/
def execFadst8 (bd : BitDepth) (s : State) : Host.Outcome State Fault Refusal :=
  .next (runCommand (shapeOf (.fadst8 bd)) (kernelComputation 8 fadst8 (widths bd)) s)

/-- FADST16 (41 R162). -/
def execFadst16 (bd : BitDepth) (s : State) : Host.Outcome State Fault Refusal :=
  .next (runCommand (shapeOf (.fadst16 bd)) (kernelComputation 16 fadst16 (widths bd)) s)

/-- FWHT4 (41 R166). -/
def execFwht4 (bd : BitDepth) (s : State) : Host.Outcome State Fault Refusal :=
  .next (runCommand (shapeOf (.fwht4 bd)) (kernelComputation 4 fwht4 (widths bd)) s)

/-- IDCT4 (43 R175). -/
def execIdct4 (bd : BitDepth) (s : State) : Host.Outcome State Fault Refusal :=
  .next (runCommand (shapeOf (.idct4 bd)) (kernelComputation 4 idct4 (widths bd)) s)

/-- IDCT8 (43 R178). -/
def execIdct8 (bd : BitDepth) (s : State) : Host.Outcome State Fault Refusal :=
  .next (runCommand (shapeOf (.idct8 bd)) (kernelComputation 8 idct8 (widths bd)) s)

/-- IDCT16 (43 R180). -/
def execIdct16 (bd : BitDepth) (s : State) : Host.Outcome State Fault Refusal :=
  .next (runCommand (shapeOf (.idct16 bd)) (kernelComputation 16 idct16 (widths bd)) s)

/-- IDCT32 (44 R195). -/
def execIdct32 (bd : BitDepth) (s : State) : Host.Outcome State Fault Refusal :=
  .next (runCommand (shapeOf (.idct32 bd)) (kernelComputation 32 idct32 (widths bd)) s)

/-- IADST4 (43 R185). -/
def execIadst4 (bd : BitDepth) (s : State) : Host.Outcome State Fault Refusal :=
  .next (runCommand (shapeOf (.iadst4 bd)) (kernelComputation 4 iadst4 (widths bd)) s)

/-- IADST8 (43 R186). -/
def execIadst8 (bd : BitDepth) (s : State) : Host.Outcome State Fault Refusal :=
  .next (runCommand (shapeOf (.iadst8 bd)) (kernelComputation 8 iadst8 (widths bd)) s)

/-- IADST16 (43 R187). -/
def execIadst16 (bd : BitDepth) (s : State) : Host.Outcome State Fault Refusal :=
  .next (runCommand (shapeOf (.iadst16 bd)) (kernelComputation 16 iadst16 (widths bd)) s)

/-- IWHT4 (43 R190). -/
def execIwht4 (bd : BitDepth) (s : State) : Host.Outcome State Fault Refusal :=
  .next (runCommand (shapeOf (.iwht4 bd)) (kernelComputation 4 iwht4 (widths bd)) s)

end Sys2Proof.Machine
end

