-- ==== Sys2Proof/Machine/Forward2D.lean ====
section
/-! DEFINITION. The forward 2-D commands FHT4, FHT8, FHT16, FHT32 and FWHT4X4 (spec 45). -/

namespace Sys2Proof.Machine

/-- Element `(r, c)` of an `n` by `n` block held row by row (00 R8). -/
def elemAt (n : Nat) (b : List Int) (r c : Nat) : Int := ix b (r * n + c)

/-- Whether the column kernel of a transform type is an ADST: TXT bit 0 (30 R95). -/
def colAdst : TxType → Bool
  | .dctDct | .dctAdst  => false
  | .adstDct | .adstAdst => true

/-- Whether the row kernel is an ADST: TXT bit 1 (30 R95). -/
def rowAdst : TxType → Bool
  | .dctDct | .adstDct  => false
  | .dctAdst | .adstAdst => true

/-- The parameters of the forward skeleton (45 R200, R203, R208, R209). -/
structure FwdParams where
  n    : Nat
  /-- multiplier of each input sample -/
  pre  : Int
  /-- add 1 to a nonzero pre-scaled first sample of column 0 -/
  adj  : Bool
  /-- the element class of the pipeline: `acc` when true, `low` when false -/
  wide : Bool
  /-- `MID`, at the column to row boundary -/
  mid  : Int → Int
  /-- `FIN`, of the row-pass output -/
  fin  : Int → Int

/-- `chk` of 45 R203. -/
def FwdParams.chk (p : FwdParams) (B : Widths) (v : Int) : Option Int :=
  if p.wide then acc B v else low B v

/-- The adjustment of 45 R200 to column `i`: `if ADJ and i = 0 and X[0] != 0: X[0] <- chk(X[0] + 1)`. -/
def FwdParams.adjust (p : FwdParams) (B : Widths) (i : Nat) (x : List Int) : Option (List Int) :=
  if p.adj && i = 0 && ix x 0 ≠ 0 then (p.chk B (ix x 0 + 1)).map (fun a => x.set 0 a) else some x

/-- One column of PASS1 (45 R200): pre-scale, adjustment, column kernel, boundary rounding. -/
def fwdColumn (p : FwdParams) (col : Kernel) (B : Widths) (ib : List Int) (i : Nat) : Option (List Int) := do
  let x ← allSome (span 0 p.n fun j => p.chk B (elemAt p.n ib j i * p.pre))
  let x ← p.adjust B i x
  let y ← col B (ix x)
  mapSome (fun t => do let t ← p.chk B t; p.chk B (p.mid t)) y

/-- One row of PASS2 (45 R200), on the columns `tc` of T: row kernel and final rounding. -/
def fwdRow (p : FwdParams) (row : Kernel) (B : Widths) (tc : List (List Int)) (i : Nat) : Option (List Int) := do
  let y ← row B (fun j => ix (tc.getD j []) i)
  mapSome (fun t => do let t ← p.chk B t; low B (p.fin t)) y

/-- The two passes of 45 R200: every column, then every row. The transpose is the indexing of T. -/
def fwd2d (p : FwdParams) (col row : Kernel) (B : Widths) : Computation := fun ib _ => do
  let tc ← mapSome (fwdColumn p col B ib) (List.range p.n)
  let ob ← mapSome (fwdRow p row B tc) (List.range p.n)
  return ob.flatten

/-- 45 R204, R208, R209. DEDUCED: the spec gives two final steps for N = 4. R204 and the FIN column of R209 write `asr(t + 1, 2)`,
40 R125 and the "meaning" column of R209 write `rnd(t, 2) = asr(t + 2, 2)`, and they differ where t mod 4 = 2. The model takes the
first, as the worked example of R204 needs (assumption log 19). -/
def fht4Params : FwdParams where
  n    := 4
  pre  := 16
  adj  := true
  wide := false
  mid  := fun t => t
  fin  := fun t => asr (t + 1) 2

/-- 45 R205, R208, R209. -/
def fht8Params : FwdParams where
  n    := 8
  pre  := 4
  adj  := false
  wide := false
  mid  := fun t => t
  fin  := fun t => asr (t + asNum (t < 0)) 1

/-- 45 R206, R208, R209: the boundary rounding of DCT_DCT differs from that of the other types. -/
def fht16Params (tx : TxType) : FwdParams where
  n    := 16
  pre  := 4
  adj  := false
  wide := false
  mid  := fun t => if tx = .dctDct then asr (t + 1) 2 else asr (t + 1 + asNum (t < 0)) 2
  fin  := fun t => t

/-- 45 R207, R208, R209. -/
def fht32Params : FwdParams where
  n    := 32
  pre  := 4
  adj  := false
  wide := true
  mid  := fun t => asr (t + 1 + asNum (0 < t)) 2
  fin  := fun t => asr (t + 1 + asNum (t < 0)) 2

/-- FWHT4X4 (45 R210): no pre-scale, no rounding; the second pass multiplies by `UNIT_QUANT_FACTOR = 4`. -/
def fwht4x4Computation (B : Widths) : Computation := fun ib _ => do
  let tc ← mapSome (fun i => do
    let y ← fwht4 B (fun j => elemAt 4 ib j i)
    mapSome (low B) y) (List.range 4)
  let ob ← mapSome (fun i => do
    let y ← fwht4 B (fun j => ix (tc.getD j []) i)
    mapSome (fun t => low B (t * 4)) y) (List.range 4)
  return ob.flatten

/-- Kernel selection at size 4 (45 R202): `adst` chooses FADST4. -/
def fwdKernel4 (adst : Bool) : Kernel := if adst then fadst4 else fdct4

/-- Kernel selection at size 8 (45 R202). -/
def fwdKernel8 (adst : Bool) : Kernel := if adst then fadst8 else fdct8

/-- Kernel selection at size 16 (45 R202). -/
def fwdKernel16 (adst : Bool) : Kernel := if adst then fadst16 else fdct16

/-- FHT4 (45 R204). -/
def execFht4 (tx : TxType) (bd : BitDepth) (s : State) : Host.Outcome State Fault Refusal :=
  .next (runCommand (shapeOf (.fht4 tx bd))
    (fwd2d fht4Params (fwdKernel4 (colAdst tx)) (fwdKernel4 (rowAdst tx)) (widths bd)) s)

/-- FHT8 (45 R205). -/
def execFht8 (tx : TxType) (bd : BitDepth) (s : State) : Host.Outcome State Fault Refusal :=
  .next (runCommand (shapeOf (.fht8 tx bd))
    (fwd2d fht8Params (fwdKernel8 (colAdst tx)) (fwdKernel8 (rowAdst tx)) (widths bd)) s)

/-- FHT16 (45 R206). -/
def execFht16 (tx : TxType) (bd : BitDepth) (s : State) : Host.Outcome State Fault Refusal :=
  .next (runCommand (shapeOf (.fht16 tx bd))
    (fwd2d (fht16Params tx) (fwdKernel16 (colAdst tx)) (fwdKernel16 (rowAdst tx)) (widths bd)) s)

/-- FHT32 (45 R207): both kernels are FDCT32. -/
def execFht32 (bd : BitDepth) (s : State) : Host.Outcome State Fault Refusal :=
  .next (runCommand (shapeOf (.fht32 bd)) (fwd2d fht32Params fdct32 fdct32 (widths bd)) s)

/-- FWHT4X4 (45 R210). -/
def execFwht4x4 (bd : BitDepth) (s : State) : Host.Outcome State Fault Refusal :=
  .next (runCommand (shapeOf (.fwht4x4 bd)) (fwht4x4Computation (widths bd)) s)

end Sys2Proof.Machine
end

