-- ==== Sys2Proof/Machine/Inverse2D.lean ====
section
/-! DEFINITION. The inverse 2-D commands IHT4.ADD, IHT8.ADD, IHT16.ADD, IHT32.ADD and IWHT4X4.ADD (spec 46). -/

namespace Sys2Proof.Machine

/-- Reconstruction of one pixel (46 R224): the residual added to the destination pixel, clamped to 0 .. 2^BD - 1. -/
def reconstruct (bd : BitDepth) (pixel residual : Int) : Int := clamp (pixel + residual) 0 (maxPix bd)

/-- One row of PASS1 (46 R220): the coefficients `low`-checked, prepared by `prep`, through the row kernel. -/
def invRow (n : Nat) (prep : Int → Int) (row : Kernel) (B : Widths) (ib : List Int) (i : Nat) :
    Option (List Int) := do
  let x ← allSome (span 0 n fun j => (low B (elemAt n ib i j)).map prep)
  row B (ix x)

/-- One column of PASS2 (46 R220), on the rows `t` of T: the column kernel. -/
def invColumn (col : Kernel) (B : Widths) (t : List (List Int)) (i : Nat) : Option (List Int) :=
  col B (fun j => ix (t.getD j []) i)

/-- The two passes of 46 R220, rows first (46 R221), then the residual's rounding `round` and the reconstruction of every
pixel, row by row. -/
def inv2d (n : Nat) (prep round : Int → Int) (col row : Kernel) (bd : BitDepth) : Computation := fun ib pb => do
  let t ← mapSome (invRow n prep row (widths bd) ib) (List.range n)
  let rc ← mapSome (invColumn col (widths bd) t) (List.range n)
  return (List.range n).flatMap fun j =>
    (List.range n).map fun i => reconstruct bd (elemAt n pb j i) (round (ix (rc.getD i []) j))

/-- `FINAL_SHIFT[N]` (46 R223): it depends on N only. -/
def finalShift : Nat → Nat
  | 4 => 4
  | 8 => 5
  | _ => 6

/-- Kernel selection at size 4 (46 R221): `adst` chooses IADST4. -/
def invKernel4 (adst : Bool) : Kernel := if adst then iadst4 else idct4

/-- Kernel selection at size 8 (46 R221). -/
def invKernel8 (adst : Bool) : Kernel := if adst then iadst8 else idct8

/-- Kernel selection at size 16 (46 R221). -/
def invKernel16 (adst : Bool) : Kernel := if adst then iadst16 else idct16

/-- IHT4.ADD (46 R225). -/
def execIht4Add (tx : TxType) (bd : BitDepth) (s : State) : Host.Outcome State Fault Refusal :=
  .next (runCommand (shapeOf (.iht4Add tx bd))
    (inv2d 4 id (fun v => rnd v (finalShift 4)) (invKernel4 (colAdst tx)) (invKernel4 (rowAdst tx)) bd) s)

/-- IHT8.ADD (46 R226). -/
def execIht8Add (tx : TxType) (bd : BitDepth) (s : State) : Host.Outcome State Fault Refusal :=
  .next (runCommand (shapeOf (.iht8Add tx bd))
    (inv2d 8 id (fun v => rnd v (finalShift 8)) (invKernel8 (colAdst tx)) (invKernel8 (rowAdst tx)) bd) s)

/-- IHT16.ADD (46 R227). -/
def execIht16Add (tx : TxType) (bd : BitDepth) (s : State) : Host.Outcome State Fault Refusal :=
  .next (runCommand (shapeOf (.iht16Add tx bd))
    (inv2d 16 id (fun v => rnd v (finalShift 16)) (invKernel16 (colAdst tx)) (invKernel16 (rowAdst tx)) bd) s)

/-- IHT32.ADD (46 R228): both kernels are IDCT32. -/
def execIht32Add (bd : BitDepth) (s : State) : Host.Outcome State Fault Refusal :=
  .next (runCommand (shapeOf (.iht32Add bd))
    (inv2d 32 id (fun v => rnd v (finalShift 32)) idct32 idct32 bd) s)

/-- IWHT4X4.ADD (46 R230): the row pass first shifts every coefficient right by `UNIT_QUANT_SHIFT = 2`; no final shift. -/
def execIwht4x4Add (bd : BitDepth) (s : State) : Host.Outcome State Fault Refusal :=
  .next (runCommand (shapeOf (.iwht4x4Add bd)) (inv2d 4 (fun v => asr v 2) id iwht4 iwht4 bd) s)

end Sys2Proof.Machine
end

