-- ==== Sys2Proof/Machine/DcOnly.lean ====
section
/-! DEFINITION. The DC-only commands: FDC4, FDC8, FDC16, FDC32 (spec 48 R262, R271 to R274) and IDC4.ADD, IDC8.ADD, IDC16.ADD,
IDC32.ADD (48 R263, R275 to R278). -/

namespace Sys2Proof.Machine

/-- The running sum of 48 R262: `s <- s + IB[r][c]` over the block, each write `acc`-checked. -/
def sumChecked (B : Widths) : Int → List Int → Option Int
  | s, [] => some s
  | s, v :: vs =>
    match acc B (s + v) with
    | none => none
    | some s' => sumChecked B s' vs

/-- The forward DC-only skeleton (48 R262): the block's sum, scaled by `dcs`. -/
def fdcComputation (dcs : Int → Int) (B : Widths) : Computation := fun ib _ => do
  let s ← sumChecked B 0 ib
  let v ← low B (dcs s)
  return [v]

/-- The constant that the inverse DC-only command adds to every pixel (48 R263): two round-shifts by the DC basis scale
`C[16]` and the final shift. -/
def idcConstant (n : Nat) (B : Widths) (v : Int) : Option Int := do
  let v ← low B v
  let o1 ← rsLow B (v * C 16)
  let o2 ← rsLow B (o1 * C 16)
  acc B (rnd o2 (finalShift n))

/-- The inverse DC-only skeleton (48 R263). -/
def idcComputation (n : Nat) (bd : BitDepth) : Computation := fun ib pb => do
  let a1 ← idcConstant n (widths bd) (ix ib 0)
  return pb.map fun p => reconstruct bd p a1

/-- FDC4 (48 R271): `s * 2`. -/
def execFdc4 (bd : BitDepth) (s : State) : Host.Outcome State Fault Refusal :=
  .next (runCommand (shapeOf (.fdc4 bd)) (fdcComputation (fun v => v * 2) (widths bd)) s)

/-- FDC8 (48 R272): `s`. -/
def execFdc8 (bd : BitDepth) (s : State) : Host.Outcome State Fault Refusal :=
  .next (runCommand (shapeOf (.fdc8 bd)) (fdcComputation (fun v => v) (widths bd)) s)

/-- FDC16 (48 R273): `asr(s, 1)`. -/
def execFdc16 (bd : BitDepth) (s : State) : Host.Outcome State Fault Refusal :=
  .next (runCommand (shapeOf (.fdc16 bd)) (fdcComputation (fun v => asr v 1) (widths bd)) s)

/-- FDC32 (48 R274): `asr(s, 3)`. -/
def execFdc32 (bd : BitDepth) (s : State) : Host.Outcome State Fault Refusal :=
  .next (runCommand (shapeOf (.fdc32 bd)) (fdcComputation (fun v => asr v 3) (widths bd)) s)

/-- IDC4.ADD (48 R275). -/
def execIdc4Add (bd : BitDepth) (s : State) : Host.Outcome State Fault Refusal :=
  .next (runCommand (shapeOf (.idc4Add bd)) (idcComputation 4 bd) s)

/-- IDC8.ADD (48 R276). -/
def execIdc8Add (bd : BitDepth) (s : State) : Host.Outcome State Fault Refusal :=
  .next (runCommand (shapeOf (.idc8Add bd)) (idcComputation 8 bd) s)

/-- IDC16.ADD (48 R277). -/
def execIdc16Add (bd : BitDepth) (s : State) : Host.Outcome State Fault Refusal :=
  .next (runCommand (shapeOf (.idc16Add bd)) (idcComputation 16 bd) s)

/-- IDC32.ADD (48 R278). -/
def execIdc32Add (bd : BitDepth) (s : State) : Host.Outcome State Fault Refusal :=
  .next (runCommand (shapeOf (.idc32Add bd)) (idcComputation 32 bd) s)

end Sys2Proof.Machine
end

