-- ==== Sys2Proof/Machine/Dispatch.lean ====
section
/-! DEFINITION. The dispatch of commands to their meanings, one arm for each constructor of `Instr`. -/

namespace Sys2Proof.Machine

def exec (i : Instr) (s : State) : Host.Outcome State Fault Refusal :=
  match i with
  | .fdct4 bd => Sys2Proof.Machine.execFdct4 bd s
  | .fdct8 bd => Sys2Proof.Machine.execFdct8 bd s
  | .fdct16 bd => Sys2Proof.Machine.execFdct16 bd s
  | .fdct32 bd => Sys2Proof.Machine.execFdct32 bd s
  | .fadst4 bd => Sys2Proof.Machine.execFadst4 bd s
  | .fadst8 bd => Sys2Proof.Machine.execFadst8 bd s
  | .fadst16 bd => Sys2Proof.Machine.execFadst16 bd s
  | .fwht4 bd => Sys2Proof.Machine.execFwht4 bd s
  | .idct4 bd => Sys2Proof.Machine.execIdct4 bd s
  | .idct8 bd => Sys2Proof.Machine.execIdct8 bd s
  | .idct16 bd => Sys2Proof.Machine.execIdct16 bd s
  | .idct32 bd => Sys2Proof.Machine.execIdct32 bd s
  | .iadst4 bd => Sys2Proof.Machine.execIadst4 bd s
  | .iadst8 bd => Sys2Proof.Machine.execIadst8 bd s
  | .iadst16 bd => Sys2Proof.Machine.execIadst16 bd s
  | .iwht4 bd => Sys2Proof.Machine.execIwht4 bd s
  | .fht4 tx bd => Sys2Proof.Machine.execFht4 tx bd s
  | .fht8 tx bd => Sys2Proof.Machine.execFht8 tx bd s
  | .fht16 tx bd => Sys2Proof.Machine.execFht16 tx bd s
  | .fht32 bd => Sys2Proof.Machine.execFht32 bd s
  | .iht4Add tx bd => Sys2Proof.Machine.execIht4Add tx bd s
  | .iht8Add tx bd => Sys2Proof.Machine.execIht8Add tx bd s
  | .iht16Add tx bd => Sys2Proof.Machine.execIht16Add tx bd s
  | .iht32Add bd => Sys2Proof.Machine.execIht32Add bd s
  | .fdc4 bd => Sys2Proof.Machine.execFdc4 bd s
  | .fdc8 bd => Sys2Proof.Machine.execFdc8 bd s
  | .fdc16 bd => Sys2Proof.Machine.execFdc16 bd s
  | .fdc32 bd => Sys2Proof.Machine.execFdc32 bd s
  | .idc4Add bd => Sys2Proof.Machine.execIdc4Add bd s
  | .idc8Add bd => Sys2Proof.Machine.execIdc8Add bd s
  | .idc16Add bd => Sys2Proof.Machine.execIdc16Add bd s
  | .idc32Add bd => Sys2Proof.Machine.execIdc32Add bd s
  | .fwht4x4 bd => Sys2Proof.Machine.execFwht4x4 bd s
  | .iwht4x4Add bd => Sys2Proof.Machine.execIwht4x4Add bd s

end Sys2Proof.Machine
end

