-- ==== Sys2Proof/Machine/HostPort.lean ====
section
/-! DEFINITION. What the host and the platform do to the engine and to memory: register accesses (spec 10 R23, R28, R34), memory
accesses and their races with a running command (20 R74, R75), reset (70 R310). -/

namespace Sys2Proof.Machine

/-- A read of a register: the last value written or the reset value (10 R23, R34); STATUS as it stands. -/
def readReg (r : Reg) (s : State) : Nat :=
  match r with
  | .cmd    => s.cmd.toNat
  | .src    => s.src
  | .dst    => s.dst
  | .stride => s.stride.toNat
  | .status => s.status.toNat

/-- A host write of `v` to a register (10 R34). While BUSY a write to CMD, SRC, DST or STRIDE is dropped and raises PROTO
(60 R284); a write to STATUS always acts (60 R292). While idle a write of CMD starts a command (48 R255) and the others
are plain storage, cut to the register's width (assumption log 12). -/
def writeReg (r : Reg) (v : Nat) (s : State) : State :=
  match r with
  | .status => clearStatus (BitVec.ofNat 32 v) s
  | .cmd    => if s.busy then raise .proto s else start (BitVec.ofNat 32 v) s
  | .src    => if s.busy then raise .proto s else { s with src := v % 2 ^ s.plat.addrW }
  | .dst    => if s.busy then raise .proto s else { s with dst := v % 2 ^ s.plat.addrW }
  | .stride => if s.busy then raise .proto s else { s with stride := BitVec.ofNat 32 v }

/-- The bytes the running command reads (20 R70); none if no command is running. -/
def State.readBytes (s : State) : List Nat :=
  match s.runningShape with
  | some sh => elemBytes (sh.readElems s.latch)
  | none    => []

/-- The bytes the running command writes (20 R70); none if no command is running. -/
def State.writeBytes (s : State) : List Nat :=
  match s.runningShape with
  | some sh => elemBytes (sh.dstElems s.latch)
  | none    => []

/-- Record footprint bytes as raced (20 R75). -/
def markRaced (as : List Nat) (s : State) : State :=
  { s with raced := s.raced ++ as.filter fun a => !s.raced.contains a }

/-- A host store (20 R63, R74 a). The bytes of the running command's footprint that it touches are raced (20 R75). 00 R7 and 20 R63
define the store for `u < 2^(8n)` and n = 1, 2, 4. DESIGN CHOICE: of a wider `u` the low `n` bytes are stored, and a store of
another size that the platform admits is `n` bytes in the same order (assumption log 12). -/
def hostStore (a n u : Nat) (s : State) : State :=
  markRaced ((byteRange a n).filter fun b => (s.readBytes ++ s.writeBytes).contains b)
    { s with mem := s.mem.writeN a n u }

/-- The bytes a host load of `n` bytes at `a` returns: a byte of the running command's write footprint and a raced byte
are unspecified (20 R74 c, R75), so each is a fresh free value. -/
def loadBytes (hidden : List Nat) (m : Memory) (free a : Nat) : Nat → Nat
  | 0 => 0
  | n + 1 =>
    if hidden.contains a then
      (Config.freeByte free).toNat + 256 * loadBytes hidden m (free + 1) (a + 1) n
    else (m.read a).toNat + 256 * loadBytes hidden m free (a + 1) n

/-- A host load (20 R62, R74 b). Reading a byte of the running command's write footprint races with it (20 R75). A load of another
size than 1, 2, 4 that the platform admits is `n` bytes in the same order (assumption log 12). -/
def hostLoad (a n : Nat) (s : State) : State :=
  let hidden := s.writeBytes ++ s.raced
  markRaced ((byteRange a n).filter fun b => s.writeBytes.contains b)
    { s with
      hostData := loadBytes hidden s.mem s.free a n
      free     := s.free + ((byteRange a n).filter fun b => hidden.contains b).length }

/-- Reset (70 R310): the registers become 0 and the engine idle; memory is not touched, but a running command is abandoned,
which leaves each element of its write footprint old or unspecified (e): free values, as are the raced bytes. The
platform's parameters and the host's later actions are not the engine's and stay. -/
def applyReset (s : State) : State :=
  { freeBytes s.raced (freeBytes s.writeBytes s) with
    cmd    := 0
    src    := 0
    dst    := 0
    stride := 0
    status := 0
    latch  := { cmd := 0, src := 0, dst := 0, stride := 0 }
    raced  := [] }

/-- One action of the host or the platform. -/
def hostAct (act : HostAction) (s : State) : Host.Outcome State Fault Refusal :=
  match act with
  | .writeReg r v   => .next (writeReg r v s)
  | .readReg r      => .next { s with hostData := readReg r s }
  | .writeMem a n u => if Platform.admits s.plat a n then .next (hostStore a n u s) else .fault (.noSuchAddress a n)
  | .readMem a n    => if Platform.admits s.plat a n then .next (hostLoad a n s) else .fault (.noSuchAddress a n)
  | .reset          => .next (applyReset s)

end Sys2Proof.Machine
end

