-- ==== Sys2Proof/Machine/Step.lean ====
section
/-! DEFINITION. One step of the machine: the engine's or the host's move, as the state's data say (assumption log 7). -/

namespace Sys2Proof.Machine

/-- The engine's move: the latched command runs to completion (48 R255 steps 3 and 4, 48 R256). An illegal word raises CFG and
completes (30 R97, 60 R281). -/
def engineStep (s : State) : Host.Outcome State Fault Refusal :=
  match decode s.latch.cmd with
  | .ok i    => exec i s
  | .error _ => .next (refuse .cfg s)

/-- While a command runs the engine moves, unless the host's next action is an early one and the command was not
refused: a refused command completes at once (48 R255 step 3, R259). While the engine is idle the host moves; with nothing left to
do the engine holds its registers (60 R299). -/
def step (s : State) : Host.Outcome State Fault Refusal :=
  match s.host with
  | [] => if s.busy then engineStep s else .next s
  | e :: rest =>
    if s.busy && !(e.early && s.runningShape.isSome) then engineStep s
    else hostAct e.act { s with host := rest }

/-- `s` with the command of `w` started (48 R255 steps 1 and 2, as a write of CMD to an idle engine does) and no host action
before it, so that the next step runs it. A command is one 32-bit word; the bits above `nbits` are 0. -/
def State.withFetchWord (s : State) (nbits w : Nat) : State :=
  { start (BitVec.ofNat 32 (w % 2 ^ nbits)) s with host := [] }

end Sys2Proof.Machine
end

