-- ==== Sys2Proof/Machine/Flow.lean ====
section
/-! DEFINITION. The signal-flow graphs of the 8-, 16- and 32-point kernels, read stage by stage from the pseudocode of spec 41
to 44 as tables. Only statements use them; no meaning does. A graph says which integers a kernel computes from which, and no
word about the class checks. The entries of a stage stand in index order; a register that the pseudocode leaves alone in a
stage is a copy. The last stage gives Y[0], Y[1], .. in order. -/

namespace Sys2Proof.Machine

/-- One node of a graph, on the registers of the stage before (40 R123). -/
inductive Node where
  /-- a copy of register `i` -/
  | copy (i : Nat)
  /-- add-sub: the sum -/
  | add (i j : Nat)
  /-- add-sub: the difference -/
  | sub (i j : Nat)
  /-- a sign flip -/
  | neg (i : Nat)
  /-- a rotation output: the exact sum of the terms `(k, i)`, each the ROM word C[k] times register `i` (with minus the word C[-k]
  for a negative k), rounded once by 2^14 -/
  | rot (ts : List (Int × Nat))
  deriving DecidableEq, Repr

/-- The constant of a term: `C[k]`, or `-C[-k]` for a negative `k`. -/
def signedRom (k : Int) : Int := if k < 0 then -C k.natAbs else C k.natAbs

/-- The value of a node. -/
def Node.value (u : Nat → Int) : Node → Int
  | .copy i  => u i
  | .add i j => u i + u j
  | .sub i j => u i - u j
  | .neg i   => -u i
  | .rot ts  => ((ts.map fun t => signedRom t.1 * u t.2).sum + 8192) / 16384

/-- A graph: its stages in order. -/
abbrev Flow := List (List Node)

/-- The outputs of a graph on the register values `v`. -/
def flowOutput : Flow → List Int → List Int
  | [], v => v
  | st :: rest, v => flowOutput rest (st.map (Node.value (ix v)))

/-- The `n` copies of registers `a`, `a+1`, .. -/
def copies (a n : Nat) : List Node := (List.range n).map fun k => .copy (a + k)

/-- The rotation output of two terms. -/
def rot2 (k : Int) (i : Nat) (l : Int) (j : Nat) : Node := .rot [(k, i), (l, j)]

/-- FDCT8 (41 R151): s; x beside t; the even outputs beside z; Y. -/
def fdct8Flow : Flow := [
  [.add 0 7, .add 1 6, .add 2 5, .add 3 4, .sub 3 4, .sub 2 5, .sub 1 6, .sub 0 7],
  [.add 0 3, .add 1 2, .sub 1 2, .sub 0 3, .copy 4, rot2 16 6 (-16) 5, rot2 16 6 16 5, .copy 7],
  [rot2 16 0 16 1, rot2 16 0 (-16) 1, rot2 24 2 8 3, rot2 24 3 (-8) 2, .add 4 5, .sub 4 5, .sub 7 6, .add 7 6],
  [.copy 0, rot2 28 4 4 7, .copy 2, rot2 12 6 (-20) 5, .copy 1, rot2 12 5 20 6, .copy 3, rot2 28 7 (-4) 4]]

/-- FDCT16 (41 R152): e and d; s beside p; x, t beside q; the outputs of x and z beside r; the even outputs beside w; Y. -/
def fdct16Flow : Flow := [
  [.add 0 15, .add 1 14, .add 2 13, .add 3 12, .add 4 11, .add 5 10, .add 6 9, .add 7 8,
   .sub 7 8, .sub 6 9, .sub 5 10, .sub 4 11, .sub 3 12, .sub 2 13, .sub 1 14, .sub 0 15],
  [.add 0 7, .add 1 6, .add 2 5, .add 3 4, .sub 3 4, .sub 2 5, .sub 1 6, .sub 0 7,
   .copy 8, .copy 9, rot2 16 13 (-16) 10, rot2 16 12 (-16) 11, rot2 16 12 16 11, rot2 16 13 16 10, .copy 14, .copy 15],
  [.add 0 3, .add 1 2, .sub 1 2, .sub 0 3, .copy 4, rot2 16 6 (-16) 5, rot2 16 6 16 5, .copy 7,
   .add 8 11, .add 9 10, .sub 9 10, .sub 8 11, .sub 15 12, .sub 14 13, .add 14 13, .add 15 12],
  [rot2 16 0 16 1, rot2 16 0 (-16) 1, rot2 8 3 24 2, rot2 24 3 (-8) 2, .add 4 5, .sub 4 5, .sub 7 6, .add 7 6,
   .copy 8, rot2 24 14 (-8) 9, rot2 24 10 8 13, .copy 11, .copy 12, rot2 8 10 (-24) 13, rot2 24 9 8 14, .copy 15],
  [.copy 0, .copy 1, .copy 2, .copy 3, rot2 28 4 4 7, rot2 12 5 20 6, rot2 12 6 (-20) 5, rot2 28 7 (-4) 4,
   .add 8 9, .sub 8 9, .add 11 10, .sub 11 10, .sub 12 13, .add 12 13, .sub 15 14, .add 15 14],
  [.copy 0, rot2 30 8 2 15, .copy 4, rot2 6 12 (-26) 11, .copy 2, rot2 22 10 10 13, .copy 6, rot2 14 14 (-18) 9,
   .copy 1, rot2 14 9 18 14, .copy 5, rot2 22 13 (-10) 10, .copy 3, rot2 6 11 26 12, .copy 7, rot2 30 15 (-2) 8]]

/-- FADST8 and IADST8 (41 R161, 43 R186): the input shuffle; stages 1 to 3; the output shuffle. -/
def adst8Flow : Flow := [
  [.copy 7, .copy 0, .copy 5, .copy 2, .copy 3, .copy 4, .copy 1, .copy 6],
  [.rot [(2, 0), (30, 1), (18, 4), (14, 5)], .rot [(30, 0), (-2, 1), (14, 4), (-18, 5)],
   .rot [(10, 2), (22, 3), (26, 6), (6, 7)], .rot [(22, 2), (-10, 3), (6, 6), (-26, 7)],
   .rot [(2, 0), (30, 1), (-18, 4), (-14, 5)], .rot [(30, 0), (-2, 1), (-14, 4), (18, 5)],
   .rot [(10, 2), (22, 3), (-26, 6), (-6, 7)], .rot [(22, 2), (-10, 3), (-6, 6), (26, 7)]],
  [.add 0 2, .add 1 3, .sub 0 2, .sub 1 3,
   .rot [(8, 4), (24, 5), (8, 7), (-24, 6)], .rot [(24, 4), (-8, 5), (8, 6), (24, 7)],
   .rot [(8, 4), (24, 5), (-8, 7), (24, 6)], .rot [(24, 4), (-8, 5), (-8, 6), (-24, 7)]],
  [.copy 0, .copy 1, rot2 16 2 16 3, rot2 16 2 (-16) 3, .copy 4, .copy 5, rot2 16 6 16 7, rot2 16 6 (-16) 7],
  [.copy 0, .neg 4, .copy 6, .neg 2, .copy 3, .neg 7, .copy 5, .neg 1]]

/-- FADST16 and IADST16 (41 R162, 43 R187): the input shuffle; stages 1 to 4; the output shuffle. -/
def adst16Flow : Flow := [
  [.copy 15, .copy 0, .copy 13, .copy 2, .copy 11, .copy 4, .copy 9, .copy 6,
   .copy 7, .copy 8, .copy 5, .copy 10, .copy 3, .copy 12, .copy 1, .copy 14],
  [.rot [(1, 0), (31, 1), (17, 8), (15, 9)], .rot [(31, 0), (-1, 1), (15, 8), (-17, 9)],
   .rot [(5, 2), (27, 3), (21, 10), (11, 11)], .rot [(27, 2), (-5, 3), (11, 10), (-21, 11)],
   .rot [(9, 4), (23, 5), (25, 12), (7, 13)], .rot [(23, 4), (-9, 5), (7, 12), (-25, 13)],
   .rot [(13, 6), (19, 7), (29, 14), (3, 15)], .rot [(19, 6), (-13, 7), (3, 14), (-29, 15)],
   .rot [(1, 0), (31, 1), (-17, 8), (-15, 9)], .rot [(31, 0), (-1, 1), (-15, 8), (17, 9)],
   .rot [(5, 2), (27, 3), (-21, 10), (-11, 11)], .rot [(27, 2), (-5, 3), (-11, 10), (21, 11)],
   .rot [(9, 4), (23, 5), (-25, 12), (-7, 13)], .rot [(23, 4), (-9, 5), (-7, 12), (25, 13)],
   .rot [(13, 6), (19, 7), (-29, 14), (-3, 15)], .rot [(19, 6), (-13, 7), (-3, 14), (29, 15)]],
  [.add 0 4, .add 1 5, .add 2 6, .add 3 7, .sub 0 4, .sub 1 5, .sub 2 6, .sub 3 7,
   .rot [(4, 8), (28, 9), (4, 13), (-28, 12)], .rot [(28, 8), (-4, 9), (4, 12), (28, 13)],
   .rot [(20, 10), (12, 11), (20, 15), (-12, 14)], .rot [(12, 10), (-20, 11), (20, 14), (12, 15)],
   .rot [(4, 8), (28, 9), (-4, 13), (28, 12)], .rot [(28, 8), (-4, 9), (-4, 12), (-28, 13)],
   .rot [(20, 10), (12, 11), (-20, 15), (12, 14)], .rot [(12, 10), (-20, 11), (-20, 14), (-12, 15)]],
  [.add 0 2, .add 1 3, .sub 0 2, .sub 1 3,
   .rot [(8, 4), (24, 5), (8, 7), (-24, 6)], .rot [(24, 4), (-8, 5), (8, 6), (24, 7)],
   .rot [(8, 4), (24, 5), (-8, 7), (24, 6)], .rot [(24, 4), (-8, 5), (-8, 6), (-24, 7)],
   .add 8 10, .add 9 11, .sub 8 10, .sub 9 11,
   .rot [(8, 12), (24, 13), (8, 15), (-24, 14)], .rot [(24, 12), (-8, 13), (8, 14), (24, 15)],
   .rot [(8, 12), (24, 13), (-8, 15), (24, 14)], .rot [(24, 12), (-8, 13), (-8, 14), (-24, 15)]],
  [.copy 0, .copy 1, rot2 (-16) 2 (-16) 3, rot2 16 2 (-16) 3, .copy 4, .copy 5, rot2 16 6 16 7, rot2 16 7 (-16) 6,
   .copy 8, .copy 9, rot2 16 10 16 11, rot2 16 11 (-16) 10, .copy 12, .copy 13, rot2 (-16) 14 (-16) 15, rot2 16 14 (-16) 15],
  [.copy 0, .neg 8, .copy 12, .neg 4, .copy 6, .copy 14, .copy 10, .copy 2,
   .copy 3, .copy 11, .copy 15, .copy 7, .copy 5, .neg 13, .copy 9, .neg 1]]

/-- IDCT8 (43 R178): the input order; stages 1 to 4. -/
def idct8Flow : Flow := [
  [.copy 0, .copy 2, .copy 4, .copy 6, rot2 28 1 (-4) 7, rot2 12 5 (-20) 3, rot2 20 5 12 3, rot2 4 1 28 7],
  [rot2 16 0 16 2, rot2 16 0 (-16) 2, rot2 24 1 (-8) 3, rot2 8 1 24 3, .add 4 5, .sub 4 5, .sub 7 6, .add 6 7],
  [.add 0 3, .add 1 2, .sub 1 2, .sub 0 3, .copy 4, rot2 16 6 (-16) 5, rot2 16 5 16 6, .copy 7],
  [.add 0 7, .add 1 6, .add 2 5, .add 3 4, .sub 3 4, .sub 2 5, .sub 1 6, .sub 0 7]]

/-- IDCT16 (43 R180): stages 1 to 7. -/
def idct16Flow : Flow := [
  [.copy 0, .copy 8, .copy 4, .copy 12, .copy 2, .copy 10, .copy 6, .copy 14,
   .copy 1, .copy 9, .copy 5, .copy 13, .copy 3, .copy 11, .copy 7, .copy 15],
  copies 0 8 ++
  [rot2 30 8 (-2) 15, rot2 14 9 (-18) 14, rot2 22 10 (-10) 13, rot2 6 11 (-26) 12,
   rot2 26 11 6 12, rot2 10 10 22 13, rot2 18 9 14 14, rot2 2 8 30 15],
  copies 0 4 ++
  [rot2 28 4 (-4) 7, rot2 12 5 (-20) 6, rot2 20 5 12 6, rot2 4 4 28 7,
   .add 8 9, .sub 8 9, .sub 11 10, .add 10 11, .add 12 13, .sub 12 13, .sub 15 14, .add 14 15],
  [rot2 16 0 16 1, rot2 16 0 (-16) 1, rot2 24 2 (-8) 3, rot2 8 2 24 3, .add 4 5, .sub 4 5, .sub 7 6, .add 6 7,
   .copy 8, rot2 24 14 (-8) 9, rot2 (-24) 10 (-8) 13, .copy 11, .copy 12, rot2 24 13 (-8) 10, rot2 24 9 8 14, .copy 15],
  [.add 0 3, .add 1 2, .sub 1 2, .sub 0 3, .copy 4, rot2 16 6 (-16) 5, rot2 16 5 16 6, .copy 7,
   .add 8 11, .add 9 10, .sub 9 10, .sub 8 11, .sub 15 12, .sub 14 13, .add 13 14, .add 12 15],
  [.add 0 7, .add 1 6, .add 2 5, .add 3 4, .sub 3 4, .sub 2 5, .sub 1 6, .sub 0 7,
   .copy 8, .copy 9, rot2 16 13 (-16) 10, rot2 16 12 (-16) 11, rot2 16 11 16 12, rot2 16 10 16 13, .copy 14, .copy 15],
  [.add 0 15, .add 1 14, .add 2 13, .add 3 12, .add 4 11, .add 5 10, .add 6 9, .add 7 8,
   .sub 7 8, .sub 6 9, .sub 5 10, .sub 4 11, .sub 3 12, .sub 2 13, .sub 1 14, .sub 0 15]]

/-- FDCT32 (42 R170): stages 1 to 8. -/
def fdct32Flow : Flow := [
  ((List.range 16).map fun k => .add k (31 - k)) ++ ((List.range 16).map fun k => .sub (15 - k) (16 + k)),
  [.add 0 15, .add 1 14, .add 2 13, .add 3 12, .add 4 11, .add 5 10, .add 6 9, .add 7 8,
   .sub 7 8, .sub 6 9, .sub 5 10, .sub 4 11, .sub 3 12, .sub 2 13, .sub 1 14, .sub 0 15] ++
  copies 16 4 ++
  [rot2 16 27 (-16) 20, rot2 16 26 (-16) 21, rot2 16 25 (-16) 22, rot2 16 24 (-16) 23,
   rot2 16 24 16 23, rot2 16 25 16 22, rot2 16 26 16 21, rot2 16 27 16 20] ++
  copies 28 4,
  [.add 0 7, .add 1 6, .add 2 5, .add 3 4, .sub 3 4, .sub 2 5, .sub 1 6, .sub 0 7,
   .copy 8, .copy 9, rot2 16 13 (-16) 10, rot2 16 12 (-16) 11, rot2 16 12 16 11, rot2 16 13 16 10, .copy 14, .copy 15,
   .add 16 23, .add 17 22, .add 18 21, .add 19 20, .sub 19 20, .sub 18 21, .sub 17 22, .sub 16 23,
   .sub 31 24, .sub 30 25, .sub 29 26, .sub 28 27, .add 28 27, .add 29 26, .add 30 25, .add 31 24],
  [.add 0 3, .add 1 2, .sub 1 2, .sub 0 3, .copy 4, rot2 16 6 (-16) 5, rot2 16 6 16 5, .copy 7,
   .add 8 11, .add 9 10, .sub 9 10, .sub 8 11, .sub 15 12, .sub 14 13, .add 14 13, .add 15 12,
   .copy 16, .copy 17, rot2 24 29 (-8) 18, rot2 24 28 (-8) 19, rot2 (-24) 20 (-8) 27, rot2 (-24) 21 (-8) 26, .copy 22, .copy 23,
   .copy 24, .copy 25, rot2 24 26 (-8) 21, rot2 24 27 (-8) 20, rot2 8 28 24 19, rot2 8 29 24 18, .copy 30, .copy 31],
  [rot2 16 0 16 1, rot2 16 0 (-16) 1, rot2 24 2 8 3, rot2 24 3 (-8) 2, .add 4 5, .sub 4 5, .sub 7 6, .add 7 6,
   .copy 8, rot2 24 14 (-8) 9, rot2 (-24) 10 (-8) 13, .copy 11, .copy 12, rot2 24 13 (-8) 10, rot2 8 14 24 9, .copy 15,
   .add 16 19, .add 17 18, .sub 17 18, .sub 16 19, .sub 23 20, .sub 22 21, .add 22 21, .add 23 20,
   .add 24 27, .add 25 26, .sub 25 26, .sub 24 27, .sub 31 28, .sub 30 29, .add 30 29, .add 31 28],
  [.copy 0, .copy 1, .copy 2, .copy 3, rot2 28 4 4 7, rot2 12 5 20 6, rot2 12 6 (-20) 5, rot2 28 7 (-4) 4,
   .add 8 9, .sub 8 9, .sub 11 10, .add 11 10, .add 12 13, .sub 12 13, .sub 15 14, .add 15 14,
   .copy 16, rot2 28 30 (-4) 17, rot2 (-28) 18 (-4) 29, .copy 19, .copy 20, rot2 12 26 (-20) 21, rot2 (-12) 22 (-20) 25, .copy 23,
   .copy 24, rot2 12 25 (-20) 22, rot2 20 26 12 21, .copy 27, .copy 28, rot2 28 29 (-4) 18, rot2 4 30 28 17, .copy 31],
  copies 0 8 ++
  [rot2 30 8 2 15, rot2 14 9 18 14, rot2 22 10 10 13, rot2 6 11 26 12,
   rot2 6 12 (-26) 11, rot2 22 13 (-10) 10, rot2 14 14 (-18) 9, rot2 30 15 (-2) 8,
   .add 16 17, .sub 16 17, .sub 19 18, .add 19 18, .add 20 21, .sub 20 21, .sub 23 22, .add 23 22,
   .add 24 25, .sub 24 25, .sub 27 26, .add 27 26, .add 28 29, .sub 28 29, .sub 31 30, .add 31 30],
  [.copy 0, rot2 31 16 1 31, .copy 8, rot2 3 24 (-29) 23, .copy 4, rot2 27 20 5 27, .copy 12, rot2 7 28 (-25) 19,
   .copy 2, rot2 23 18 9 29, .copy 10, rot2 11 26 (-21) 21, .copy 6, rot2 19 22 13 25, .copy 14, rot2 15 30 (-17) 17,
   .copy 1, rot2 15 17 17 30, .copy 9, rot2 19 25 (-13) 22, .copy 5, rot2 11 21 21 26, .copy 13, rot2 23 29 (-9) 18,
   .copy 3, rot2 7 19 25 28, .copy 11, rot2 27 27 (-5) 20, .copy 7, rot2 3 23 29 24, .copy 15, rot2 31 31 (-1) 16]]

/-- IDCT32 (44 R195): stages 1 to 8. -/
def idct32Flow : Flow := [
  [.copy 0, .copy 16, .copy 8, .copy 24, .copy 4, .copy 20, .copy 12, .copy 28,
   .copy 2, .copy 18, .copy 10, .copy 26, .copy 6, .copy 22, .copy 14, .copy 30,
   rot2 31 1 (-1) 31, rot2 15 17 (-17) 15, rot2 23 9 (-9) 23, rot2 7 25 (-25) 7,
   rot2 27 5 (-5) 27, rot2 11 21 (-21) 11, rot2 19 13 (-13) 19, rot2 3 29 (-29) 3,
   rot2 29 29 3 3, rot2 13 13 19 19, rot2 21 21 11 11, rot2 5 5 27 27,
   rot2 25 25 7 7, rot2 9 9 23 23, rot2 17 17 15 15, rot2 1 1 31 31],
  copies 0 8 ++
  [rot2 30 8 (-2) 15, rot2 14 9 (-18) 14, rot2 22 10 (-10) 13, rot2 6 11 (-26) 12,
   rot2 26 11 6 12, rot2 10 10 22 13, rot2 18 9 14 14, rot2 2 8 30 15,
   .add 16 17, .sub 16 17, .sub 19 18, .add 18 19, .add 20 21, .sub 20 21, .sub 23 22, .add 22 23,
   .add 24 25, .sub 24 25, .sub 27 26, .add 26 27, .add 28 29, .sub 28 29, .sub 31 30, .add 30 31],
  copies 0 4 ++
  [rot2 28 4 (-4) 7, rot2 12 5 (-20) 6, rot2 20 5 12 6, rot2 4 4 28 7,
   .add 8 9, .sub 8 9, .sub 11 10, .add 10 11, .add 12 13, .sub 12 13, .sub 15 14, .add 14 15,
   .copy 16, rot2 28 30 (-4) 17, rot2 (-28) 18 (-4) 29, .copy 19, .copy 20, rot2 12 26 (-20) 21, rot2 (-12) 22 (-20) 25, .copy 23,
   .copy 24, rot2 12 25 (-20) 22, rot2 12 21 20 26, .copy 27, .copy 28, rot2 28 29 (-4) 18, rot2 28 17 4 30, .copy 31],
  [rot2 16 0 16 1, rot2 16 0 (-16) 1, rot2 24 2 (-8) 3, rot2 8 2 24 3, .add 4 5, .sub 4 5, .sub 7 6, .add 6 7,
   .copy 8, rot2 24 14 (-8) 9, rot2 (-24) 10 (-8) 13, .copy 11, .copy 12, rot2 24 13 (-8) 10, rot2 24 9 8 14, .copy 15,
   .add 16 19, .add 17 18, .sub 17 18, .sub 16 19, .sub 23 20, .sub 22 21, .add 21 22, .add 20 23,
   .add 24 27, .add 25 26, .sub 25 26, .sub 24 27, .sub 31 28, .sub 30 29, .add 29 30, .add 28 31],
  [.add 0 3, .add 1 2, .sub 1 2, .sub 0 3, .copy 4, rot2 16 6 (-16) 5, rot2 16 5 16 6, .copy 7,
   .add 8 11, .add 9 10, .sub 9 10, .sub 8 11, .sub 15 12, .sub 14 13, .add 13 14, .add 12 15,
   .copy 16, .copy 17, rot2 24 29 (-8) 18, rot2 24 28 (-8) 19, rot2 (-24) 20 (-8) 27, rot2 (-24) 21 (-8) 26, .copy 22, .copy 23,
   .copy 24, .copy 25, rot2 24 26 (-8) 21, rot2 24 27 (-8) 20, rot2 24 19 8 28, rot2 24 18 8 29, .copy 30, .copy 31],
  [.add 0 7, .add 1 6, .add 2 5, .add 3 4, .sub 3 4, .sub 2 5, .sub 1 6, .sub 0 7,
   .copy 8, .copy 9, rot2 16 13 (-16) 10, rot2 16 12 (-16) 11, rot2 16 11 16 12, rot2 16 10 16 13, .copy 14, .copy 15,
   .add 16 23, .add 17 22, .add 18 21, .add 19 20, .sub 19 20, .sub 18 21, .sub 17 22, .sub 16 23,
   .sub 31 24, .sub 30 25, .sub 29 26, .sub 28 27, .add 27 28, .add 26 29, .add 25 30, .add 24 31],
  [.add 0 15, .add 1 14, .add 2 13, .add 3 12, .add 4 11, .add 5 10, .add 6 9, .add 7 8,
   .sub 7 8, .sub 6 9, .sub 5 10, .sub 4 11, .sub 3 12, .sub 2 13, .sub 1 14, .sub 0 15] ++
  copies 16 4 ++
  [rot2 16 27 (-16) 20, rot2 16 26 (-16) 21, rot2 16 25 (-16) 22, rot2 16 24 (-16) 23,
   rot2 16 23 16 24, rot2 16 22 16 25, rot2 16 21 16 26, rot2 16 20 16 27] ++
  copies 28 4,
  ((List.range 16).map fun k => .add k (31 - k)) ++ ((List.range 16).map fun k => .sub (15 - k) (16 + k))]

end Sys2Proof.Machine
end

