-- ==== Sys2Proof/Machine/Asm.lean ====
section
/-! DEFINITION. The assembler line of spec 30 R104 and the four host writes one line stands for (70 R311 steps 3 and 4). -/

namespace Sys2Proof.Machine

/-- The mnemonic of a command (30 R101). -/
def mnemonic : Instr → String
  | .fdct4 _ => "FDCT4"
  | .fdct8 _ => "FDCT8"
  | .fdct16 _ => "FDCT16"
  | .fdct32 _ => "FDCT32"
  | .fadst4 _ => "FADST4"
  | .fadst8 _ => "FADST8"
  | .fadst16 _ => "FADST16"
  | .fwht4 _ => "FWHT4"
  | .idct4 _ => "IDCT4"
  | .idct8 _ => "IDCT8"
  | .idct16 _ => "IDCT16"
  | .idct32 _ => "IDCT32"
  | .iadst4 _ => "IADST4"
  | .iadst8 _ => "IADST8"
  | .iadst16 _ => "IADST16"
  | .iwht4 _ => "IWHT4"
  | .fht4 _ _ => "FHT4"
  | .fht8 _ _ => "FHT8"
  | .fht16 _ _ => "FHT16"
  | .fht32 _ => "FHT32"
  | .iht4Add _ _ => "IHT4.ADD"
  | .iht8Add _ _ => "IHT8.ADD"
  | .iht16Add _ _ => "IHT16.ADD"
  | .iht32Add _ => "IHT32.ADD"
  | .fdc4 _ => "FDC4"
  | .fdc8 _ => "FDC8"
  | .fdc16 _ => "FDC16"
  | .fdc32 _ => "FDC32"
  | .idc4Add _ => "IDC4.ADD"
  | .idc8Add _ => "IDC8.ADD"
  | .idc16Add _ => "IDC16.ADD"
  | .idc32Add _ => "IDC32.ADD"
  | .fwht4x4 _ => "FWHT4X4"
  | .iwht4x4Add _ => "IWHT4X4.ADD"

/-- `TXTNAME` (30 R95, R104). -/
def txName : TxType → String
  | .dctDct   => "DCT_DCT"
  | .adstDct  => "ADST_DCT"
  | .dctAdst  => "DCT_ADST"
  | .adstAdst => "ADST_ADST"

/-- The transform type that is written on the line: `FHTn` and `IHTn.ADD` have one, at n = 32 it is `DCT_DCT` (30 R104). -/
def writtenTx : Instr → Option TxType
  | .fht4 tx _ | .fht8 tx _ | .fht16 tx _ | .iht4Add tx _ | .iht8Add tx _ | .iht16Add tx _ => some tx
  | .fht32 _ | .iht32Add _ => some .dctDct
  | .fdct4 _ | .fdct8 _ | .fdct16 _ | .fdct32 _ | .fadst4 _ | .fadst8 _ | .fadst16 _ | .fwht4 _ => none
  | .idct4 _ | .idct8 _ | .idct16 _ | .idct32 _ | .iadst4 _ | .iadst8 _ | .iadst16 _ | .iwht4 _ => none
  | .fdc4 _ | .fdc8 _ | .fdc16 _ | .fdc32 _ | .idc4Add _ | .idc8Add _ | .idc16Add _ | .idc32Add _ => none
  | .fwht4x4 _ | .iwht4x4Add _ => none

/-- An address in hexadecimal (30 R104). -/
def hexAddr (a : Nat) : String := "0x" ++ String.ofList (Nat.toDigits 16 a)

/-- One command with its descriptor, on one line (30 R104); format K has no stride. -/
def asmLine (i : Instr) (src dst stride : Nat) : String :=
  mnemonic i ++ " "
    ++ (match writtenTx i with
        | some tx => txName tx ++ ", "
        | none    => "")
    ++ "bd=" ++ toString (bits (shapeOf i).bd)
    ++ ", src=" ++ hexAddr src
    ++ ", dst=" ++ hexAddr dst
    ++ (if (shapeOf i).family = .kernel then "" else ", stride=" ++ toString stride)

/-- The four host writes that a line stands for, CMD last (30 R104, 70 R311), each by a host that waits for the engine. -/
def launch (i : Instr) (src dst stride : Nat) : List HostEvent :=
  [ { act := .writeReg .src src, early := false },
    { act := .writeReg .dst dst, early := false },
    { act := .writeReg .stride stride, early := false },
    { act := .writeReg .cmd (encode i).toNat, early := false } ]

end Sys2Proof.Machine
end

