-- ==== Sys2Proof/Safety.lean ====
section
/-! DEFINITION. The terms the statements use: the invariant of the machine, a clean completion (spec 70 R311 step 5), a completion
with RANGE (60 R283), the blocks as a reader of memory sees them (20 R65, R66), the legal residual blocks (47 R246), and the
rules of the 2-D commands (45 R200, 46 R220) as relations between the input block, the buffer T and the output block. -/

namespace Sys2Proof.Machine

/-- What holds of every state from which the machine can come (10 R23, R28, R33, 20 R60, 48 R255). -/
structure MachineInv (s : State) : Prop where
  /-- memory is in its canonical form -/
  memory    : s.mem.wf = true
  /-- every listed byte is in the address space (20 R60) -/
  space     : ∀ c ∈ s.mem, c.1 < 2 ^ s.plat.addrW
  /-- STATUS bits 31:6 read as 0 (10 R28) -/
  reserved  : s.status &&& 0xFFFFFFC0 = 0
  /-- SRC and DST are ADDR_W bits wide (10 R23) -/
  registers : s.src < 2 ^ s.plat.addrW ∧ s.dst < 2 ^ s.plat.addrW
  /-- so are their latched copies -/
  latched   : s.latch.src < 2 ^ s.plat.addrW ∧ s.latch.dst < 2 ^ s.plat.addrW
  /-- DONE is 0 while a command executes (48 R255, R259) -/
  exclusive : ¬ (s.busy = true ∧ s.done = true)
  /-- while a command executes the registers hold its descriptor (10 R34) -/
  held      : s.busy = true → s.latch = { cmd := s.cmd, src := s.src, dst := s.dst, stride := s.stride }
  /-- only a running command has raced bytes, and they are in its footprint (20 R75) -/
  races     : ∀ a ∈ s.raced, a ∈ s.readBytes ++ s.writeBytes

/-- A command that completed with the output the rules define: DONE is set, CFG, MEM and RANGE are not (70 R311 step 5). -/
def State.cleanDone (s : State) : Bool :=
  s.done && !s.busy && !s.faultSet .cfg && !s.faultSet .mem && !s.faultSet .range

/-- The command `i` stands started on the latched descriptor of `s`: it passes every check of 30 R100, nobody has touched its
footprint since its start (20 R75), and memory is in its canonical form. -/
structure Admitted (i : Instr) (s : State) : Prop where
  passes   : (shapeOf i).check s.plat s.latch = none
  unraced  : s.raced = []
  memory   : s.mem.wf = true

/-- The bytes that command `i` writes (20 R70). -/
def writtenBytes (i : Instr) (d : Descriptor) : List Nat := elemBytes ((shapeOf i).dstElems d)

/-- STATUS after completion with no fault of the command's own: BUSY 0, DONE 1, the other bits as they were (48 R259). -/
def doneStatus (w : Word) : Word := (w &&& 0xFFFFFFFE) ||| 2

/-- `t` is `s` after command `i` completed with no RANGE: only memory and STATUS differ, and memory only in the bytes that `i`
writes (20 R74 d, 48 R259). -/
structure CleanNext (i : Instr) (s t : State) : Prop where
  frame   : t = { s with mem := t.mem, status := doneStatus s.status }
  outside : ∀ a, a ∉ writtenBytes i s.latch → t.mem.read a = s.mem.read a

/-- `t` is `s` after command `i` completed with RANGE (60 R283): the bit is set, every byte that `i` writes holds a free value
drawn in this run, every other byte is unchanged. -/
structure RangeNext (i : Instr) (s t : State) : Prop where
  frame   : t = { s with mem := t.mem, status := doneStatus (s.status ||| 16), free := t.free }
  drawn   : s.free ≤ t.free
  outside : ∀ a, a ∉ writtenBytes i s.latch → t.mem.read a = s.mem.read a
  unspec  : ∀ a ∈ writtenBytes i s.latch, ∃ k, s.free ≤ k ∧ k < t.free ∧ t.mem.read a = Config.freeByte k

/-- Residual sample (r, c) of the source block (20 R65 RES, R66). -/
def resAt (s : State) (r c : Nat) : Int :=
  sext 16 (s.mem.readN (s.latch.src + 2 * (r * s.latch.stride.toNat + c)) 2)

/-- Coefficient number `k` of a vector or of a dense block at `base` (20 R65 COEF, R66). -/
def coefAt (bd : BitDepth) (m : Memory) (base k : Nat) : Int :=
  sext (widths bd).ew (m.readN (base + coefSize bd * k) (coefSize bd))

/-- Pixel (r, c) of the destination block, in memory `m` (20 R65 PIX, R66). -/
def pixAt (bd : BitDepth) (m : Memory) (d : Descriptor) (r c : Nat) : Int :=
  (m.readN (d.dst + pixSize bd * (r * d.stride.toNat + c)) (pixSize bd) : Int)

/-- A kernel input of `n` registers (10 R24); a kernel of size `n` reads no other. -/
def vec (n : Nat) (f : Nat → Int) : Nat → Int := fun j => if j < n then f j else 0

/-- A legal residual block: every sample in -(2^BD - 1) .. 2^BD - 1 (47 R246 a). -/
def legalResidual (bd : BitDepth) (n : Nat) (s : State) : Prop :=
  ∀ r, r < n → ∀ c, c < n → -maxPix bd ≤ resAt s r c ∧ resAt s r c ≤ maxPix bd

/-- The kernel input of 45 R200, column `i`: pre-scaled by `pre`; with `adj`, 1 is added to a nonzero first sample of column 0. -/
def preScaled (pre : Int) (adj : Bool) (ib : Nat → Nat → Int) (i j : Nat) : Int :=
  if adj = true ∧ i = 0 ∧ j = 0 ∧ ib 0 0 * pre ≠ 0 then ib 0 0 * pre + 1 else ib j i * pre

/-- 45 R200 as a relation: the input block `ib`, the intermediate buffer `T` and the output block `ob` of a forward 2-D command
of size `n` whose kernels are `col` and `row` under the bounds `B`, with `chk` the width of the pipeline's class. Every check of
the rule passes. -/
structure ForwardRun (n : Nat) (pre : Int) (adj : Bool) (chk : Nat) (mid fin : Int → Int) (col row : Kernel) (B : Widths)
    (ib T ob : Nat → Nat → Int) : Prop where
  columns : ∀ i, i < n → ∃ y, col B (vec n (preScaled pre adj ib i)) = some y ∧
    ∀ j, j < n → fitsS (ib j i * pre) chk = true ∧ fitsS (preScaled pre adj ib i j) chk = true ∧
      fitsS (ix y j) chk = true ∧ T j i = mid (ix y j) ∧ fitsS (T j i) chk = true
  rows : ∀ i, i < n → ∃ y, row B (vec n (T i)) = some y ∧
    ∀ j, j < n → fitsS (ix y j) chk = true ∧ ob i j = fin (ix y j) ∧ fitsS (ob i j) B.ew = true

/-- 46 R220 as a relation: the coefficients `ib`, the intermediate buffer `T` and the rounded residual `res` of an inverse 2-D
command of size `n`: rows first, then columns, `prep` of every coefficient, `final` of every output. -/
structure InverseRun (n : Nat) (prep final : Int → Int) (col row : Kernel) (B : Widths) (ib T res : Nat → Nat → Int) :
    Prop where
  rows : ∀ i, i < n → ∃ y, row B (vec n fun j => prep (ib i j)) = some y ∧ ∀ j, j < n → T i j = ix y j
  columns : ∀ i, i < n → ∃ y, col B (vec n fun j => T j i) = some y ∧ ∀ j, j < n → res j i = final (ix y j)

/-- What a forward 2-D command of size `n` does (45 R200): if the rule's checks pass with output `ob`, it completes and the dense
block at DST holds `ob`; if they fail, it completes with RANGE. -/
def ForwardEffect (i : Instr) (bd : BitDepth) (n : Nat)
    (run : (ib T ob : Nat → Nat → Int) → Prop) : Prop :=
  ∀ s, Admitted i s →
    (∀ T ob, run (resAt s) T ob →
      ∃ t, exec i s = .next t ∧ CleanNext i s t ∧
        ∀ r, r < n → ∀ c, c < n → coefAt bd t.mem s.latch.dst (r * n + c) = ob r c) ∧
    ((¬ ∃ T ob, run (resAt s) T ob) → ∃ t, exec i s = .next t ∧ RangeNext i s t)

/-- What an inverse 2-D command of size `n` does (46 R220, R224): if the rule's checks pass with residual `res`, it completes and
every destination pixel is the old pixel plus its residual, clamped; if they fail, it completes with RANGE. -/
def InverseEffect (i : Instr) (bd : BitDepth) (n : Nat)
    (run : (ib T res : Nat → Nat → Int) → Prop) : Prop :=
  ∀ s, Admitted i s →
    (∀ T res, run (fun r c => coefAt bd s.mem s.latch.src (r * n + c)) T res →
      ∃ t, exec i s = .next t ∧ CleanNext i s t ∧
        ∀ r, r < n → ∀ c, c < n →
          pixAt bd t.mem s.latch r c = clamp (pixAt bd s.mem s.latch r c + res r c) 0 (maxPix bd)) ∧
    ((¬ ∃ T res, run (fun r c => coefAt bd s.mem s.latch.src (r * n + c)) T res) →
      ∃ t, exec i s = .next t ∧ RangeNext i s t)

/-- What a kernel command does (48 R260, R261): the kernel on the vector at SRC; if it answers and every output fits an element,
the command completes and the vector at DST holds the outputs, otherwise it completes with RANGE. -/
def KernelEffect (i : Instr) (bd : BitDepth) (n : Nat) (k : Kernel) : Prop :=
  ∀ s, Admitted i s →
    (∀ y, k (widths bd) (vec n (coefAt bd s.mem s.latch.src)) = some y →
      (∀ j, j < n → fitsS (ix y j) (widths bd).ew = true) →
      ∃ t, exec i s = .next t ∧ CleanNext i s t ∧ ∀ j, j < n → coefAt bd t.mem s.latch.dst j = ix y j) ∧
    ((∀ y, k (widths bd) (vec n (coefAt bd s.mem s.latch.src)) = some y →
      ∃ j, j < n ∧ fitsS (ix y j) (widths bd).ew = false) →
      ∃ t, exec i s = .next t ∧ RangeNext i s t)

/-- The sum of an n by n block (48 R262). -/
def blockSum (n : Nat) (f : Nat → Nat → Int) : Int :=
  ((List.range n).map fun r => ((List.range n).map fun c => f r c).sum).sum

/-- What a forward DC-only command does (48 R262): the block's sum, scaled by `dcs`, in one coefficient at DST, or RANGE. -/
def ForwardDcEffect (i : Instr) (bd : BitDepth) (n : Nat) (dcs : Int → Int) : Prop :=
  ∀ s, Admitted i s →
    (fitsS (dcs (blockSum n (resAt s))) (widths bd).ew = true →
      ∃ t, exec i s = .next t ∧ CleanNext i s t ∧ coefAt bd t.mem s.latch.dst 0 = dcs (blockSum n (resAt s))) ∧
    (fitsS (dcs (blockSum n (resAt s))) (widths bd).ew = false → ∃ t, exec i s = .next t ∧ RangeNext i s t)

/-- What an inverse DC-only command does (48 R263): two round-shifts by C[16], the final shift, and the constant added to every
pixel with the clamp. It never raises RANGE. -/
def InverseDcEffect (i : Instr) (bd : BitDepth) (n shift : Nat) : Prop :=
  ∀ s, Admitted i s → ∀ o1 o2 a1 : Int,
    o1 = (coefAt bd s.mem s.latch.src 0 * 11585 + 8192) / 16384 →
    o2 = (o1 * 11585 + 8192) / 16384 →
    a1 = (o2 + 2 ^ (shift - 1)) / 2 ^ shift →
    ∃ t, exec i s = .next t ∧ CleanNext i s t ∧
      ∀ r, r < n → ∀ c, c < n →
        pixAt bd t.mem s.latch r c = clamp (pixAt bd s.mem s.latch r c + a1) 0 (maxPix bd)

/-- The columns "match" and "mask" of the opcode map (30 R101), row by row. -/
def opcodeRow : Instr → Word × Word
  | .fdct4 _ => (0x00000001, 0xFFFFFCFF)
  | .fdct8 _ => (0x00000011, 0xFFFFFCFF)
  | .fdct16 _ => (0x00000021, 0xFFFFFCFF)
  | .fdct32 _ => (0x00000031, 0xFFFFFCFF)
  | .fadst4 _ => (0x00000041, 0xFFFFFCFF)
  | .fadst8 _ => (0x00000051, 0xFFFFFCFF)
  | .fadst16 _ => (0x00000061, 0xFFFFFCFF)
  | .fwht4 _ => (0x00000081, 0xFFFFFCFF)
  | .idct4 _ => (0x00000002, 0xFFFFFCFF)
  | .idct8 _ => (0x00000012, 0xFFFFFCFF)
  | .idct16 _ => (0x00000022, 0xFFFFFCFF)
  | .idct32 _ => (0x00000032, 0xFFFFFCFF)
  | .iadst4 _ => (0x00000042, 0xFFFFFCFF)
  | .iadst8 _ => (0x00000052, 0xFFFFFCFF)
  | .iadst16 _ => (0x00000062, 0xFFFFFCFF)
  | .iwht4 _ => (0x00000082, 0xFFFFFCFF)
  | .fht4 _ _ => (0x00000003, 0xFFFFFC3F)
  | .fht8 _ _ => (0x00000013, 0xFFFFFC3F)
  | .fht16 _ _ => (0x00000023, 0xFFFFFC3F)
  | .fht32 _ => (0x00000033, 0xFFFFFCFF)
  | .iht4Add _ _ => (0x00000004, 0xFFFFFC3F)
  | .iht8Add _ _ => (0x00000014, 0xFFFFFC3F)
  | .iht16Add _ _ => (0x00000024, 0xFFFFFC3F)
  | .iht32Add _ => (0x00000034, 0xFFFFFCFF)
  | .fdc4 _ => (0x00000005, 0xFFFFFCFF)
  | .fdc8 _ => (0x00000015, 0xFFFFFCFF)
  | .fdc16 _ => (0x00000025, 0xFFFFFCFF)
  | .fdc32 _ => (0x00000035, 0xFFFFFCFF)
  | .idc4Add _ => (0x00000006, 0xFFFFFCFF)
  | .idc8Add _ => (0x00000016, 0xFFFFFCFF)
  | .idc16Add _ => (0x00000026, 0xFFFFFCFF)
  | .idc32Add _ => (0x00000036, 0xFFFFFCFF)
  | .fwht4x4 _ => (0x00000007, 0xFFFFFCFF)
  | .iwht4x4Add _ => (0x00000008, 0xFFFFFCFF)

end Sys2Proof.Machine
end

