-- ==== Sys2Proof/Certificates/Slice0/Obligations.lean ====
section
/-! DEFINITION. The statements about TXE, for the provers. Each docstring names the rules of spec/ that the statement formalises. -/

open Sys2Proof Sys2Proof.Machine

/-! ## Encoding (spec 30) -/

/-- Decoding the word of an instruction gives the instruction back, for every operand (30 R91 to R98, R101). -/
def Obligations.DecodeOfEncode : Prop := ∀ i : Instr, decode (encode i) = .ok i

/-- A word that decodes is the word of what it decodes to: no bit is dropped and no two words mean the same (30 R97, R101). -/
def Obligations.EncodeOfDecode : Prop := ∀ (w : Word) (i : Instr), decode w = .ok i → encode i = w

/-- The decoder accepts exactly the words that no clause of 30 R97 calls illegal. -/
def Obligations.DecoderAcceptsLegalWords : Prop :=
  ∀ w : Word, (∃ i, decode w = .ok i) ↔ wellFormedWord w = true

/-- The decoder agrees with the opcode map (30 R101): a word decodes to a command of the row it matches, and a word with BD other
than 3 that matches a row decodes to a command of that row. -/
def Obligations.DecoderFollowsOpcodeMap : Prop :=
  (∀ (w : Word) (i : Instr), decode w = .ok i → w &&& (opcodeRow i).2 = (opcodeRow i).1) ∧
  (∀ (w : Word) (i : Instr), w &&& (opcodeRow i).2 = (opcodeRow i).1 → (w >>> 8) &&& 3 ≠ 3 →
    ∃ j, decode w = .ok j ∧ opcodeRow j = opcodeRow i)

/-- Of the 1024 words with ZERO = 0 exactly 156 are legal (30 R101), and no word with ZERO other than 0 is (30 R99). -/
def Obligations.LegalWordCount : Prop :=
  ((List.range 1024).filter fun n => wellFormedWord (BitVec.ofNat 32 n)).length = 156 ∧
  ∀ w : Word, 1024 ≤ w.toNat → wellFormedWord w = false

/-- The words that 30 R101 writes out as examples decode to the commands it names, and 0, the reset value of CMD, to none. -/
def Obligations.WrittenOutWordsDecode : Prop :=
  decode 0x00000053 = .ok (.fht8 .adstDct .b8) ∧
  decode 0x000001A4 = .ok (.iht16Add .dctAdst .b10) ∧
  decode 0x00000231 = .ok (.fdct32 .b12) ∧
  decode 0x00000008 = .ok (.iwht4x4Add .b8) ∧
  decode 0x00000000 = .error .reservedOp

/-! ## Reset (spec 10 R33, 70 R310) -/

/-- The command registers and STATUS after reset (10 R33): all 0, so BUSY, DONE and the four fault bits are 0. -/
def Obligations.RegistersAfterReset : Prop :=
  State.reset.cmd = 0 ∧ State.reset.src = 0 ∧ State.reset.dst = 0 ∧ State.reset.stride = 0 ∧
  State.reset.status = 0 ∧ State.reset.busy = false ∧ State.reset.done = false ∧
  ∀ f, State.reset.faultSet f = false

/-- Reset at any time (70 R310): the registers become 0, the engine is idle, bytes outside the write footprint of an abandoned
command keep their values, and an idle engine's reset leaves memory as it is. -/
def Obligations.ResetAtAnyTime : Prop :=
  ∀ (s : State) (early : Bool) (rest : List HostEvent), MachineInv s →
    s.host = { act := .reset, early := early } :: rest →
    (s.busy = true → early = true ∧ s.runningShape.isSome = true) →
    ∃ t, step s = .next t ∧
      t.cmd = 0 ∧ t.src = 0 ∧ t.dst = 0 ∧ t.stride = 0 ∧ t.status = 0 ∧ t.busy = false ∧ t.done = false ∧
      t.plat = s.plat ∧ t.host = rest ∧
      (∀ a, a ∉ s.writeBytes → a ∉ s.raced → t.mem.read a = s.mem.read a) ∧
      (s.busy = false → t.mem = s.mem)

/-! ## The life of a command (spec 30 R100, 48 R255, R259) -/

/-- A step runs the decoded command and adds nothing around it, whether the host has nothing to do, waits, or is early and finds
the command refused; the same for a word placed by `withFetchWord` (48 R255, R256). -/
def Obligations.StepRunsDecodedInstruction : Prop :=
  (∀ (s : State) (i : Instr), s.busy = true → decode s.latch.cmd = .ok i →
    (∀ e ∈ s.host.head?, e.early = true → (shapeOf i).check s.plat s.latch ≠ none) →
    step s = exec i s) ∧
  (∀ (s : State) (w : Nat) (i : Instr), w < 2 ^ 32 → decode (BitVec.ofNat 32 w) = .ok i →
    step (s.withFetchWord 32 w) = exec i (s.withFetchWord 32 w))

/-- A write of CMD to an idle engine starts a command (48 R255 steps 1 and 2): the word and SRC, DST, STRIDE are latched, DONE is
cleared, BUSY set, the fault bits keep their values, nothing else changes. That CMD and the latch hold the low 32 bits of a `v` of
2^32 or more is the model's choice (log 12) and no rule of the spec. -/
def Obligations.CommandStart : Prop :=
  ∀ (s : State) (v : Nat) (early : Bool) (rest : List HostEvent), s.busy = false →
    s.host = { act := .writeReg .cmd v, early := early } :: rest →
    ∃ t, step s = .next t ∧
      t = { s with
        cmd := BitVec.ofNat 32 v
        latch := { cmd := BitVec.ofNat 32 v, src := s.src, dst := s.dst, stride := s.stride }
        status := t.status
        host := rest } ∧
      t.busy = true ∧ t.done = false ∧ (∀ f, t.faultSet f = s.faultSet f)

/-- The four host writes of an assembler line (30 R104, 70 R311 steps 3 and 4) start the line's command with its descriptor. -/
def Obligations.LaunchStartsCommand : Prop :=
  ∀ (i : Instr) (src dst stride : Nat) (s : State) (rest : List HostEvent), s.busy = false →
    src < 2 ^ s.plat.addrW → dst < 2 ^ s.plat.addrW → stride < 2 ^ 32 →
    s.host = launch i src dst stride ++ rest →
    Host.Core.run Sys2Proof.core 4 s = .next { s with
      cmd := encode i
      src := src
      dst := dst
      stride := BitVec.ofNat 32 stride
      latch := { cmd := encode i, src := src, dst := dst, stride := BitVec.ofNat 32 stride }
      status := (s.status &&& 0xFFFFFFFD) ||| 1
      host := rest }

/-- The checks of 30 R100 in their order: a STRIDE below N raises CFG; else a misaligned SRC or DST raises CFG; else an element
outside the address space or outside the platform's memory raises MEM; a refused command only sets its bit and completes
(60 R281, R282, R286); else the command is admitted. -/
def Obligations.DescriptorChecksInOrder : Prop :=
  ∀ (i : Instr) (s : State),
    if (shapeOf i).family ≠ .kernel ∧ s.latch.stride.toNat < (shapeOf i).n then
      exec i s = .next { s with status := doneStatus (s.status ||| 4), raced := [] }
    else if s.latch.src % (shapeOf i).srcSize ≠ 0 ∨ s.latch.dst % (shapeOf i).dstSize ≠ 0 then
      exec i s = .next { s with status := doneStatus (s.status ||| 4), raced := [] }
    else
      ((∃ e, (e ∈ (shapeOf i).readElems s.latch ∨ e ∈ (shapeOf i).dstElems s.latch) ∧
          ¬ (e.addr + e.size ≤ 2 ^ s.plat.addrW ∧ ∃ r ∈ s.plat.regions,
              r.base ≤ e.addr ∧ e.addr + e.size ≤ r.base + r.len ∧ e.size ∈ r.sizes)) →
        exec i s = .next { s with status := doneStatus (s.status ||| 8), raced := [] }) ∧
      ((∀ e, (e ∈ (shapeOf i).readElems s.latch ∨ e ∈ (shapeOf i).dstElems s.latch) →
          e.addr + e.size ≤ 2 ^ s.plat.addrW ∧ ∃ r ∈ s.plat.regions,
            r.base ≤ e.addr ∧ e.addr + e.size ≤ r.base + r.len ∧ e.size ∈ r.sizes) →
        (shapeOf i).check s.plat s.latch = none)

/-- An illegal word raises CFG and completes at once, before any action of the host, with no other effect (30 R97, 60 R281 a). -/
def Obligations.IllegalWordRaisesCfg : Prop :=
  ∀ (s : State), s.busy = true → wellFormedWord s.latch.cmd = false →
    step s = .next { s with status := doneStatus (s.status ||| 4), raced := [] }

/-- Every command completes, in every state, with BUSY 0 and DONE 1 as one event; CMD, SRC, DST, STRIDE, the latch and the host's
later actions are as they were, no fault bit is cleared, PROTO is not touched, and no byte changes outside the write footprint but
those the host has raced with (48 R259, 20 R74 d, 60 R280). -/
def Obligations.EveryCommandCompletes : Prop :=
  ∀ (i : Instr) (s : State), ∃ t, exec i s = .next t ∧
    t = { s with status := t.status, mem := t.mem, raced := [], free := t.free } ∧
    t.busy = false ∧ t.done = true ∧
    (∀ f, s.faultSet f = true → t.faultSet f = true) ∧
    t.faultSet .proto = s.faultSet .proto ∧
    (∀ a, a ∉ writtenBytes i s.latch → a ∉ s.raced → t.mem.read a = s.mem.read a)

/-- A busy engine whose host waits completes in one step, whatever the word and the descriptor (48 R256, R259). -/
def Obligations.BusyEngineCompletes : Prop :=
  ∀ s : State, s.busy = true → (∀ e ∈ s.host.head?, e.early = false) →
    ∃ t, step s = .next t ∧ t.busy = false ∧ t.done = true ∧ t.host = s.host

/-! ## STATUS (spec 10 R28, 60) -/

/-- 60 R292: a write of `m` to STATUS clears every bit k in 1..5 with m[k] = 1 and leaves the others, whether the engine is idle or
a command runs; a fault raised twice is absorbed and faults of different kinds keep their own bits. -/
def Obligations.StatusWriteClearsOnes : Prop :=
  (∀ (s : State) (m : Nat) (early : Bool) (rest : List HostEvent),
    s.host = { act := .writeReg .status m, early := early } :: rest →
    (s.busy = true → early = true ∧ s.runningShape.isSome = true) →
    ∃ t, step s = .next t ∧ t = { s with status := t.status, host := rest } ∧
      ∀ k, t.status.getLsbD k =
        (s.status.getLsbD k && !(decide (1 ≤ k ∧ k ≤ 5) && m.testBit k))) ∧
  (∀ (f : FaultBit) (s : State), (raise f s).faultSet f = true ∧ raise f (raise f s) = raise f s) ∧
  (∀ (f : FaultBit) (s : State) (k : Nat), k ≠ f.code → (raise f s).status.getLsbD k = s.status.getLsbD k)

/-- 60 R284: a host write to CMD, SRC, DST or STRIDE while a command runs raises PROTO and is dropped, and the command's result is
the same but for the PROTO bit: STATUS if nobody has raced with it, every byte outside its write footprint that nobody has raced
with, and the whole state if the run draws no free value (two runs' unspecified bytes are not compared: 60 R283, log 5); reads and
writes of STATUS raise nothing. -/
def Obligations.ProtocolViolation : Prop :=
  (∀ (s : State) (r : Reg) (v : Nat) (rest : List HostEvent), s.busy = true → s.runningShape.isSome = true →
    r ≠ .status → s.host = { act := .writeReg r v, early := true } :: rest →
    step s = .next { s with status := s.status ||| 32, host := rest }) ∧
  (∀ (i : Instr) (s u v : State), exec i s = .next u → exec i { s with status := s.status ||| 32 } = .next v →
    v = { u with status := v.status, mem := v.mem, free := v.free } ∧ v.faultSet .proto = true ∧
    (∀ a, a ∉ writtenBytes i s.latch → a ∉ s.raced → v.mem.read a = u.mem.read a) ∧
    (s.raced = [] → v.status = u.status ||| 32) ∧
    (u.free = s.free → v = { u with status := u.status ||| 32 })) ∧
  (∀ (s : State) (r : Reg) (rest : List HostEvent), s.busy = true → s.runningShape.isSome = true →
    s.host = { act := .readReg r, early := true } :: rest →
    step s = .next { s with hostData := readReg r s, host := rest }) ∧
  (∀ (s : State) (m : Nat) (rest : List HostEvent), s.busy = true → s.runningShape.isSome = true →
    s.host = { act := .writeReg .status m, early := true } :: rest →
    ∃ t, step s = .next t ∧ t.busy = true ∧ (t.faultSet .proto = true → s.faultSet .proto = true))

/-- Registers 0 to 3 are plain storage (10 R23, R34): what the host writes to SRC, DST or STRIDE of an idle engine within the
register's width it reads back, and a write changes no other register. A read of any of the five registers of an idle engine gives
its value and changes no register. -/
def Obligations.RegisterReadBack : Prop :=
  ∀ (s : State) (v : Nat) (e1 e2 : Bool) (rest : List HostEvent), s.busy = false →
    (v < 2 ^ s.plat.addrW →
      s.host = { act := .writeReg .src v, early := e1 } :: { act := .readReg .src, early := e2 } :: rest →
      Host.Core.run Sys2Proof.core 2 s = .next { s with src := v, hostData := v, host := rest }) ∧
    (v < 2 ^ s.plat.addrW →
      s.host = { act := .writeReg .dst v, early := e1 } :: { act := .readReg .dst, early := e2 } :: rest →
      Host.Core.run Sys2Proof.core 2 s = .next { s with dst := v, hostData := v, host := rest }) ∧
    (v < 2 ^ 32 →
      s.host = { act := .writeReg .stride v, early := e1 } :: { act := .readReg .stride, early := e2 } :: rest →
      Host.Core.run Sys2Proof.core 2 s = .next { s with stride := BitVec.ofNat 32 v, hostData := v, host := rest }) ∧
    (s.host = { act := .readReg .cmd, early := e1 } :: rest →
      step s = .next { s with hostData := s.cmd.toNat, host := rest }) ∧
    (s.host = { act := .readReg .src, early := e1 } :: rest → step s = .next { s with hostData := s.src, host := rest }) ∧
    (s.host = { act := .readReg .dst, early := e1 } :: rest → step s = .next { s with hostData := s.dst, host := rest }) ∧
    (s.host = { act := .readReg .stride, early := e1 } :: rest →
      step s = .next { s with hostData := s.stride.toNat, host := rest }) ∧
    (s.host = { act := .readReg .status, early := e1 } :: rest →
      step s = .next { s with hostData := s.status.toNat, host := rest })

/-- The engine never clears a fault bit: a step that clears one performs, and takes off the host's list, a write of 1 to the bit or a
reset (10 R28, 60 R280). -/
def Obligations.OnlyHostClearsFaults : Prop :=
  ∀ (s t : State) (f : FaultBit), step s = .next t → s.faultSet f = true → t.faultSet f = false →
    ∃ e rest, s.host = e :: rest ∧ t.host = rest ∧
      (e.act = .reset ∨ ∃ v, e.act = .writeReg .status v ∧ v.testBit f.code = true)

/-- BUSY rises only by a host write of CMD, whose word and descriptor are then latched (10 R34, 48 R255). That CMD and the latch hold
the low 32 bits of a `v` of 2^32 or more is the model's choice (log 12) and no rule of the spec. -/
def Obligations.OnlyCmdWriteStarts : Prop :=
  ∀ s t : State, step s = .next t → s.busy = false → t.busy = true →
    ∃ e rest v, s.host = e :: rest ∧ e.act = .writeReg .cmd v ∧ t.host = rest ∧ t.cmd = BitVec.ofNat 32 v ∧
      t.latch = { cmd := BitVec.ofNat 32 v, src := s.src, dst := s.dst, stride := s.stride }

/-- BUSY falls only by completion, which sets DONE, or by reset (10 R28, R29, 48 R259, 70 R310). -/
def Obligations.BusyFallsByCompletionOrReset : Prop :=
  ∀ s t : State, step s = .next t → s.busy = true → t.busy = false →
    (t.done = true ∧ t.host = s.host) ∨
    (∃ e rest, s.host = e :: rest ∧ e.act = .reset ∧ e.early = true ∧ t.status = 0 ∧ t.host = rest)

/-- The completion line (60 R290): absent by default, equal to DONE where the platform has it. -/
def Obligations.CompletionLineFollowsDone : Prop :=
  (∀ s : State, s.plat.hasIrq = true → s.irqLine = some s.done) ∧
  (∀ s : State, s.plat.hasIrq = false → s.irqLine = none) ∧ State.reset.irqLine = none

/-! ## Memory (spec 20) -/

/-- 20 R62: `MemRead` is the little-endian sum of its bytes and fits them. -/
def Obligations.LoadIsLittleEndian : Prop :=
  ∀ (m : Memory) (a n : Nat), n = 1 ∨ n = 2 ∨ n = 4 →
    m.readN a n = ((List.range n).map fun i => (m.read (a + i)).toNat * 256 ^ i).sum ∧ m.readN a n < 2 ^ (8 * n)

/-- 20 R63: `MemWrite` sets each byte of a canonical memory to its digit; every other byte is unchanged and the memory stays
canonical. -/
def Obligations.StoreIsLittleEndian : Prop :=
  ∀ (m : Memory) (a n u : Nat), m.wf = true → n = 1 ∨ n = 2 ∨ n = 4 → u < 2 ^ (8 * n) →
    (∀ i, i < n → ((m.writeN a n u).read (a + i)).toNat = u / 256 ^ i % 256) ∧
    (∀ x, x < a ∨ a + n ≤ x → (m.writeN a n u).read x = m.read x) ∧ (m.writeN a n u).wf = true

/-- With the engine idle, a host load after a host store of the same admitted bytes returns what was stored (20 R62, R63, R74). Those
rules speak of n = 1, 2 and 4; that an access of another size the platform admits behaves alike is the model's choice (log 12) and
no rule of the spec. -/
def Obligations.HostLoadAfterStore : Prop :=
  ∀ (s : State) (a n u : Nat) (e1 e2 : Bool) (rest : List HostEvent), MachineInv s → s.busy = false →
    Platform.admits s.plat a n = true → u < 256 ^ n →
    s.host = { act := .writeMem a n u, early := e1 } :: { act := .readMem a n, early := e2 } :: rest →
    ∃ t, Host.Core.run Sys2Proof.core 2 s = .next t ∧ t.hostData = u ∧
      t = { s with mem := t.mem, hostData := u, host := rest } ∧
      ∀ x, x < a ∨ a + n ≤ x → t.mem.read x = s.mem.read x

/-- 20 R75 as the model has it (log 8): after a command that the host has raced with, each raced byte holds a free value. -/
def Obligations.RacedBytesAreUnspecified : Prop :=
  ∀ (i : Instr) (s : State), (shapeOf i).check s.plat s.latch = none → s.mem.wf = true →
    ∃ t, exec i s = .next t ∧
      ∀ a ∈ s.raced, ∃ k, s.free ≤ k ∧ k < t.free ∧ t.mem.read a = Config.freeByte k

/-- 20 R74 (c) and R75 as the model has them (log 8): a host load of a byte of the running command's write footprint returns a free
value and marks the byte. -/
def Obligations.EarlyLoadIsUnspecified : Prop :=
  ∀ (s : State) (a : Nat) (rest : List HostEvent), s.busy = true → a ∈ s.writeBytes →
    Platform.admits s.plat a 1 = true → s.host = { act := .readMem a 1, early := true } :: rest →
    ∃ t, step s = .next t ∧ t.hostData = (Config.freeByte s.free).toNat ∧ t.free = s.free + 1 ∧ a ∈ t.raced ∧
      t.mem = s.mem ∧ t.busy = true

/-! ## Arithmetic (spec 40) -/

/-- 40 R124: the round-shift, its checks, its ties, and where it is not odd. -/
def Obligations.RoundShift : Prop :=
  (∀ (B : Widths) (v : Int),
    rs B v = if fitsS v B.aw = true ∧ fitsS (v + 8192) B.aw = true then some ((v + 8192) / 16384) else none) ∧
  (∀ bd, rs (widths bd) 8191 = some 0 ∧ rs (widths bd) 8192 = some 1 ∧ rs (widths bd) (-8192) = some 0 ∧
    rs (widths bd) (-8193) = some (-1) ∧ rs (widths bd) 24576 = some 2 ∧ rs (widths bd) (-24576) = some (-1)) ∧
  (∀ (B : Widths) (v p q : Int), rs B v = some p → rs B (-v) = some q → (q = -p ↔ v % 16384 ≠ 8192))

/-- The coefficient ROMs (40 R120, R121): positive, below 2^14, falling; C[16] and S[1] + S[2] = S[4] as stated; and the squares of
C[k] and C[32 - k] add up to 2^28 within 2^15, as those of a rounded cosine and sine do. -/
def Obligations.RomTables : Prop :=
  (∀ k, 1 ≤ k → k ≤ 31 → 0 < C k ∧ C k < 16384) ∧
  (∀ k, 1 ≤ k → k ≤ 30 → C (k + 1) < C k) ∧
  (∀ k, 1 ≤ k → k ≤ 31 → |C k * C k + C (32 - k) * C (32 - k) - 2 ^ 28| < 2 ^ 15) ∧
  C 16 = 11585 ∧ (∀ k, 1 ≤ k → k ≤ 4 → 0 < S k ∧ S k < 16384) ∧ S 1 + S 2 = S 4

/-! ## Kernels (spec 41 to 44) -/

/-- FDCT4 on inputs up to 2^15 in magnitude never fails a check, at any depth, and answers the four sums of 41 R150. -/
def Obligations.Fdct4OnElements : Prop :=
  ∀ (bd : BitDepth) (X : Nat → Int), (∀ i, i < 4 → -32768 ≤ X i ∧ X i ≤ 32768) →
    fdct4 (widths bd) X = some [
      ((X 0 + X 3 + (X 1 + X 2)) * 11585 + 8192) / 16384,
      ((X 1 - X 2) * 6270 + (X 0 - X 3) * 15137 + 8192) / 16384,
      ((X 0 + X 3 - (X 1 + X 2)) * 11585 + 8192) / 16384,
      ((X 0 - X 3) * 6270 - (X 1 - X 2) * 15137 + 8192) / 16384]

/-- What the other 4-point kernels answer, when they answer (FADST4 41 R160, FWHT4 41 R166, IDCT4 43 R175, IADST4 43 R185, IWHT4
43 R190). -/
def Obligations.FourPointKernelValues : Prop :=
  (∀ (B : Widths) (X : Nat → Int) (y : List Int), fadst4 B X = some y → y = [
    (5283 * X 0 + 9929 * X 1 + 13377 * X 2 + 15212 * X 3 + 8192) / 16384,
    (13377 * (X 0 + X 1 - X 3) + 8192) / 16384,
    (15212 * X 0 - 5283 * X 1 + 9929 * X 3 - 13377 * X 2 + 8192) / 16384,
    (9929 * X 0 - 15212 * X 1 - 5283 * X 3 + 13377 * X 2 + 8192) / 16384]) ∧
  (∀ (B : Widths) (X : Nat → Int) (y : List Int) (e : Int), fwht4 B X = some y →
    e = ((X 0 + X 1) - (X 3 - X 2)) / 2 →
    y = [X 0 + X 1 + X 2 - e, e - X 2, X 3 - X 2 - X 1 + e, e - X 1]) ∧
  (∀ (B : Widths) (X : Nat → Int) (y : List Int) (p q r t : Int), idct4 B X = some y →
    p = ((X 0 + X 2) * 11585 + 8192) / 16384 → q = ((X 0 - X 2) * 11585 + 8192) / 16384 →
    r = (X 1 * 6270 - X 3 * 15137 + 8192) / 16384 → t = (X 1 * 15137 + X 3 * 6270 + 8192) / 16384 →
    y = [p + t, q + r, q - r, p - t]) ∧
  (∀ (B : Widths) (X : Nat → Int) (y : List Int), iadst4 B X = some y → y = [
    (5283 * X 0 + 15212 * X 2 + 9929 * X 3 + 13377 * X 1 + 8192) / 16384,
    (9929 * X 0 - 5283 * X 2 - 15212 * X 3 + 13377 * X 1 + 8192) / 16384,
    (13377 * (X 0 - X 2 + X 3) + 8192) / 16384,
    (15212 * X 0 + 9929 * X 2 - 5283 * X 3 - 13377 * X 1 + 8192) / 16384]) ∧
  (∀ (B : Widths) (X : Nat → Int) (y : List Int) (e : Int), iwht4 B X = some y →
    e = ((X 0 + X 1) - (X 2 - X 3)) / 2 →
    y = [X 0 + X 1 + X 3 - e, e - X 3, e - X 1, X 2 - X 3 - X 1 + e])

/-- What the 8-, 16- and 32-point kernels answer, when they answer: the outputs of the signal-flow graphs of Machine/Flow.lean, which
are the pseudocode of 41 R151, R152, R161, R162, 42 R170, 43 R178, R180, R186, R187 and 44 R195 without its class checks. -/
def Obligations.LargerKernelValues : Prop :=
  ∀ k ∈ [(8, fdct8, fdct8Flow), (16, fdct16, fdct16Flow), (32, fdct32, fdct32Flow), (8, fadst8, adst8Flow),
      (16, fadst16, adst16Flow), (8, idct8, idct8Flow), (16, idct16, idct16Flow), (32, idct32, idct32Flow),
      (8, iadst8, adst8Flow), (16, iadst16, adst16Flow)],
    ∀ (B : Widths) (X : Nat → Int) (y : List Int), k.2.1 B X = some y → y = flowOutput k.2.2 ((List.range k.1).map X)

/-- The 1-D lifting WHT is undone exactly: IWHT4 on what FWHT4 answers gives the input back, for every input that fits an element, if
an element is no wider than an accumulator (41 R166, 43 R190). IWHT4's lifting values carry `acc` and no `low`: the model's choice
between 43 R190 and R176 (log 20). -/
def Obligations.WhtKernelsAreInverse : Prop :=
  ∀ (B : Widths) (X : Nat → Int) (y : List Int), B.ew ≤ B.aw → (∀ i, i < 4 → fitsS (X i) B.ew = true) →
    fwht4 B X = some y → iwht4 B (ix y) = some [X 0, X 1, X 2, X 3]

/-- A kernel of size N is a function of X[0] .. X[N-1] alone (41 R153, 43 R176). -/
def Obligations.KernelsReadTheirInputsOnly : Prop :=
  ∀ k ∈ [(4, fdct4), (8, fdct8), (16, fdct16), (32, fdct32), (4, fadst4), (8, fadst8), (16, fadst16), (4, fwht4),
      (4, idct4), (8, idct8), (16, idct16), (32, idct32), (4, iadst4), (8, iadst8), (16, iadst16), (4, iwht4)],
    ∀ (B : Widths) (X X' : Nat → Int), (∀ i, i < k.1 → X i = X' i) → k.2 B X = k.2 B X'

/-- Every kernel maps the all-zero vector to the all-zero vector, with or without the test of 40 R130. -/
def Obligations.KernelsOfZero : Prop :=
  ∀ k ∈ [(4, fdct4), (8, fdct8), (16, fdct16), (32, fdct32), (4, fadst4), (8, fadst8), (16, fadst16), (4, fwht4),
      (4, idct4), (8, idct8), (16, idct16), (32, idct32), (4, iadst4), (8, iadst8), (16, iadst16), (4, iwht4)],
    ∀ (bd : BitDepth) (X : Nat → Int), (∀ i, i < k.1 → X i = 0) → k.2 (widths bd) X = some (List.replicate k.1 0)

/-- What a kernel answers on the low path it answers on the high path (47 R240, R242 b). -/
def Obligations.KernelsSameAtEveryDepth : Prop :=
  ∀ k ∈ [fdct4, fdct8, fdct16, fdct32, fadst4, fadst8, fadst16, fwht4,
      idct4, idct8, idct16, idct32, iadst4, iadst8, iadst16, iwht4],
    ∀ (bd : BitDepth) (X : Nat → Int) (y : List Int), k (widths .b8) X = some y → k (widths bd) X = some y

/-- An inverse DCT of a DC impulse is flat: every output is one round-shift of V * C[16] (43 R175, 46 R231 b). -/
def Obligations.InverseDctOfDcImpulse : Prop :=
  ∀ k ∈ [(4, idct4), (8, idct8), (16, idct16), (32, idct32)],
    ∀ (bd : BitDepth) (X : Nat → Int), fitsS (X 0) (widths bd).ew = true → (∀ i, 0 < i → i < k.1 → X i = 0) →
      k.2 (widths bd) X = some (List.replicate k.1 ((X 0 * 11585 + 8192) / 16384))

/-- The examples of 47 R248: where the low path raises RANGE and the high path answers. -/
def Obligations.RangeExamples : Prop :=
  (∀ bd, idct4 (widths bd) (ix [32767, 0, 0, 0]) = some [23169, 23169, 23169, 23169]) ∧
  idct4 (widths .b8) (ix [32767, 0, 32767, 0]) = none ∧
  idct4 (widths .b10) (ix [32767, 0, 32767, 0]) = some [46339, 0, 0, 46339] ∧
  (∀ bd, (fdct4 (widths bd) (ix [32767, 32767, 32767, 32767])).map (fun y => ix y 0) = some 92677) ∧
  low (widths .b8) 92677 = none ∧ low (widths .b10) 92677 = some 92677

/-! ## The commands: result, frame and RANGE (spec 41 to 48) -/

/-- The forward kernel commands (48 R260, 41, 42): the kernel's outputs at DST, or RANGE. -/
def Obligations.ForwardKernelCommands : Prop :=
  ∀ bd : BitDepth,
    KernelEffect (.fdct4 bd) bd 4 fdct4 ∧ KernelEffect (.fdct8 bd) bd 8 fdct8 ∧
    KernelEffect (.fdct16 bd) bd 16 fdct16 ∧ KernelEffect (.fdct32 bd) bd 32 fdct32 ∧
    KernelEffect (.fadst4 bd) bd 4 fadst4 ∧ KernelEffect (.fadst8 bd) bd 8 fadst8 ∧
    KernelEffect (.fadst16 bd) bd 16 fadst16 ∧ KernelEffect (.fwht4 bd) bd 4 fwht4

/-- The inverse kernel commands (48 R261, 43, 44): the kernel's outputs at DST, or RANGE. Where IWHT4 raises RANGE follows 43 R190, not
R176 (log 20). -/
def Obligations.InverseKernelCommands : Prop :=
  ∀ bd : BitDepth,
    KernelEffect (.idct4 bd) bd 4 idct4 ∧ KernelEffect (.idct8 bd) bd 8 idct8 ∧
    KernelEffect (.idct16 bd) bd 16 idct16 ∧ KernelEffect (.idct32 bd) bd 32 idct32 ∧
    KernelEffect (.iadst4 bd) bd 4 iadst4 ∧ KernelEffect (.iadst8 bd) bd 8 iadst8 ∧
    KernelEffect (.iadst16 bd) bd 16 iadst16 ∧ KernelEffect (.iwht4 bd) bd 4 iwht4

/-- FHT4 (45 R204): columns first, pre-scale 16, the adjustment of the first sample, final rounding by 2 bits with bias 1 (the model's
choice between two readings of the spec, log 19). -/
def Obligations.Fht4Command : Prop :=
  ∀ (tx : TxType) (bd : BitDepth),
    ForwardEffect (.fht4 tx bd) bd 4
      (ForwardRun 4 16 true (widths bd).ew (fun t => t) (fun t => (t + 1) / 4)
        (if tx = .adstDct ∨ tx = .adstAdst then fadst4 else fdct4)
        (if tx = .dctAdst ∨ tx = .adstAdst then fadst4 else fdct4) (widths bd))

/-- FHT8 (45 R205): pre-scale 4, final halving toward zero. -/
def Obligations.Fht8Command : Prop :=
  ∀ (tx : TxType) (bd : BitDepth),
    ForwardEffect (.fht8 tx bd) bd 8
      (ForwardRun 8 4 false (widths bd).ew (fun t => t) (fun t => if t < 0 then (t + 1) / 2 else t / 2)
        (if tx = .adstDct ∨ tx = .adstAdst then fadst8 else fdct8)
        (if tx = .dctAdst ∨ tx = .adstAdst then fadst8 else fdct8) (widths bd))

/-- FHT16 (45 R206, R208): pre-scale 4, the boundary rounding of DCT_DCT and that of the other types, no final rounding. -/
def Obligations.Fht16Command : Prop :=
  ∀ (tx : TxType) (bd : BitDepth),
    ForwardEffect (.fht16 tx bd) bd 16
      (ForwardRun 16 4 false (widths bd).ew
        (fun t => if tx = .dctDct then (t + 1) / 4 else if t < 0 then (t + 2) / 4 else (t + 1) / 4) (fun t => t)
        (if tx = .adstDct ∨ tx = .adstAdst then fadst16 else fdct16)
        (if tx = .dctAdst ∨ tx = .adstAdst then fadst16 else fdct16) (widths bd))

/-- FHT32 (45 R207): accumulator class, both roundings by 2 bits with their data-dependent biases. -/
def Obligations.Fht32Command : Prop :=
  ∀ bd : BitDepth,
    ForwardEffect (.fht32 bd) bd 32
      (ForwardRun 32 4 false (widths bd).aw (fun t => if 0 < t then (t + 2) / 4 else (t + 1) / 4)
        (fun t => if t < 0 then (t + 2) / 4 else (t + 1) / 4) fdct32 fdct32 (widths bd))

/-- FWHT4X4 (45 R210): no pre-scale, no rounding, the second pass times 4. -/
def Obligations.Fwht4x4Command : Prop :=
  ∀ bd : BitDepth,
    ForwardEffect (.fwht4x4 bd) bd 4
      (ForwardRun 4 1 false (widths bd).ew (fun t => t) (fun t => t * 4) fwht4 fwht4 (widths bd))

/-- IHT4.ADD (46 R225): rows first, final shift 4, add and clamp. -/
def Obligations.Iht4AddCommand : Prop :=
  ∀ (tx : TxType) (bd : BitDepth),
    InverseEffect (.iht4Add tx bd) bd 4
      (InverseRun 4 (fun v => v) (fun v => (v + 8) / 16)
        (if tx = .adstDct ∨ tx = .adstAdst then iadst4 else idct4)
        (if tx = .dctAdst ∨ tx = .adstAdst then iadst4 else idct4) (widths bd))

/-- IHT8.ADD (46 R226): final shift 5. -/
def Obligations.Iht8AddCommand : Prop :=
  ∀ (tx : TxType) (bd : BitDepth),
    InverseEffect (.iht8Add tx bd) bd 8
      (InverseRun 8 (fun v => v) (fun v => (v + 16) / 32)
        (if tx = .adstDct ∨ tx = .adstAdst then iadst8 else idct8)
        (if tx = .dctAdst ∨ tx = .adstAdst then iadst8 else idct8) (widths bd))

/-- IHT16.ADD (46 R227): final shift 6. -/
def Obligations.Iht16AddCommand : Prop :=
  ∀ (tx : TxType) (bd : BitDepth),
    InverseEffect (.iht16Add tx bd) bd 16
      (InverseRun 16 (fun v => v) (fun v => (v + 32) / 64)
        (if tx = .adstDct ∨ tx = .adstAdst then iadst16 else idct16)
        (if tx = .dctAdst ∨ tx = .adstAdst then iadst16 else idct16) (widths bd))

/-- IHT32.ADD (46 R228): final shift 6. -/
def Obligations.Iht32AddCommand : Prop :=
  ∀ bd : BitDepth,
    InverseEffect (.iht32Add bd) bd 32
      (InverseRun 32 (fun v => v) (fun v => (v + 32) / 64) idct32 idct32 (widths bd))

/-- IWHT4X4.ADD (46 R230): the coefficients shifted right by 2 first, no final shift. The first shift makes the checks of R220
pass on every block of coefficients, so that the command completes with no RANGE on every admitted descriptor. -/
def Obligations.Iwht4x4AddCommand : Prop :=
  ∀ (bd : BitDepth) (s : State), Admitted (.iwht4x4Add bd) s →
    ∃ T res, InverseRun 4 (fun v => v / 4) (fun v => v) iwht4 iwht4 (widths bd)
        (fun r c => coefAt bd s.mem s.latch.src (r * 4 + c)) T res ∧
      ∃ t, exec (.iwht4x4Add bd) s = .next t ∧ CleanNext (.iwht4x4Add bd) s t ∧
        ∀ r, r < 4 → ∀ c, c < 4 →
          pixAt bd t.mem s.latch r c = clamp (pixAt bd s.mem s.latch r c + res r c) 0 (maxPix bd)

/-- The forward DC-only commands (48 R262, R271 to R274): the block's sum times 2, times 1, halved, divided by 8 (rounding down). -/
def Obligations.ForwardDcCommands : Prop :=
  ∀ bd : BitDepth,
    ForwardDcEffect (.fdc4 bd) bd 4 (fun v => v * 2) ∧ ForwardDcEffect (.fdc8 bd) bd 8 (fun v => v) ∧
    ForwardDcEffect (.fdc16 bd) bd 16 (fun v => v / 2) ∧ ForwardDcEffect (.fdc32 bd) bd 32 (fun v => v / 8)

/-- The inverse DC-only commands (48 R263, R275 to R278): they complete with no RANGE on every admitted descriptor. -/
def Obligations.InverseDcCommands : Prop :=
  ∀ bd : BitDepth,
    InverseDcEffect (.idc4Add bd) bd 4 4 ∧ InverseDcEffect (.idc8Add bd) bd 8 5 ∧
    InverseDcEffect (.idc16Add bd) bd 16 6 ∧ InverseDcEffect (.idc32Add bd) bd 32 6

/-- Every pixel that a command stores without RANGE lies in 0 .. 2^BD - 1, whatever the destination held (46 R224, 20 R65). -/
def Obligations.StoredPixelsInRange : Prop :=
  ∀ (i : Instr) (s : State), (shapeOf i).readsDst = true → Admitted i s →
    ∃ t, exec i s = .next t ∧ (RangeNext i s t ∨ (CleanNext i s t ∧
      ∀ r, r < (shapeOf i).n → ∀ c, c < (shapeOf i).n →
        0 ≤ pixAt (shapeOf i).bd t.mem s.latch r c ∧
        pixAt (shapeOf i).bd t.mem s.latch r c ≤ maxPix (shapeOf i).bd))

/-! ## Headlines -/

/-- The invariant holds of the state after reset. -/
def Obligations.InvariantAtReset : Prop := MachineInv State.reset

/-- Every step, of the engine or of the host, keeps the invariant. -/
def Obligations.InvariantKeptByStep : Prop := ∀ s t : State, MachineInv s → step s = .next t → MachineInv t

/-- IDCn.ADD is IHTn.ADD DCT_DCT on a coefficient block that is zero but for position 0: the two commands give the same next
state (46 R231 b, 48 R263). -/
def Obligations.DcOnlyInverseIsFullInverse : Prop :=
  ∀ (bd : BitDepth) (s : State),
    (Admitted (.iht4Add .dctDct bd) s → (∀ k, 0 < k → k < 16 → coefAt bd s.mem s.latch.src k = 0) →
      exec (.iht4Add .dctDct bd) s = exec (.idc4Add bd) s) ∧
    (Admitted (.iht8Add .dctDct bd) s → (∀ k, 0 < k → k < 64 → coefAt bd s.mem s.latch.src k = 0) →
      exec (.iht8Add .dctDct bd) s = exec (.idc8Add bd) s) ∧
    (Admitted (.iht16Add .dctDct bd) s → (∀ k, 0 < k → k < 256 → coefAt bd s.mem s.latch.src k = 0) →
      exec (.iht16Add .dctDct bd) s = exec (.idc16Add bd) s) ∧
    (Admitted (.iht32Add bd) s → (∀ k, 0 < k → k < 1024 → coefAt bd s.mem s.latch.src k = 0) →
      exec (.iht32Add bd) s = exec (.idc32Add bd) s)

/-- The WHT round trip is exact (45 R210, 46 R230, R231 c): IWHT4X4.ADD on what FWHT4X4 stored without RANGE adds to each pixel
the residual sample that FWHT4X4 read, with the clamp, and raises no RANGE. -/
def Obligations.WhtRoundTripIsExact : Prop :=
  ∀ (bd : BitDepth) (s t u : State), Admitted (.fwht4x4 bd) s → exec (.fwht4x4 bd) s = .next t →
    t.faultSet .range = false → u.mem = t.mem → u.latch.src = s.latch.dst → Admitted (.iwht4x4Add bd) u →
    ∃ v, exec (.iwht4x4Add bd) u = .next v ∧ CleanNext (.iwht4x4Add bd) u v ∧
      ∀ r, r < 4 → ∀ c, c < 4 →
        pixAt bd v.mem u.latch r c = clamp (pixAt bd u.mem u.latch r c + resAt s r c) 0 (maxPix bd)

/-- A forward command that raises no RANGE at BD = 8 raises none at BD = 10 or 12 on the same input and stores the same integers
(47 R242 a, 45 R211 d). -/
def Obligations.ForwardSameAtEveryDepth : Prop :=
  ∀ (tx : TxType) (bd : BitDepth),
    ∀ k ∈ [((fun b => Instr.fht4 tx b), 16), (fun b => Instr.fht8 tx b, 64), (fun b => Instr.fht16 tx b, 256),
        (Instr.fht32, 1024), (Instr.fwht4x4, 16), (Instr.fdc4, 1), (Instr.fdc8, 1), (Instr.fdc16, 1),
        (Instr.fdc32, 1)],
      ∀ s t : State, Admitted (k.1 .b8) s → Admitted (k.1 bd) s →
        exec (k.1 .b8) s = .next t → t.faultSet .range = false →
        ∃ u, exec (k.1 bd) s = .next u ∧ CleanNext (k.1 bd) s u ∧
          ∀ j, j < k.2 → coefAt bd u.mem s.latch.dst j = coefAt .b8 t.mem s.latch.dst j

/-- Range safety on legal residual blocks, proved where the rules allow it by bounds alone: FHT4 of every type, FWHT4X4 and every
FDCn complete with no RANGE at every depth (47 R245, R246 a). -/
def Obligations.LegalBlocksRaiseNoRange : Prop :=
  ∀ (tx : TxType) (bd : BitDepth) (s : State),
    ∀ k ∈ [(Instr.fht4 tx bd, 4), (Instr.fwht4x4 bd, 4), (Instr.fdc4 bd, 4), (Instr.fdc8 bd, 8),
        (Instr.fdc16 bd, 16), (Instr.fdc32 bd, 32)],
      Admitted k.1 s → legalResidual bd k.2 s → ∃ t, exec k.1 s = .next t ∧ CleanNext k.1 s t

/-- A command's outcome is a function of its descriptor and of the bytes of its read footprint alone: two states that agree on
these both raise RANGE or both store the same bytes (10 R31, 45 R211 a, 60 R283). -/
def Obligations.OutcomeDependsOnInputsOnly : Prop :=
  ∀ (i : Instr) (s s' : State), Admitted i s → Admitted i s' → s'.latch = s.latch →
    (∀ a ∈ elemBytes ((shapeOf i).readElems s.latch), s'.mem.read a = s.mem.read a) →
    ∃ t t', exec i s = .next t ∧ exec i s' = .next t' ∧
      ((CleanNext i s t ∧ CleanNext i s' t' ∧
          ∀ a ∈ writtenBytes i s.latch, t'.mem.read a = t.mem.read a) ∨
        (RangeNext i s t ∧ RangeNext i s' t'))
end

