-- ==== Sys2Proof/Laws/Arith.lean ====
section
/-! SUPPORT. The laws of the arithmetic: the class checks, the conversions between integers and patterns, checked vectors. -/

namespace Sys2Proof.Machine

theorem fitsS_iff {v : Int} {n : Nat} : fitsS v n = true ↔ -2 ^ (n - 1) ≤ v ∧ v ≤ 2 ^ (n - 1) - 1 := by
  simp [fitsS]

/-- A check that passes does not change the value (40 R126). -/
theorem low_eq_some {B : Widths} {v w : Int} : low B v = some w ↔ fitsS v B.ew = true ∧ v = w := by
  unfold low
  split <;> simp_all

theorem low_eq_none {B : Widths} {v : Int} : low B v = none ↔ fitsS v B.ew = false := by
  unfold low
  split <;> simp_all

theorem acc_eq_some {B : Widths} {v w : Int} : acc B v = some w ↔ fitsS v B.aw = true ∧ v = w := by
  unfold acc
  split <;> simp_all

theorem acc_eq_none {B : Widths} {v : Int} : acc B v = none ↔ fitsS v B.aw = false := by
  unfold acc
  split <;> simp_all

theorem asr_eq (v : Int) (n : Nat) : asr v n = v / 2 ^ n := rfl

/-- What `rs` answers (40 R124). -/
theorem rs_eq_some {B : Widths} {v w : Int} :
    rs B v = some w ↔ fitsS v B.aw = true ∧ fitsS (v + 8192) B.aw = true ∧ w = (v + 8192) / 16384 := by
  unfold rs
  constructor
  · intro h
    split at h
    · cases h
    · next a ha =>
      split at h
      · cases h
      · next b hb =>
        obtain ⟨ha1, rfl⟩ := acc_eq_some.1 ha
        obtain ⟨hb1, rfl⟩ := acc_eq_some.1 hb
        injection h with h
        refine ⟨ha1, hb1, ?_⟩
        rw [← h, asr_eq]
        norm_num
  · rintro ⟨h1, h2, rfl⟩
    rw [acc_eq_some.2 ⟨h1, rfl⟩]
    simp only
    rw [acc_eq_some.2 ⟨h2, rfl⟩]
    simp only [asr_eq]
    norm_num

/-- The result of a round-shift fits the accumulator, so the register write that takes it passes its check. -/
theorem acc_of_rs {B : Widths} {v w : Int} (h : rs B v = some w) : acc B w = some w := by
  obtain ⟨h1, h2, rfl⟩ := rs_eq_some.1 h
  refine acc_eq_some.2 ⟨?_, rfl⟩
  rw [fitsS_iff] at *
  have hp : (1 : Int) ≤ 2 ^ (B.aw - 1) := one_le_pow₀ (by norm_num)
  generalize (2 : Int) ^ (B.aw - 1) = p at *
  omega

theorem rsLow_eq_some {B : Widths} {v w : Int} :
    rsLow B v = some w ↔ rs B v = some w ∧ fitsS w B.ew = true := by
  unfold rsLow
  cases h : rs B v with
  | none => simp
  | some r =>
    simp only [low_eq_some, Option.some.injEq]
    constructor
    · rintro ⟨h1, rfl⟩
      exact ⟨rfl, h1⟩
    · rintro ⟨rfl, h1⟩
      exact ⟨h1, rfl⟩

/-- A signed pattern reads as a number that fits (00 R6). -/
theorem fitsS_sext {n u : Nat} (hn : 0 < n) (hu : u < 2 ^ n) : fitsS (sext n u) n = true := by
  rw [fitsS_iff, sext]
  have h2 : (2 : Nat) ^ n = 2 * 2 ^ (n - 1) := by
    rw [← pow_succ']
    congr 1
    omega
  have h2' : (2 : Int) ^ n = 2 * 2 ^ (n - 1) := by exact_mod_cast h2
  have h3 : ((2 ^ (n - 1) : Nat) : Int) = 2 ^ (n - 1) := by push_cast; rfl
  rw [h2'] at *
  generalize (2 : Nat) ^ (n - 1) = p at *
  generalize (2 : Int) ^ (n - 1) = q at *
  split <;> omega

/-- The pattern of a number that fits, read back (00 R6). -/
theorem sext_encS {n : Nat} {v : Int} (hn : 0 < n) (h : fitsS v n = true) : sext n (encS v n) = v := by
  rw [fitsS_iff] at h
  have h2 : (2 : Nat) ^ n = 2 * 2 ^ (n - 1) := by
    rw [← pow_succ']
    congr 1
    omega
  have h2' : (2 : Int) ^ n = 2 * 2 ^ (n - 1) := by exact_mod_cast h2
  have h3 : ((2 ^ (n - 1) : Nat) : Int) = 2 ^ (n - 1) := by push_cast; rfl
  have hp : (1 : Int) ≤ 2 ^ (n - 1) := one_le_pow₀ (by norm_num)
  unfold sext encS
  rw [h2']
  generalize (2 : Nat) ^ (n - 1) = p at *
  generalize (2 : Int) ^ (n - 1) = q at *
  rcases lt_or_ge v 0 with hv | hv
  · have hm : v % (2 * q) = v + 2 * q := by
      rw [← Int.add_emod_right, Int.emod_eq_of_lt (by omega) (by omega)]
    rw [hm]
    split <;> omega
  · have hm : v % (2 * q) = v := Int.emod_eq_of_lt (by omega) (by omega)
    rw [hm]
    split <;> omega

theorem encS_lt (v : Int) (n : Nat) : encS v n < 2 ^ n := by
  unfold encS
  have hp : (0 : Int) < 2 ^ n := by positivity
  have h1 := Int.emod_nonneg v (ne_of_gt hp)
  have h2 := Int.emod_lt_of_pos v hp
  have h3 : ((2 ^ n : Nat) : Int) = 2 ^ n := by push_cast; rfl
  omega

/-- The pattern of a number that is not negative and fits the container is the number (20 R65 PIX). -/
theorem encS_nonneg {v : Int} {n : Nat} (h0 : 0 ≤ v) (h : v < 2 ^ n) : (encS v n : Int) = v := by
  unfold encS
  rw [Int.emod_eq_of_lt h0 h]
  omega

theorem clamp_bounds (v : Int) {hi : Int} (h : 0 ≤ hi) : 0 ≤ clamp v 0 hi ∧ clamp v 0 hi ≤ hi := by
  unfold clamp
  split
  · omega
  · split <;> omega

@[simp] theorem mapSome_nil {α β : Type} (f : α → Option β) : mapSome f [] = some [] := rfl

@[simp] theorem mapSome_cons {α β : Type} (f : α → Option β) (a : α) (as : List α) :
    mapSome f (a :: as) = (f a).bind fun b => (mapSome f as).bind fun bs => some (b :: bs) := by
  simp only [mapSome]
  cases f a <;> cases mapSome f as <;> rfl

/-- `mapSome` answers when the check passes everywhere, with the checked values. -/
theorem mapSome_eq_some {α β : Type} {f : α → Option β} {as : List α} {bs : List β} :
    mapSome f as = some bs ↔ List.Forall₂ (fun a b => f a = some b) as bs := by
  induction as generalizing bs with
  | nil =>
    simp only [mapSome_nil, Option.some.injEq, List.forall₂_nil_left_iff]
    exact eq_comm
  | cons a as ih =>
    simp only [mapSome_cons, List.forall₂_cons_left_iff]
    constructor
    · intro h
      cases ha : f a with
      | none => simp [ha] at h
      | some b =>
        cases has : mapSome f as with
        | none => simp [ha, has] at h
        | some cs =>
          simp only [ha, has, Option.bind_some, Option.some.injEq] at h
          exact ⟨b, cs, rfl, ih.1 has, h.symm⟩
    · rintro ⟨b, cs, h1, h2, rfl⟩
      simp [h1, ih.2 h2]

theorem length_of_mapSome {α β : Type} {f : α → Option β} {as : List α} {bs : List β}
    (h : mapSome f as = some bs) : bs.length = as.length :=
  (mapSome_eq_some.1 h).length_eq.symm

/-- `allSome` is `mapSome` of nothing. -/
theorem allSome_eq_mapSome (xs : List (Option Int)) : allSome xs = mapSome id xs := by
  induction xs with
  | nil => rfl
  | cons x xs ih =>
    simp only [allSome, mapSome_cons, id, ih]
    cases x <;> cases mapSome id xs <;> rfl

theorem ix_eq_getElem {v : List Int} {k : Nat} (h : k < v.length) : ix v k = v[k] := by
  simp [ix, List.getD, h]

/-- The checked vector over a range: each entry's check passed. -/
theorem mapSome_range {n : Nat} {f : Nat → Option Int} {bs : List Int} :
    mapSome f (List.range n) = some bs ↔ bs.length = n ∧ ∀ j, j < n → f j = some (ix bs j) := by
  rw [mapSome_eq_some, List.forall₂_iff_get]
  simp only [List.length_range, List.get_eq_getElem, List.getElem_range]
  constructor
  · rintro ⟨h1, h2⟩
    refine ⟨h1.symm, fun j hj => ?_⟩
    rw [ix_eq_getElem (by omega)]
    exact h2 j hj (by omega)
  · rintro ⟨h1, h2⟩
    refine ⟨h1.symm, fun j hj hj' => ?_⟩
    have := h2 j hj
    rwa [ix_eq_getElem hj'] at this

theorem allSome_span {a n : Nat} {f : Nat → Option Int} {bs : List Int} :
    allSome (span a n f) = some bs ↔ bs.length = n ∧ ∀ j, j < n → f (a + j) = some (ix bs j) := by
  rw [allSome_eq_mapSome, ← mapSome_range (f := fun j => f (a + j))]
  have h : ∀ l : List Nat, mapSome id (l.map fun k => f (a + k)) = mapSome (fun j => f (a + j)) l := by
    intro l
    induction l with
    | nil => rfl
    | cons x l ih => simp only [List.map_cons, mapSome_cons, id, ih]
  rw [span, h]

end Sys2Proof.Machine
end

