-- ==== Sys2Proof/Laws/State.lean ====
section
/-! SUPPORT. One lemma for each field and each update of the state, all true by `rfl`; later proofs unfold no update. -/

namespace Sys2Proof.Machine

@[simp] theorem raise_plat (f : FaultBit) (s : State) : (raise f s).plat = s.plat := rfl
@[simp] theorem raise_cmd (f : FaultBit) (s : State) : (raise f s).cmd = s.cmd := rfl
@[simp] theorem raise_src (f : FaultBit) (s : State) : (raise f s).src = s.src := rfl
@[simp] theorem raise_dst (f : FaultBit) (s : State) : (raise f s).dst = s.dst := rfl
@[simp] theorem raise_stride (f : FaultBit) (s : State) : (raise f s).stride = s.stride := rfl
@[simp] theorem raise_status (f : FaultBit) (s : State) : (raise f s).status = updateStatus s.status 0 (bitWord f.code) := rfl
@[simp] theorem raise_latch (f : FaultBit) (s : State) : (raise f s).latch = s.latch := rfl
@[simp] theorem raise_mem (f : FaultBit) (s : State) : (raise f s).mem = s.mem := rfl
@[simp] theorem raise_host (f : FaultBit) (s : State) : (raise f s).host = s.host := rfl
@[simp] theorem raise_hostData (f : FaultBit) (s : State) : (raise f s).hostData = s.hostData := rfl
@[simp] theorem raise_raced (f : FaultBit) (s : State) : (raise f s).raced = s.raced := rfl
@[simp] theorem raise_free (f : FaultBit) (s : State) : (raise f s).free = s.free := rfl

@[simp] theorem clearStatus_plat (m : Word) (s : State) : (clearStatus m s).plat = s.plat := rfl
@[simp] theorem clearStatus_cmd (m : Word) (s : State) : (clearStatus m s).cmd = s.cmd := rfl
@[simp] theorem clearStatus_src (m : Word) (s : State) : (clearStatus m s).src = s.src := rfl
@[simp] theorem clearStatus_dst (m : Word) (s : State) : (clearStatus m s).dst = s.dst := rfl
@[simp] theorem clearStatus_stride (m : Word) (s : State) : (clearStatus m s).stride = s.stride := rfl
@[simp] theorem clearStatus_status (m : Word) (s : State) : (clearStatus m s).status = updateStatus s.status (m &&& clearable) 0 := rfl
@[simp] theorem clearStatus_latch (m : Word) (s : State) : (clearStatus m s).latch = s.latch := rfl
@[simp] theorem clearStatus_mem (m : Word) (s : State) : (clearStatus m s).mem = s.mem := rfl
@[simp] theorem clearStatus_host (m : Word) (s : State) : (clearStatus m s).host = s.host := rfl
@[simp] theorem clearStatus_hostData (m : Word) (s : State) : (clearStatus m s).hostData = s.hostData := rfl
@[simp] theorem clearStatus_raced (m : Word) (s : State) : (clearStatus m s).raced = s.raced := rfl
@[simp] theorem clearStatus_free (m : Word) (s : State) : (clearStatus m s).free = s.free := rfl

@[simp] theorem start_plat (w : Word) (s : State) : (start w s).plat = s.plat := rfl
@[simp] theorem start_cmd (w : Word) (s : State) : (start w s).cmd = w := rfl
@[simp] theorem start_src (w : Word) (s : State) : (start w s).src = s.src := rfl
@[simp] theorem start_dst (w : Word) (s : State) : (start w s).dst = s.dst := rfl
@[simp] theorem start_stride (w : Word) (s : State) : (start w s).stride = s.stride := rfl
@[simp] theorem start_status (w : Word) (s : State) : (start w s).status = updateStatus s.status (bitWord 1) (bitWord 0) := rfl
@[simp] theorem start_latch (w : Word) (s : State) : (start w s).latch = { cmd := w, src := s.src, dst := s.dst, stride := s.stride } := rfl
@[simp] theorem start_mem (w : Word) (s : State) : (start w s).mem = s.mem := rfl
@[simp] theorem start_host (w : Word) (s : State) : (start w s).host = s.host := rfl
@[simp] theorem start_hostData (w : Word) (s : State) : (start w s).hostData = s.hostData := rfl
@[simp] theorem start_raced (w : Word) (s : State) : (start w s).raced = s.raced := rfl
@[simp] theorem start_free (w : Word) (s : State) : (start w s).free = s.free := rfl

@[simp] theorem complete_plat (s : State) : (complete s).plat = s.plat := rfl
@[simp] theorem complete_cmd (s : State) : (complete s).cmd = s.cmd := rfl
@[simp] theorem complete_src (s : State) : (complete s).src = s.src := rfl
@[simp] theorem complete_dst (s : State) : (complete s).dst = s.dst := rfl
@[simp] theorem complete_stride (s : State) : (complete s).stride = s.stride := rfl
@[simp] theorem complete_status (s : State) : (complete s).status = updateStatus s.status (bitWord 0) (bitWord 1) := rfl
@[simp] theorem complete_latch (s : State) : (complete s).latch = s.latch := rfl
@[simp] theorem complete_mem (s : State) : (complete s).mem = s.mem := rfl
@[simp] theorem complete_host (s : State) : (complete s).host = s.host := rfl
@[simp] theorem complete_hostData (s : State) : (complete s).hostData = s.hostData := rfl
@[simp] theorem complete_raced (s : State) : (complete s).raced = [] := rfl
@[simp] theorem complete_free (s : State) : (complete s).free = s.free := rfl

@[simp] theorem refuse_plat (f : FaultBit) (s : State) : (refuse f s).plat = s.plat := rfl
@[simp] theorem refuse_cmd (f : FaultBit) (s : State) : (refuse f s).cmd = s.cmd := rfl
@[simp] theorem refuse_src (f : FaultBit) (s : State) : (refuse f s).src = s.src := rfl
@[simp] theorem refuse_dst (f : FaultBit) (s : State) : (refuse f s).dst = s.dst := rfl
@[simp] theorem refuse_stride (f : FaultBit) (s : State) : (refuse f s).stride = s.stride := rfl
@[simp] theorem refuse_status (f : FaultBit) (s : State) : (refuse f s).status = updateStatus (updateStatus s.status 0 (bitWord f.code)) (bitWord 0) (bitWord 1) := rfl
@[simp] theorem refuse_latch (f : FaultBit) (s : State) : (refuse f s).latch = s.latch := rfl
@[simp] theorem refuse_mem (f : FaultBit) (s : State) : (refuse f s).mem = s.mem := rfl
@[simp] theorem refuse_host (f : FaultBit) (s : State) : (refuse f s).host = s.host := rfl
@[simp] theorem refuse_hostData (f : FaultBit) (s : State) : (refuse f s).hostData = s.hostData := rfl
@[simp] theorem refuse_raced (f : FaultBit) (s : State) : (refuse f s).raced = [] := rfl
@[simp] theorem refuse_free (f : FaultBit) (s : State) : (refuse f s).free = s.free := rfl

@[simp] theorem markRaced_plat (as : List Nat) (s : State) : (markRaced as s).plat = s.plat := rfl
@[simp] theorem markRaced_cmd (as : List Nat) (s : State) : (markRaced as s).cmd = s.cmd := rfl
@[simp] theorem markRaced_src (as : List Nat) (s : State) : (markRaced as s).src = s.src := rfl
@[simp] theorem markRaced_dst (as : List Nat) (s : State) : (markRaced as s).dst = s.dst := rfl
@[simp] theorem markRaced_stride (as : List Nat) (s : State) : (markRaced as s).stride = s.stride := rfl
@[simp] theorem markRaced_status (as : List Nat) (s : State) : (markRaced as s).status = s.status := rfl
@[simp] theorem markRaced_latch (as : List Nat) (s : State) : (markRaced as s).latch = s.latch := rfl
@[simp] theorem markRaced_mem (as : List Nat) (s : State) : (markRaced as s).mem = s.mem := rfl
@[simp] theorem markRaced_host (as : List Nat) (s : State) : (markRaced as s).host = s.host := rfl
@[simp] theorem markRaced_hostData (as : List Nat) (s : State) : (markRaced as s).hostData = s.hostData := rfl
@[simp] theorem markRaced_raced (as : List Nat) (s : State) : (markRaced as s).raced = s.raced ++ as.filter fun a => !s.raced.contains a := rfl
@[simp] theorem markRaced_free (as : List Nat) (s : State) : (markRaced as s).free = s.free := rfl

@[simp] theorem freeBytes_plat (as : List Nat) (s : State) : (freeBytes as s).plat = s.plat := by
  induction as generalizing s with
  | nil => rfl
  | cons a as ih => exact ih _
@[simp] theorem freeBytes_cmd (as : List Nat) (s : State) : (freeBytes as s).cmd = s.cmd := by
  induction as generalizing s with
  | nil => rfl
  | cons a as ih => exact ih _
@[simp] theorem freeBytes_src (as : List Nat) (s : State) : (freeBytes as s).src = s.src := by
  induction as generalizing s with
  | nil => rfl
  | cons a as ih => exact ih _
@[simp] theorem freeBytes_dst (as : List Nat) (s : State) : (freeBytes as s).dst = s.dst := by
  induction as generalizing s with
  | nil => rfl
  | cons a as ih => exact ih _
@[simp] theorem freeBytes_stride (as : List Nat) (s : State) : (freeBytes as s).stride = s.stride := by
  induction as generalizing s with
  | nil => rfl
  | cons a as ih => exact ih _
@[simp] theorem freeBytes_status (as : List Nat) (s : State) : (freeBytes as s).status = s.status := by
  induction as generalizing s with
  | nil => rfl
  | cons a as ih => exact ih _
@[simp] theorem freeBytes_latch (as : List Nat) (s : State) : (freeBytes as s).latch = s.latch := by
  induction as generalizing s with
  | nil => rfl
  | cons a as ih => exact ih _
@[simp] theorem freeBytes_host (as : List Nat) (s : State) : (freeBytes as s).host = s.host := by
  induction as generalizing s with
  | nil => rfl
  | cons a as ih => exact ih _
@[simp] theorem freeBytes_hostData (as : List Nat) (s : State) : (freeBytes as s).hostData = s.hostData := by
  induction as generalizing s with
  | nil => rfl
  | cons a as ih => exact ih _
@[simp] theorem freeBytes_raced (as : List Nat) (s : State) : (freeBytes as s).raced = s.raced := by
  induction as generalizing s with
  | nil => rfl
  | cons a as ih => exact ih _
@[simp] theorem freeBytes_nil (s : State) : freeBytes [] s = s := rfl

@[simp] theorem freeBytes_free (as : List Nat) (s : State) : (freeBytes as s).free = s.free + as.length := by
  induction as generalizing s with
  | nil => rfl
  | cons a as ih =>
    show (freeBytes as _).free = _
    rw [ih]
    simp only [List.length_cons]
    omega

end Sys2Proof.Machine
end

