-- ==== Sys2Proof/Laws/Memory.lean ====
section
/-! SUPPORT. The laws of memory: a read after a write, the bytes a write leaves alone, and the canonical form, which every
operation keeps. -/

namespace Sys2Proof.Machine

@[simp] theorem Memory.read_nil (x : Nat) : Memory.read [] x = Memory.unlisted := rfl

theorem Memory.wfFrom_mono {lo lo' : Nat} {m : Memory} (h : lo ≤ lo') (hm : Memory.wfFrom lo' m = true) :
    Memory.wfFrom lo m = true := by
  cases m with
  | nil => rfl
  | cons c m =>
    obtain ⟨a, b⟩ := c
    simp only [Memory.wfFrom, Bool.and_eq_true, decide_eq_true_eq] at hm ⊢
    exact ⟨⟨by omega, hm.1.2⟩, hm.2⟩

/-- Below its lower bound a memory lists nothing. -/
theorem Memory.read_below {lo x : Nat} {m : Memory} (hm : Memory.wfFrom lo m = true) (hx : x < lo) :
    Memory.read m x = Memory.unlisted := by
  induction m generalizing lo with
  | nil => rfl
  | cons c m ih =>
    obtain ⟨a, b⟩ := c
    simp only [Memory.wfFrom, Bool.and_eq_true, decide_eq_true_eq] at hm
    have hne : a ≠ x := by omega
    simp only [Memory.read, hne, if_false]
    exact ih hm.2 (by omega)

/-- A write leaves every other byte alone. -/
theorem Memory.read_write_ne (m : Memory) {x y : Nat} (v : Byte) (h : y ≠ x) :
    (m.write x v).read y = m.read y := by
  induction m with
  | nil =>
    unfold Memory.write
    split <;> simp [Memory.read, Ne.symm h]
  | cons c m ih =>
    obtain ⟨a, b⟩ := c
    unfold Memory.write
    split
    · split
      · rfl
      · simp [Memory.read, Ne.symm h]
    · split
      · next hxa =>
        subst hxa
        split <;> simp [Memory.read, Ne.symm h]
      · simp only [Memory.read, ih]

theorem Memory.read_write_self_from {lo : Nat} {m : Memory} (hm : Memory.wfFrom lo m = true) (x : Nat) (v : Byte) :
    (m.write x v).read x = v := by
  induction m generalizing lo with
  | nil =>
    unfold Memory.write
    split
    · next h => simp [h]
    · simp [Memory.read]
  | cons c m ih =>
    obtain ⟨a, b⟩ := c
    simp only [Memory.wfFrom, Bool.and_eq_true, decide_eq_true_eq] at hm
    unfold Memory.write
    split
    · next hxa =>
      split
      · next hv =>
        have hne : a ≠ x := by omega
        simp only [Memory.read, hne, if_false]
        rw [Memory.read_below hm.2 (by omega), hv]
      · simp [Memory.read]
    · split
      · next hxa =>
        subst hxa
        split
        · next hv => rw [Memory.read_below hm.2 (by omega), hv]
        · simp [Memory.read]
      · next h1 h2 =>
        have hne : a ≠ x := fun h => h2 h.symm
        simp only [Memory.read, hne, if_false]
        exact ih hm.2

/-- In a canonical memory, a read after a write gives the value written. -/
theorem Memory.read_write_self {m : Memory} (hm : m.wf = true) (x : Nat) (v : Byte) :
    (m.write x v).read x = v := Memory.read_write_self_from hm x v

theorem Memory.wfFrom_write {lo : Nat} {m : Memory} (hm : Memory.wfFrom lo m = true) {x : Nat} (hx : lo ≤ x)
    (v : Byte) : Memory.wfFrom lo (m.write x v) = true := by
  induction m generalizing lo with
  | nil =>
    unfold Memory.write
    split
    · rfl
    · next h => simp [Memory.wfFrom, h, hx]
  | cons c m ih =>
    obtain ⟨a, b⟩ := c
    have hm' := hm
    simp only [Memory.wfFrom, Bool.and_eq_true, decide_eq_true_eq, bne_iff_ne, ne_eq] at hm'
    unfold Memory.write
    split
    · next hxa =>
      split
      · exact hm
      · next hv =>
        simp only [Memory.wfFrom, Bool.and_eq_true, decide_eq_true_eq, bne_iff_ne, ne_eq]
        exact ⟨⟨hx, hv⟩, ⟨by omega, hm'.1.2⟩, hm'.2⟩
    · split
      · next hxa =>
        subst hxa
        split
        · exact Memory.wfFrom_mono (by omega) hm'.2
        · next hv =>
          simp only [Memory.wfFrom, Bool.and_eq_true, decide_eq_true_eq, bne_iff_ne, ne_eq]
          exact ⟨⟨hx, hv⟩, hm'.2⟩
      · next h1 h2 =>
        simp only [Memory.wfFrom, Bool.and_eq_true, decide_eq_true_eq, bne_iff_ne, ne_eq]
        exact ⟨hm'.1, ih hm'.2 (by omega)⟩

/-- A write keeps the canonical form. -/
theorem Memory.wf_write {m : Memory} (hm : m.wf = true) (x : Nat) (v : Byte) : (m.write x v).wf = true :=
  Memory.wfFrom_write hm (Nat.zero_le x) v

/-- A write lists no new address but its own. -/
theorem Memory.mem_write {m : Memory} {x : Nat} {v : Byte} {c : Host.Cell} (h : c ∈ m.write x v) :
    c ∈ m ∨ c = (x, v) := by
  induction m with
  | nil =>
    unfold Memory.write at h
    split at h
    · cases h
    · simp only [List.mem_singleton] at h
      exact .inr h
  | cons d m ih =>
    obtain ⟨a, b⟩ := d
    unfold Memory.write at h
    split at h
    · split at h
      · exact .inl h
      · rcases List.mem_cons.1 h with h | h
        · exact .inr h
        · exact .inl h
    · split at h
      · split at h
        · exact .inl (List.mem_cons_of_mem _ h)
        · rcases List.mem_cons.1 h with h | h
          · exact .inr h
          · exact .inl (List.mem_cons_of_mem _ h)
      · rcases List.mem_cons.1 h with h | h
        · exact .inl (h ▸ List.mem_cons_self ..)
        · rcases ih h with h | h
          · exact .inl (List.mem_cons_of_mem _ h)
          · exact .inr h

/-- A store of `n` bytes leaves every byte outside them alone. -/
theorem Memory.read_writeN_outside (m : Memory) {a n u y : Nat} (h : y < a ∨ a + n ≤ y) :
    (m.writeN a n u).read y = m.read y := by
  induction n generalizing m a u with
  | zero => rfl
  | succ n ih =>
    rw [Memory.writeN, ih _ (by omega), Memory.read_write_ne _ _ (by omega)]

/-- A store keeps the canonical form. -/
theorem Memory.wf_writeN {m : Memory} (hm : m.wf = true) (a n u : Nat) : (m.writeN a n u).wf = true := by
  induction n generalizing m a u with
  | zero => exact hm
  | succ n ih => exact ih (Memory.wf_write hm _ _) _ _

/-- Byte `i` of a store (20 R63). -/
theorem Memory.read_writeN_inside {m : Memory} (hm : m.wf = true) (a n u : Nat) {i : Nat} (hi : i < n) :
    (m.writeN a n u).read (a + i) = BitVec.ofNat 8 (u / 256 ^ i) := by
  induction n generalizing m a u i with
  | zero => omega
  | succ n ih =>
    rw [Memory.writeN]
    cases i with
    | zero =>
      rw [Memory.read_writeN_outside _ (by omega), Nat.add_zero, Memory.read_write_self hm]
      simp
    | succ i =>
      have h := ih (Memory.wf_write hm a (BitVec.ofNat 8 u)) (a + 1) (u / 256) (i := i) (by omega)
      rw [show a + (i + 1) = a + 1 + i by omega, h, Nat.div_div_eq_div_mul, Nat.pow_succ,
        Nat.mul_comm 256]

/-- What a load of `n` bytes returns depends only on those bytes. -/
theorem Memory.readN_congr {m m' : Memory} {a n : Nat} (h : ∀ i, i < n → m.read (a + i) = m'.read (a + i)) :
    m.readN a n = m'.readN a n := by
  induction n generalizing a with
  | zero => rfl
  | succ n ih =>
    rw [Memory.readN, Memory.readN]
    have h0 := h 0 (by omega)
    rw [Nat.add_zero] at h0
    rw [h0, ih fun i hi => ?_]
    have hs := h (i + 1) (by omega)
    rwa [show a + (i + 1) = a + 1 + i by omega] at hs

/-- The number loaded fits the bytes (20 R62). -/
theorem Memory.readN_lt (m : Memory) (a n : Nat) : m.readN a n < 256 ^ n := by
  induction n generalizing a with
  | zero => simp [Memory.readN]
  | succ n ih =>
    rw [Memory.readN, Nat.pow_succ]
    have h1 := (m.read a).isLt
    have h2 := ih (a + 1)
    omega

theorem Memory.readN_of_bytes {m : Memory} {a n u : Nat} (hu : u < 256 ^ n)
    (h : ∀ i, i < n → m.read (a + i) = BitVec.ofNat 8 (u / 256 ^ i)) : m.readN a n = u := by
  induction n generalizing a u with
  | zero =>
    rw [Nat.pow_zero] at hu
    simp only [Memory.readN]
    omega
  | succ n ih =>
    rw [Memory.readN]
    have h0 := h 0 (by omega)
    simp only [Nat.add_zero, Nat.pow_zero, Nat.div_one] at h0
    have hrest : m.readN (a + 1) n = u / 256 := by
      refine ih (by rw [Nat.pow_succ] at hu; omega) fun i hi => ?_
      have hs := h (i + 1) (by omega)
      rw [show a + (i + 1) = a + 1 + i by omega] at hs
      rw [hs, Nat.div_div_eq_div_mul, Nat.pow_succ, Nat.mul_comm 256]
    rw [h0, hrest, BitVec.toNat_ofNat]
    omega

/-- A load after a store of the same bytes gives the number stored (20 R62, R63). -/
theorem Memory.readN_writeN_self {m : Memory} (hm : m.wf = true) {a n u : Nat} (hu : u < 256 ^ n) :
    (m.writeN a n u).readN a n = u :=
  Memory.readN_of_bytes hu fun _ hi => Memory.read_writeN_inside hm a n u hi

/-- A load after a store of disjoint bytes gives what it gave before. -/
theorem Memory.readN_writeN_disjoint (m : Memory) {a n u b k : Nat} (h : b + k ≤ a ∨ a + n ≤ b) :
    (m.writeN a n u).readN b k = m.readN b k :=
  Memory.readN_congr fun _ hi => Memory.read_writeN_outside m (by omega)

/-- Two canonical memories that read alike are equal data. -/
theorem Memory.ext_of_wfFrom {lo : Nat} {m m' : Memory} (hm : Memory.wfFrom lo m = true)
    (hm' : Memory.wfFrom lo m' = true) (h : ∀ x, m.read x = m'.read x) : m = m' := by
  induction m generalizing lo m' with
  | nil =>
    cases m' with
    | nil => rfl
    | cons c m' =>
      obtain ⟨a, b⟩ := c
      simp only [Memory.wfFrom, Bool.and_eq_true, bne_iff_ne, ne_eq] at hm'
      have := h a
      simp only [Memory.read, if_true] at this
      exact absurd this.symm hm'.1.2
  | cons c m ih =>
    obtain ⟨a, b⟩ := c
    simp only [Memory.wfFrom, Bool.and_eq_true, decide_eq_true_eq, bne_iff_ne, ne_eq] at hm
    cases m' with
    | nil =>
      have := h a
      simp only [Memory.read, if_true] at this
      exact absurd this hm.1.2
    | cons c' m' =>
      obtain ⟨a', b'⟩ := c'
      simp only [Memory.wfFrom, Bool.and_eq_true, decide_eq_true_eq, bne_iff_ne, ne_eq] at hm'
      have haa : a = a' := by
        rcases Nat.lt_trichotomy a a' with hlt | heq | hgt
        · have := h a
          simp only [Memory.read, if_true, show a' ≠ a by omega, if_false] at this
          rw [Memory.read_below hm'.2 (by omega)] at this
          exact absurd this hm.1.2
        · exact heq
        · have := h a'
          simp only [Memory.read, if_true, show a ≠ a' by omega, if_false] at this
          rw [Memory.read_below hm.2 (by omega)] at this
          exact absurd this.symm hm'.1.2
      subst haa
      have hbb : b = b' := by
        have := h a
        simpa only [Memory.read, if_true] using this
      subst hbb
      rw [ih hm.2 hm'.2 fun x => ?_]
      by_cases hx : x = a
      · subst hx
        rw [Memory.read_below hm.2 (by omega), Memory.read_below hm'.2 (by omega)]
      · have := h x
        simpa only [Memory.read, Ne.symm hx, if_false] using this

theorem mem_byteRange {a n x : Nat} : x ∈ byteRange a n ↔ a ≤ x ∧ x < a + n := by
  simp only [byteRange, List.mem_map, List.mem_range]
  constructor
  · rintro ⟨k, hk, rfl⟩
    omega
  · rintro ⟨h1, h2⟩
    exact ⟨x - a, by omega, by omega⟩

theorem mem_elemBytes {es : List Elem} {x : Nat} :
    x ∈ elemBytes es ↔ ∃ e ∈ es, e.addr ≤ x ∧ x < e.addr + e.size := by
  simp only [elemBytes, List.mem_flatMap, mem_byteRange]

/-- A command's stores leave every byte outside its elements alone (20 R74 d). -/
theorem storeElems_outside {es : List Elem} {vs : List Int} {m : Memory} {x : Nat} (h : x ∉ elemBytes es) :
    (storeElems es vs m).read x = m.read x := by
  induction es generalizing vs m with
  | nil => simp [storeElems]
  | cons e es ih =>
    cases vs with
    | nil => rfl
    | cons v vs =>
      simp only [mem_elemBytes, List.mem_cons, not_exists, not_and] at h
      rw [storeElems, ih, Memory.read_writeN_outside]
      · have := h e (.inl rfl)
        omega
      · simp only [mem_elemBytes, not_exists, not_and]
        exact fun e' he' => h e' (.inr he')

/-- A command's stores keep the canonical form. -/
theorem wf_storeElems {es : List Elem} {vs : List Int} {m : Memory} (hm : m.wf = true) :
    (storeElems es vs m).wf = true := by
  induction es generalizing vs m with
  | nil => simpa [storeElems] using hm
  | cons e es ih =>
    cases vs with
    | nil => exact hm
    | cons v vs => exact ih (Memory.wf_writeN hm _ _ _)

/-- Free bytes keep the canonical form. -/
theorem wf_freeBytes {as : List Nat} {s : State} (hm : s.mem.wf = true) : (freeBytes as s).mem.wf = true := by
  induction as generalizing s with
  | nil => exact hm
  | cons a as ih => exact ih (Memory.wf_write hm _ _)

/-- Free bytes leave every other byte alone. -/
theorem freeBytes_outside {as : List Nat} {s : State} {x : Nat} (h : x ∉ as) :
    (freeBytes as s).mem.read x = s.mem.read x := by
  induction as generalizing s with
  | nil => rfl
  | cons a as ih =>
    simp only [List.mem_cons, not_or] at h
    rw [freeBytes, ih h.2]
    exact Memory.read_write_ne _ _ h.1

/-- Each of the bytes holds a free value drawn in that run. -/
theorem freeBytes_inside {as : List Nat} {s : State} (hm : s.mem.wf = true) {x : Nat} (h : x ∈ as) :
    ∃ k, s.free ≤ k ∧ k < (freeBytes as s).free ∧ (freeBytes as s).mem.read x = Config.freeByte k := by
  induction as generalizing s with
  | nil => cases h
  | cons a as ih =>
    by_cases hx : x ∈ as
    · obtain ⟨k, h1, h2, h3⟩ := ih (s := { s with
        mem := s.mem.write a (Config.freeByte s.free), free := s.free + 1 }) (Memory.wf_write hm _ _) hx
      exact ⟨k, Nat.le_of_succ_le h1, h2, h3⟩
    · rcases List.mem_cons.1 h with rfl | h
      · refine ⟨s.free, Nat.le_refl _, ?_, ?_⟩
        · rw [freeBytes_free, List.length_cons]
          omega
        · rw [freeBytes, freeBytes_outside hx]
          exact Memory.read_write_self hm _ _
      · exact absurd h hx

/-- The memory of `State.reset` is canonical. -/
theorem reset_mem_wf : State.reset.mem.wf = true := rfl

end Sys2Proof.Machine
end

