-- ==== Sys2Proof/Laws/Blocks.lean ====
section
/-! SUPPORT. The laws of blocks in memory: which element has which number, what STORE leaves in each element, what LOAD puts in IB
and PB (spec 20 R65, R66, R72). -/

namespace Sys2Proof.Machine

/-- A block read row by row is numbered `r * n + c`. -/
theorem flatMap_range_map {α : Type} (m n : Nat) (f : Nat → Nat → α) :
    ((List.range m).flatMap fun r => (List.range n).map fun c => f r c) =
      (List.range (m * n)).map fun k => f (k / n) (k % n) := by
  induction m with
  | zero => simp
  | succ m ih =>
    rw [List.range_succ, List.flatMap_append, ih, Nat.succ_mul, List.range_add, List.map_append]
    congr 1
    simp only [List.flatMap_cons, List.flatMap_nil, List.append_nil, List.map_map]
    apply List.map_congr_left
    intro c hc
    have hc := List.mem_range.1 hc
    have hn : 0 < n := by omega
    have h1 : (m * n + c) / n = m := by
      rw [Nat.mul_comm, Nat.mul_add_div hn, Nat.div_eq_of_lt hc, Nat.add_zero]
    have h2 : (m * n + c) % n = c := by rw [Nat.mul_comm, Nat.mul_add_mod, Nat.mod_eq_of_lt hc]
    simp [h1, h2]

theorem index_lt {n r c : Nat} (hr : r < n) (hc : c < n) : r * n + c < n * n := by nlinarith

theorem index_div {n r c : Nat} (hc : c < n) : (r * n + c) / n = r := by
  rw [Nat.mul_comm, Nat.mul_add_div (by omega), Nat.div_eq_of_lt hc, Nat.add_zero]

theorem index_mod {n r c : Nat} (hc : c < n) : (r * n + c) % n = c := by
  rw [Nat.mul_comm, Nat.mul_add_mod, Nat.mod_eq_of_lt hc]

/-- Two elements share no byte. -/
def Elem.apart (e e' : Elem) : Prop := e.addr + e.size ≤ e'.addr ∨ e'.addr + e'.size ≤ e.addr

theorem vectorElems_apart (base size n : Nat) : (vectorElems base size n).Pairwise Elem.apart := by
  rw [vectorElems, List.pairwise_map]
  refine List.Pairwise.imp ?_ (List.pairwise_lt_range (n := n))
  intro i j hij
  have : size * (i + 1) ≤ size * j := Nat.mul_le_mul_left _ hij
  left
  simp only
  rw [Nat.mul_succ] at this
  omega

theorem blockElems_apart {base pitch size n : Nat} (h : n ≤ pitch) :
    (blockElems base pitch size n).Pairwise Elem.apart := by
  rw [blockElems, flatMap_range_map, List.pairwise_map]
  refine List.Pairwise.imp_of_mem ?_ (List.pairwise_lt_range (n := n * n))
  intro i j hi hj hij
  have hi := List.mem_range.1 hi
  have hn : 0 < n := by
    rcases Nat.eq_zero_or_pos n with rfl | h0
    · simp at hi
    · exact h0
  have hci := Nat.mod_lt i hn
  have hcj := Nat.mod_lt j hn
  have hlt : i / n * pitch + i % n + 1 ≤ j / n * pitch + j % n := by
    have ei := Nat.div_add_mod i n
    have ej := Nat.div_add_mod j n
    rcases Nat.lt_or_ge (i / n) (j / n) with hr | hr
    · have : (i / n + 1) * pitch ≤ j / n * pitch := Nat.mul_le_mul_right _ hr
      rw [Nat.succ_mul] at this
      omega
    · have hle : i / n ≤ j / n := Nat.div_le_div_right (Nat.le_of_lt hij)
      have heq : i / n = j / n := Nat.le_antisymm hle hr
      rw [heq] at ei ⊢
      omega
  have := Nat.mul_le_mul_left size hlt
  left
  simp only
  rw [Nat.mul_succ] at this
  omega

theorem two_pow_eight_mul (n : Nat) : 2 ^ (8 * n) = 256 ^ n := by rw [Nat.pow_mul]

/-- After STORE, each element holds its pattern (20 R72: each is written once). -/
theorem readN_storeElems {es : List Elem} {vs : List Int} {m : Memory} (hm : m.wf = true)
    (hp : es.Pairwise Elem.apart) {k : Nat} (hk : k < es.length) (hv : k < vs.length) :
    (storeElems es vs m).readN es[k].addr es[k].size = encS vs[k] (8 * es[k].size) := by
  induction es generalizing vs m k with
  | nil => simp at hk
  | cons e es ih =>
    cases vs with
    | nil => simp at hv
    | cons v vs =>
      rw [List.pairwise_cons] at hp
      rw [storeElems]
      cases k with
      | zero =>
        simp only [List.getElem_cons_zero]
        have h1 : (storeElems es vs (m.writeN e.addr e.size (encS v (8 * e.size)))).readN e.addr e.size =
            (m.writeN e.addr e.size (encS v (8 * e.size))).readN e.addr e.size := by
          refine Memory.readN_congr fun i hi => storeElems_outside ?_
          rw [mem_elemBytes]
          rintro ⟨e', he', h2, h3⟩
          have := hp.1 e' he'
          unfold Elem.apart at this
          omega
        rw [h1]
        refine Memory.readN_writeN_self hm ?_
        rw [← two_pow_eight_mul]
        exact encS_lt _ _
      | succ k =>
        simp only [List.getElem_cons_succ]
        exact ih (Memory.wf_writeN hm _ _ _) hp.2 (by simpa using hk) (by simpa using hv)

theorem length_vectorElems (base size n : Nat) : (vectorElems base size n).length = n := by
  simp [vectorElems]

theorem length_blockElems (base pitch size n : Nat) : (blockElems base pitch size n).length = n * n := by
  rw [blockElems, flatMap_range_map]
  simp

theorem getElem_vectorElems {base size n k : Nat} (h : k < (vectorElems base size n).length) :
    (vectorElems base size n)[k] = { addr := base + size * k, size := size } := by
  simp [vectorElems]

theorem getElem_blockElems {base pitch size n r c : Nat} (_ : r < n) (hc : c < n)
    (h : r * n + c < (blockElems base pitch size n).length) :
    (blockElems base pitch size n)[r * n + c] = { addr := base + size * (r * pitch + c), size := size } := by
  have : blockElems base pitch size n =
      (List.range (n * n)).map fun k => { addr := base + size * (k / n * pitch + k % n), size := size } :=
    flatMap_range_map ..
  simp only [this, List.getElem_map, List.getElem_range, index_div hc, index_mod hc]

/-- After STORE of a vector, element `k` holds its pattern. -/
theorem readN_store_vector {base size n : Nat} {vs : List Int} {m : Memory} (hm : m.wf = true)
    (hl : vs.length = n) {k : Nat} (hk : k < n) :
    (storeElems (vectorElems base size n) vs m).readN (base + size * k) size = encS (ix vs k) (8 * size) := by
  have h1 : k < (vectorElems base size n).length := by rwa [length_vectorElems]
  have h := readN_storeElems hm (vectorElems_apart base size n) h1 (vs := vs) (by omega)
  rw [getElem_vectorElems h1] at h
  rw [ix_eq_getElem (by omega)]
  exact h

/-- After STORE of a block, element (r, c) holds its pattern. -/
theorem readN_store_block {base pitch size n : Nat} (hpitch : n ≤ pitch) {vs : List Int} {m : Memory}
    (hm : m.wf = true) (hl : vs.length = n * n) {r c : Nat} (hr : r < n) (hc : c < n) :
    (storeElems (blockElems base pitch size n) vs m).readN (base + size * (r * pitch + c)) size =
      encS (ix vs (r * n + c)) (8 * size) := by
  have hi := index_lt hr hc
  have h1 : r * n + c < (blockElems base pitch size n).length := by rwa [length_blockElems]
  have h := readN_storeElems hm (blockElems_apart (base := base) (size := size) hpitch) h1 (vs := vs) (by omega)
  rw [getElem_blockElems hr hc h1] at h
  rw [ix_eq_getElem (by omega)]
  exact h

/-- Entry `k` of a loaded vector. -/
theorem ix_map_vector {base size n k : Nat} (f : Elem → Int) (h : k < n) :
    ix ((vectorElems base size n).map f) k = f { addr := base + size * k, size := size } := by
  rw [ix_eq_getElem (by simpa [length_vectorElems] using h)]
  simp [vectorElems]

/-- Entry (r, c) of a loaded block. -/
theorem ix_map_block {base pitch size n r c : Nat} (f : Elem → Int) (hr : r < n) (hc : c < n) :
    ix ((blockElems base pitch size n).map f) (r * n + c) =
      f { addr := base + size * (r * pitch + c), size := size } := by
  have hi := index_lt hr hc
  rw [ix_eq_getElem (by simpa [length_blockElems] using hi), List.getElem_map,
    getElem_blockElems hr hc (by simpa [length_blockElems] using hi)]

/-- Entry (r, c) of a list of rows, laid out row by row. -/
theorem ix_flatten {n : Nat} {rows : List (List Int)} (hlen : ∀ y ∈ rows, y.length = n) {r c : Nat}
    (hr : r < rows.length) (hc : c < n) : ix rows.flatten (r * n + c) = ix (rows.getD r []) c := by
  induction rows generalizing r with
  | nil => simp at hr
  | cons y rows ih =>
    have hy := hlen y (List.mem_cons_self ..)
    rw [List.flatten_cons]
    cases r with
    | zero =>
      simp only [Nat.zero_mul, Nat.zero_add, List.getD_cons_zero]
      rw [ix, List.getD_append _ _ _ _ (by omega), ix]
    | succ r =>
      rw [ix, List.getD_append_right _ _ _ _ (by rw [hy, Nat.succ_mul]; omega), List.getD_cons_succ]
      rw [show (r + 1) * n + c - y.length = r * n + c by rw [hy, Nat.succ_mul]; omega]
      exact ih (fun z hz => hlen z (List.mem_cons_of_mem _ hz)) (by simpa using hr)

theorem length_flatten {n : Nat} {rows : List (List Int)} (hlen : ∀ y ∈ rows, y.length = n) :
    rows.flatten.length = rows.length * n := by
  induction rows with
  | nil => simp
  | cons y rows ih =>
    rw [List.flatten_cons, List.length_append, hlen y (List.mem_cons_self ..),
      ih fun z hz => hlen z (List.mem_cons_of_mem _ hz), List.length_cons, Nat.succ_mul]
    omega

theorem coefSize_mul_eight (bd : BitDepth) : 8 * coefSize bd = (widths bd).ew := by cases bd <;> rfl

theorem pixSize_mul_eight (bd : BitDepth) : 8 * pixSize bd = pixW bd := by cases bd <;> rfl

/-- A coefficient as the reader sees it, after a STORE of its pattern. -/
theorem coefAt_of_readN {bd : BitDepth} {m : Memory} {base k : Nat} {v : Int}
    (h : m.readN (base + coefSize bd * k) (coefSize bd) = encS v (8 * coefSize bd))
    (hv : fitsS v (widths bd).ew = true) : coefAt bd m base k = v := by
  rw [coefAt, h, coefSize_mul_eight]
  exact sext_encS (by cases bd <;> decide) hv

/-- A coefficient in memory fits an element, whatever the bytes (46 R222). -/
theorem fitsS_coefAt (bd : BitDepth) (m : Memory) (base k : Nat) :
    fitsS (coefAt bd m base k) (widths bd).ew = true := by
  refine fitsS_sext (by cases bd <;> decide) ?_
  have := Memory.readN_lt m (base + coefSize bd * k) (coefSize bd)
  rwa [← two_pow_eight_mul, coefSize_mul_eight] at this

/-- A residual sample fits 16 bits, whatever the bytes (45 R201). -/
theorem fitsS_resAt (s : State) (r c : Nat) : fitsS (resAt s r c) 16 = true :=
  fitsS_sext (by decide) (Memory.readN_lt s.mem _ 2)

end Sys2Proof.Machine
end

