-- ==== Sys2Proof/Laws/Command.lean ====
section
/-! SUPPORT. What a command can do, said once (spec 48 R255, R259, 60 R280 to R283), what a step and a host action can do, and
the bits of STATUS after each. -/

namespace Sys2Proof.Machine

/-- Everything a command can do: refused, completed, completed with RANGE. -/
theorem runCommand_cases (sh : Shape) (f : Computation) (s : State) :
    (∃ fault, sh.check s.plat s.latch = some fault ∧ runCommand sh f s = refuse fault s) ∨
    (sh.check s.plat s.latch = none ∧
      ∃ ob, f (sh.loadSrc s.latch (freeRaced s).mem) (sh.loadDst s.latch (freeRaced s).mem) = some ob ∧
        runCommand sh f s = complete (freeRaced
          { freeRaced s with mem := storeElems (sh.dstElems s.latch) ob (freeRaced s).mem })) ∨
    (sh.check s.plat s.latch = none ∧
      f (sh.loadSrc s.latch (freeRaced s).mem) (sh.loadDst s.latch (freeRaced s).mem) = none ∧
        runCommand sh f s = complete (freeRaced
          (raise .range (freeBytes (elemBytes (sh.dstElems s.latch)) (freeRaced s))))) := by
  have hl : (freeRaced s).latch = s.latch := freeBytes_latch _ _
  unfold runCommand
  cases hc : sh.check s.plat s.latch with
  | some fault => exact .inl ⟨fault, rfl, rfl⟩
  | none =>
    simp only [hl]
    cases hf : f (sh.loadSrc s.latch (freeRaced s).mem) (sh.loadDst s.latch (freeRaced s).mem) with
    | some ob => exact .inr (.inl ⟨trivial, ob, rfl, rfl⟩)
    | none => exact .inr (.inr ⟨trivial, rfl, rfl⟩)

theorem freeRaced_of_nil {s : State} (h : s.raced = []) : freeRaced s = s := by
  simp [freeRaced, h]

/-- A command whose descriptor fails a check. -/
theorem runCommand_refused {sh : Shape} {f : Computation} {s : State} {fault : FaultBit}
    (hc : sh.check s.plat s.latch = some fault) : runCommand sh f s = refuse fault s := by
  simp [runCommand, hc]

/-- An undisturbed command whose computation answers. -/
theorem runCommand_some {sh : Shape} {f : Computation} {s : State} {ob : List Int}
    (hc : sh.check s.plat s.latch = none) (hr : s.raced = [])
    (hf : f (sh.loadSrc s.latch s.mem) (sh.loadDst s.latch s.mem) = some ob) :
    runCommand sh f s = complete { s with mem := storeElems (sh.dstElems s.latch) ob s.mem } := by
  rcases runCommand_cases sh f s with ⟨_, h, _⟩ | ⟨_, ob', h1, h2⟩ | ⟨_, h1, _⟩
  · rw [hc] at h
    cases h
  · rw [freeRaced_of_nil hr] at h1 h2
    rw [hf] at h1
    obtain rfl := Option.some.inj h1
    rw [h2, freeRaced_of_nil]
    exact hr
  · rw [freeRaced_of_nil hr, hf] at h1
    cases h1

/-- An undisturbed command whose computation fails a check. -/
theorem runCommand_none {sh : Shape} {f : Computation} {s : State}
    (hc : sh.check s.plat s.latch = none) (hr : s.raced = [])
    (hf : f (sh.loadSrc s.latch s.mem) (sh.loadDst s.latch s.mem) = none) :
    runCommand sh f s = complete (raise .range (freeBytes (elemBytes (sh.dstElems s.latch)) s)) := by
  rcases runCommand_cases sh f s with ⟨_, h, _⟩ | ⟨_, ob', h1, h2⟩ | ⟨_, h1, h2⟩
  · rw [hc] at h
    cases h
  · rw [freeRaced_of_nil hr, hf] at h1
    cases h1
  · rw [freeRaced_of_nil hr] at h2
    rw [h2, freeRaced_of_nil]
    simp [hr]

theorem updateStatus_done (w : Word) : updateStatus w (bitWord 0) (bitWord 1) = doneStatus w := rfl

theorem updateStatus_range (w : Word) : updateStatus w 0 (bitWord FaultBit.range.code) = w ||| 16 := by
  unfold updateStatus
  have h : (w &&& ~~~(0 : Word)) = w := BitVec.and_allOnes
  rw [h]
  rfl

/-- Completion with an output, as the statements say it. -/
theorem cleanNext_of_some {i : Instr} {f : Computation} {s : State} {ob : List Int} (ha : Admitted i s)
    (hf : f ((shapeOf i).loadSrc s.latch s.mem) ((shapeOf i).loadDst s.latch s.mem) = some ob) :
    CleanNext i s (runCommand (shapeOf i) f s) ∧
      (runCommand (shapeOf i) f s).mem = storeElems ((shapeOf i).dstElems s.latch) ob s.mem := by
  rw [runCommand_some ha.passes ha.unraced hf]
  refine ⟨⟨?_, fun a h => ?_⟩, rfl⟩
  · simp only [complete, updateStatus_done, ha.unraced]
  · exact storeElems_outside h

/-- Completion with RANGE, as the statements say it. -/
theorem rangeNext_of_none {i : Instr} {f : Computation} {s : State} (ha : Admitted i s)
    (hf : f ((shapeOf i).loadSrc s.latch s.mem) ((shapeOf i).loadDst s.latch s.mem) = none) :
    RangeNext i s (runCommand (shapeOf i) f s) := by
  rw [runCommand_none ha.passes ha.unraced hf]
  refine ⟨?_, ?_, fun a h => ?_, fun a h => ?_⟩
  · simp only [complete, raise, updateStatus_done, updateStatus_range, freeBytes_plat, freeBytes_cmd, freeBytes_src,
      freeBytes_dst, freeBytes_stride, freeBytes_status, freeBytes_latch, freeBytes_host, freeBytes_hostData,
      ha.unraced]
  · simp
  · exact freeBytes_outside h
  · obtain ⟨k, h1, h2, h3⟩ := freeBytes_inside ha.memory h
    exact ⟨k, h1, h2, h3⟩

/-- Everything an instruction can do: each meaning is one run of a command with its shape. -/
theorem exec_eq_runCommand (i : Instr) (s : State) : ∃ f, exec i s = .next (runCommand (shapeOf i) f s) := by
  cases i <;> exact ⟨_, rfl⟩

/-- Everything a step can do. -/
theorem step_cases (s : State) :
    (s.host = [] ∧ s.busy = false ∧ step s = .next s) ∨
    (s.busy = true ∧ step s = engineStep s) ∨
    (∃ e rest, s.host = e :: rest ∧ (s.busy = true → e.early = true ∧ s.runningShape.isSome = true) ∧
      step s = hostAct e.act { s with host := rest }) := by
  unfold step
  cases hh : s.host with
  | nil =>
    cases hb : s.busy with
    | false => exact .inl ⟨rfl, rfl, by simp⟩
    | true => exact .inr (.inl ⟨rfl, by simp⟩)
  | cons e rest =>
    cases hb : s.busy with
    | false => exact .inr (.inr ⟨e, rest, rfl, by simp, by simp⟩)
    | true =>
      by_cases he : (e.early && s.runningShape.isSome) = true
      · exact .inr (.inr ⟨e, rest, rfl, fun _ => by simpa using he, by simp [he]⟩)
      · exact .inr (.inl ⟨rfl, by simp [he]⟩)

/-- Everything the engine can do: run the decoded command, or refuse an illegal word. -/
theorem engineStep_cases (s : State) :
    (∃ i f, decode s.latch.cmd = .ok i ∧ engineStep s = .next (runCommand (shapeOf i) f s)) ∨
    (∃ e, decode s.latch.cmd = .error e ∧ engineStep s = .next (refuse .cfg s)) := by
  unfold engineStep
  cases hd : decode s.latch.cmd with
  | ok i =>
    obtain ⟨f, hf⟩ := exec_eq_runCommand i s
    exact .inl ⟨i, f, rfl, hf⟩
  | error e => exact .inr ⟨e, rfl, rfl⟩

end Sys2Proof.Machine
end

