-- ==== Sys2Proof/Laws/Flow.lean ====
section
/-! SUPPORT. A checked value of a kernel's stage against the node of its signal-flow graph: one lemma for each check, and one for a
whole stage. -/

namespace Sys2Proof.Machine

/-- If the checked value `o` passes its checks it is the value of the node `w` on the registers `u`. -/
def AgreesWith (u : Nat → Int) (o : Option Int) (w : Node) : Prop := ∀ v, o = some v → v = w.value u

theorem agreesWith_copy {u : Nat → Int} {i : Nat} : AgreesWith u (some (u i)) (.copy i) := fun v h => by
  simpa [Node.value] using h.symm

theorem agreesWith_acc {B : Widths} {u : Nat → Int} {x : Int} {w : Node} (h : x = w.value u) : AgreesWith u (acc B x) w :=
  fun v hv => by rw [← (acc_eq_some.1 hv).2, h]

theorem agreesWith_low {B : Widths} {u : Nat → Int} {x : Int} {w : Node} (h : x = w.value u) : AgreesWith u (low B x) w :=
  fun v hv => by rw [← (low_eq_some.1 hv).2, h]

theorem agreesWith_rs {B : Widths} {u : Nat → Int} {x : Int} {ts : List (Int × Nat)}
    (h : x = (ts.map fun t => signedRom t.1 * u t.2).sum) : AgreesWith u (rs B x) (.rot ts) := fun v hv => by
  rw [(rs_eq_some.1 hv).2.2, h]
  rfl

theorem agreesWith_rsLow {B : Widths} {u : Nat → Int} {x : Int} {ts : List (Int × Nat)}
    (h : x = (ts.map fun t => signedRom t.1 * u t.2).sum) : AgreesWith u (rsLow B x) (.rot ts) := fun v hv =>
  agreesWith_rs h v (rsLow_eq_some.1 hv).1

/-- A stage whose checked values agree with the nodes gives, if every check passes, the values of the nodes. -/
theorem allSome_agrees {u : Nat → Int} : ∀ {os : List (Option Int)} {ws : List Node} {l : List Int},
    List.Forall₂ (AgreesWith u) os ws → allSome os = some l → l = ws.map (Node.value u)
  | [], _, l, .nil, h => by simpa [allSome] using h.symm
  | o :: os, w :: ws, l, .cons h1 h2, h => by
    unfold allSome at h
    split at h
    · next hos =>
      cases h
      rw [List.map_cons, ← h1 _ rfl, ← allSome_agrees h2 hos]
    · cases h

end Sys2Proof.Machine
end

