-- ==== Sys2Proof/Laws/Kernels.lean ====
section
/-! SUPPORT. Every kernel of size N answers with N outputs (spec 41 R153, 43 R176). -/

namespace Sys2Proof.Machine

/-- A checked computation of a vector answers, if at all, with `n` entries. -/
def Answers (n : Nat) (o : Option (List Int)) : Prop := ∀ y, o = some y → y.length = n

theorem Answers.bind {α : Type} {n : Nat} {o : Option α} {f : α → Option (List Int)} (h : ∀ a, Answers n (f a)) :
    Answers n (o >>= f) := by
  intro y hy
  cases o with
  | none => cases hy
  | some a => exact h a y hy

theorem answers_some (y : List Int) : Answers y.length (some y) := fun _ h => by cases h; rfl

theorem answers_pure (y : List Int) : Answers y.length (pure y : Option (List Int)) := fun _ h => by cases h; rfl

theorem answers_allSome (xs : List (Option Int)) : Answers xs.length (allSome xs) := fun _ h => by
  rw [allSome_eq_mapSome] at h
  exact length_of_mapSome h

theorem answers_ite {n : Nat} {c : Prop} [Decidable c] {a b : Option (List Int)} (ha : Answers n a)
    (hb : Answers n b) : Answers n (if c then a else b) := by
  split <;> assumption

theorem fdct4_answers (B : Widths) (X : Nat → Int) : Answers 4 (fdct4 B X) := by
  unfold fdct4
  repeat refine Answers.bind fun _ => ?_
  exact answers_pure _

theorem fdct8_answers (B : Widths) (X : Nat → Int) : Answers 8 (fdct8 B X) := by
  unfold fdct8
  repeat refine Answers.bind fun _ => ?_
  exact answers_pure _

theorem fdct16_answers (B : Widths) (X : Nat → Int) : Answers 16 (fdct16 B X) := by
  unfold fdct16
  repeat refine Answers.bind fun _ => ?_
  intro y h
  cases h
  simp

theorem fdct32_answers (B : Widths) (X : Nat → Int) : Answers 32 (fdct32 B X) := by
  unfold fdct32
  repeat refine Answers.bind fun _ => ?_
  exact answers_allSome _

theorem fadst4_answers (B : Widths) (X : Nat → Int) : Answers 4 (fadst4 B X) := by
  unfold fadst4
  refine answers_ite (answers_some _) ?_
  repeat refine Answers.bind fun _ => ?_
  exact answers_pure _

theorem adst8Graph_answers (B : Widths) (keep rot : Int → Option Int) (X : Nat → Int) :
    Answers 8 (adst8Graph B keep rot X) := by
  unfold adst8Graph
  repeat refine Answers.bind fun _ => ?_
  exact answers_pure _

theorem adst16Graph_answers (B : Widths) (keep rot : Int → Option Int) (X : Nat → Int) :
    Answers 16 (adst16Graph B keep rot X) := by
  unfold adst16Graph
  repeat refine Answers.bind fun _ => ?_
  exact answers_allSome _

theorem fadst8_answers (B : Widths) (X : Nat → Int) : Answers 8 (fadst8 B X) :=
  answers_ite (answers_some _) (adst8Graph_answers _ _ _ _)

theorem fadst16_answers (B : Widths) (X : Nat → Int) : Answers 16 (fadst16 B X) :=
  answers_ite (answers_some _) (adst16Graph_answers _ _ _ _)

theorem fwht4_answers (B : Widths) (X : Nat → Int) : Answers 4 (fwht4 B X) := by
  unfold fwht4
  repeat refine Answers.bind fun _ => ?_
  exact answers_pure _

theorem idct4_answers (B : Widths) (X : Nat → Int) : Answers 4 (idct4 B X) := by
  unfold idct4
  repeat refine Answers.bind fun _ => ?_
  exact answers_pure _

theorem idct8_answers (B : Widths) (X : Nat → Int) : Answers 8 (idct8 B X) := by
  unfold idct8
  repeat refine Answers.bind fun _ => ?_
  exact answers_pure _

theorem idct16_answers (B : Widths) (X : Nat → Int) : Answers 16 (idct16 B X) := by
  unfold idct16
  repeat refine Answers.bind fun _ => ?_
  exact answers_allSome _

theorem idct32_answers (B : Widths) (X : Nat → Int) : Answers 32 (idct32 B X) := by
  unfold idct32
  repeat refine Answers.bind fun _ => ?_
  exact answers_allSome _

theorem iadst4_answers (B : Widths) (X : Nat → Int) : Answers 4 (iadst4 B X) := by
  unfold iadst4
  refine answers_ite (answers_some _) ?_
  repeat refine Answers.bind fun _ => ?_
  exact answers_pure _

theorem iadst8_answers (B : Widths) (X : Nat → Int) : Answers 8 (iadst8 B X) :=
  answers_ite (answers_some _) (adst8Graph_answers _ _ _ _)

theorem iadst16_answers (B : Widths) (X : Nat → Int) : Answers 16 (iadst16 B X) :=
  answers_ite (answers_some _) (adst16Graph_answers _ _ _ _)

theorem iwht4_answers (B : Widths) (X : Nat → Int) : Answers 4 (iwht4 B X) := by
  unfold iwht4
  repeat refine Answers.bind fun _ => ?_
  exact answers_pure _

end Sys2Proof.Machine
end

