-- ==== Sys2Proof/Laws/PerInstr.lean ====
section
/-! SUPPORT. The per-instruction family `EncodeLegal`: the word of every instruction is legal under the nine clauses of spec 30 R97,
which are written apart from the encoder. One lemma for each constructor of `Instr`. -/

namespace Sys2Proof.Laws.EncodeLegal

/-- The word that encodes `i` is legal (30 R97, R101). -/
def Statement (i : Instr) : Prop := wellFormedWord (encode i) = true

theorem fdct4 (bd : BitDepth) : Statement (.fdct4 bd) := by
  cases bd <;> rfl
theorem fdct8 (bd : BitDepth) : Statement (.fdct8 bd) := by
  cases bd <;> rfl
theorem fdct16 (bd : BitDepth) : Statement (.fdct16 bd) := by
  cases bd <;> rfl
theorem fdct32 (bd : BitDepth) : Statement (.fdct32 bd) := by
  cases bd <;> rfl
theorem fadst4 (bd : BitDepth) : Statement (.fadst4 bd) := by
  cases bd <;> rfl
theorem fadst8 (bd : BitDepth) : Statement (.fadst8 bd) := by
  cases bd <;> rfl
theorem fadst16 (bd : BitDepth) : Statement (.fadst16 bd) := by
  cases bd <;> rfl
theorem fwht4 (bd : BitDepth) : Statement (.fwht4 bd) := by
  cases bd <;> rfl
theorem idct4 (bd : BitDepth) : Statement (.idct4 bd) := by
  cases bd <;> rfl
theorem idct8 (bd : BitDepth) : Statement (.idct8 bd) := by
  cases bd <;> rfl
theorem idct16 (bd : BitDepth) : Statement (.idct16 bd) := by
  cases bd <;> rfl
theorem idct32 (bd : BitDepth) : Statement (.idct32 bd) := by
  cases bd <;> rfl
theorem iadst4 (bd : BitDepth) : Statement (.iadst4 bd) := by
  cases bd <;> rfl
theorem iadst8 (bd : BitDepth) : Statement (.iadst8 bd) := by
  cases bd <;> rfl
theorem iadst16 (bd : BitDepth) : Statement (.iadst16 bd) := by
  cases bd <;> rfl
theorem iwht4 (bd : BitDepth) : Statement (.iwht4 bd) := by
  cases bd <;> rfl
theorem fht4 (tx : TxType) (bd : BitDepth) : Statement (.fht4 tx bd) := by
  cases tx <;> cases bd <;> rfl
theorem fht8 (tx : TxType) (bd : BitDepth) : Statement (.fht8 tx bd) := by
  cases tx <;> cases bd <;> rfl
theorem fht16 (tx : TxType) (bd : BitDepth) : Statement (.fht16 tx bd) := by
  cases tx <;> cases bd <;> rfl
theorem fht32 (bd : BitDepth) : Statement (.fht32 bd) := by
  cases bd <;> rfl
theorem iht4Add (tx : TxType) (bd : BitDepth) : Statement (.iht4Add tx bd) := by
  cases tx <;> cases bd <;> rfl
theorem iht8Add (tx : TxType) (bd : BitDepth) : Statement (.iht8Add tx bd) := by
  cases tx <;> cases bd <;> rfl
theorem iht16Add (tx : TxType) (bd : BitDepth) : Statement (.iht16Add tx bd) := by
  cases tx <;> cases bd <;> rfl
theorem iht32Add (bd : BitDepth) : Statement (.iht32Add bd) := by
  cases bd <;> rfl
theorem fdc4 (bd : BitDepth) : Statement (.fdc4 bd) := by
  cases bd <;> rfl
theorem fdc8 (bd : BitDepth) : Statement (.fdc8 bd) := by
  cases bd <;> rfl
theorem fdc16 (bd : BitDepth) : Statement (.fdc16 bd) := by
  cases bd <;> rfl
theorem fdc32 (bd : BitDepth) : Statement (.fdc32 bd) := by
  cases bd <;> rfl
theorem idc4Add (bd : BitDepth) : Statement (.idc4Add bd) := by
  cases bd <;> rfl
theorem idc8Add (bd : BitDepth) : Statement (.idc8Add bd) := by
  cases bd <;> rfl
theorem idc16Add (bd : BitDepth) : Statement (.idc16Add bd) := by
  cases bd <;> rfl
theorem idc32Add (bd : BitDepth) : Statement (.idc32Add bd) := by
  cases bd <;> rfl
theorem fwht4x4 (bd : BitDepth) : Statement (.fwht4x4 bd) := by
  cases bd <;> rfl
theorem iwht4x4Add (bd : BitDepth) : Statement (.iwht4x4Add bd) := by
  cases bd <;> rfl

end Sys2Proof.Laws.EncodeLegal
end

