-- ==== Sys2Proof/Laws/TwoPass.lean ====
section
/-! SUPPORT. The two-pass computations and the rules of spec 45 R200 and 46 R220 as relations: the computation answers exactly when
every check of the rule passes, and then with the rule's output block. -/

namespace Sys2Proof.Machine

theorem ix_beyond {v : List Int} {k : Nat} (h : v.length ≤ k) : ix v k = 0 := by
  simp [ix, List.getD, h]

/-- A list of `n` values read as registers. -/
theorem ix_eq_vec {n : Nat} {v : List Int} {f : Nat → Int} (hl : v.length = n) (h : ∀ j, j < n → ix v j = f j) :
    ix v = vec n f := by
  funext j
  unfold vec
  split
  · next hj => exact h j hj
  · next hj => exact ix_beyond (by omega)

theorem ext_ix {v w : List Int} (hl : v.length = w.length) (h : ∀ j, j < v.length → ix v j = ix w j) : v = w := by
  refine List.ext_getElem hl fun j h1 h2 => ?_
  have := h j h1
  rwa [ix_eq_getElem h1, ix_eq_getElem h2] at this

/-- `mapSome` of a check over a vector. -/
theorem mapSome_ix {f : Int → Option Int} {y z : List Int} :
    mapSome f y = some z ↔ z.length = y.length ∧ ∀ j, j < y.length → f (ix y j) = some (ix z j) := by
  rw [mapSome_eq_some, List.forall₂_iff_get]
  simp only [List.get_eq_getElem]
  constructor
  · rintro ⟨h1, h2⟩
    refine ⟨h1.symm, fun j hj => ?_⟩
    rw [ix_eq_getElem hj, ix_eq_getElem (by omega)]
    exact h2 j hj (by omega)
  · rintro ⟨h1, h2⟩
    refine ⟨h1.symm, fun j hj hj' => ?_⟩
    have := h2 j hj
    rwa [ix_eq_getElem hj, ix_eq_getElem hj'] at this

/-- The width of a pipeline's class (45 R203). -/
def FwdParams.width (p : FwdParams) (B : Widths) : Nat := if p.wide then B.aw else B.ew

theorem FwdParams.chk_eq_some {p : FwdParams} {B : Widths} {v w : Int} :
    p.chk B v = some w ↔ fitsS v (p.width B) = true ∧ v = w := by
  unfold FwdParams.chk FwdParams.width
  split
  · exact acc_eq_some
  · exact low_eq_some

theorem bind_some_iff {α β : Type} {o : Option α} {f : α → Option β} {b : β} :
    (o >>= f) = some b ↔ ∃ a, o = some a ∧ f a = some b := Option.bind_eq_some_iff

/-- One column of the first pass answers `z` exactly when its part of the rule holds. -/
theorem fwdColumn_eq_some {p : FwdParams} {col : Kernel} {B : Widths} {ib : List Int} {i : Nat} {z : List Int}
    (hn : 0 < p.n) (hlen : ∀ X, Answers p.n (col B X)) :
    fwdColumn p col B ib i = some z ↔ z.length = p.n ∧
      ∃ y, col B (vec p.n (preScaled p.pre p.adj (elemAt p.n ib) i)) = some y ∧
        ∀ j, j < p.n → fitsS (elemAt p.n ib j i * p.pre) (p.width B) = true ∧
          fitsS (preScaled p.pre p.adj (elemAt p.n ib) i j) (p.width B) = true ∧
          fitsS (ix y j) (p.width B) = true ∧ ix z j = p.mid (ix y j) ∧ fitsS (ix z j) (p.width B) = true := by
  -- the kernel's input vector
  have hin : ∀ x' : List Int,
      (∃ x, allSome (span 0 p.n fun j => p.chk B (elemAt p.n ib j i * p.pre)) = some x ∧
        p.adjust B i x = some x') ↔
      x'.length = p.n ∧ ∀ j, j < p.n → fitsS (elemAt p.n ib j i * p.pre) (p.width B) = true ∧
        fitsS (preScaled p.pre p.adj (elemAt p.n ib) i j) (p.width B) = true ∧
        ix x' j = preScaled p.pre p.adj (elemAt p.n ib) i j := by
    intro x'
    simp only [allSome_span, Nat.zero_add, FwdParams.chk_eq_some]
    constructor
    · rintro ⟨x, ⟨hl, hx⟩, h⟩
      have h0 := hx 0 hn
      unfold FwdParams.adjust at h
      by_cases hc : p.adj = true ∧ i = 0 ∧ ix x 0 ≠ 0
      · obtain ⟨hadj, hi, hne⟩ := hc
        rw [if_pos (by simp [hadj, hi, hne])] at h
        simp only [Option.map_eq_some_iff, FwdParams.chk_eq_some] at h
        obtain ⟨a, ⟨ha, rfl⟩, rfl⟩ := h
        refine ⟨by simpa using hl, fun j hj => ?_⟩
        have hj' := hx j hj
        refine ⟨hj'.1, ?_⟩
        by_cases hj0 : j = 0
        · subst hj0
          subst hi
          have hps : preScaled p.pre p.adj (elemAt p.n ib) 0 0 = ix x 0 + 1 := by
            unfold preScaled
            rw [if_pos ⟨hadj, rfl, rfl, by rw [h0.2]; exact hne⟩, h0.2]
          rw [hps]
          refine ⟨ha, ?_⟩
          rw [ix_eq_getElem (by simp; omega)]
          simp
        · have hps : preScaled p.pre p.adj (elemAt p.n ib) i j = elemAt p.n ib j i * p.pre := by
            unfold preScaled
            rw [if_neg (fun h => hj0 h.2.2.1)]
          rw [hps]
          refine ⟨hj'.1, ?_⟩
          rw [hj'.2, ix_eq_getElem (by simp; omega), List.getElem_set_ne (Ne.symm hj0)]
          exact (ix_eq_getElem (by omega)).symm
      · rw [if_neg (by simpa using hc)] at h
        obtain rfl := Option.some.inj h
        refine ⟨hl, fun j hj => ?_⟩
        have hj' := hx j hj
        have hps : preScaled p.pre p.adj (elemAt p.n ib) i j = elemAt p.n ib j i * p.pre := by
          unfold preScaled
          rw [if_neg]
          rintro ⟨h1, h2, h3, h4⟩
          subst h2
          rw [h0.2] at h4
          exact hc ⟨h1, rfl, h4⟩
        rw [hps]
        exact ⟨hj'.1, hj'.1, hj'.2.symm⟩
    · rintro ⟨hl, hx⟩
      refine ⟨(List.range p.n).map fun j => elemAt p.n ib j i * p.pre, ⟨by simp, fun j hj => ?_⟩, ?_⟩
      · refine ⟨(hx j hj).1, ?_⟩
        rw [ix_eq_getElem (by simpa using hj)]
        simp
      · have hx0 : ix ((List.range p.n).map fun j => elemAt p.n ib j i * p.pre) 0 = elemAt p.n ib 0 i * p.pre := by
          rw [ix_eq_getElem (by simpa using hn)]
          simp
        unfold FwdParams.adjust
        rw [hx0]
        by_cases hc : p.adj = true ∧ i = 0 ∧ elemAt p.n ib 0 i * p.pre ≠ 0
        · obtain ⟨hadj, rfl, hne⟩ := hc
          rw [if_pos (by simp [hadj, hne])]
          have h0 := hx 0 hn
          have hps : preScaled p.pre p.adj (elemAt p.n ib) 0 0 = elemAt p.n ib 0 0 * p.pre + 1 := by
            unfold preScaled
            rw [if_pos ⟨hadj, rfl, rfl, hne⟩]
          simp only [Option.map_eq_some_iff, FwdParams.chk_eq_some]
          refine ⟨_, ⟨hps ▸ h0.2.1, rfl⟩, ?_⟩
          refine ext_ix (by simp [hl]) fun j hj => ?_
          have hj : j < p.n := by simpa using hj
          rw [(hx j hj).2.2, ix_eq_getElem (by simpa using hj)]
          by_cases hj0 : j = 0
          · subst hj0
            rw [hps]
            simp
          · have hps : preScaled p.pre p.adj (elemAt p.n ib) 0 j = elemAt p.n ib j 0 * p.pre := by
              unfold preScaled
              rw [if_neg (fun h => hj0 h.2.2.1)]
            rw [hps]
            simp [Ne.symm hj0]
        · rw [if_neg (by simpa using hc)]
          refine congrArg some (ext_ix (by simp [hl]) fun j hj => ?_)
          have hj : j < p.n := by simpa using hj
          rw [(hx j hj).2.2, ix_eq_getElem (by simpa using hj)]
          have hps : preScaled p.pre p.adj (elemAt p.n ib) i j = elemAt p.n ib j i * p.pre := by
            unfold preScaled
            rw [if_neg]
            rintro ⟨h1, h2, h3, h4⟩
            subst h2
            exact hc ⟨h1, rfl, h4⟩
          rw [hps]
          simp
  unfold fwdColumn
  simp only [bind_some_iff]
  constructor
  · rintro ⟨x, h1, x', h2, y, h3, h4⟩
    obtain ⟨hl, hx⟩ := (hin x').1 ⟨x, h1, h2⟩
    have hy := hlen _ _ h3
    obtain ⟨hz, hzj⟩ := mapSome_ix.1 h4
    rw [ix_eq_vec hl fun j hj => (hx j hj).2.2] at h3
    refine ⟨by omega, y, h3, fun j hj => ?_⟩
    have hv := hzj j (by omega)
    simp only [bind_some_iff, FwdParams.chk_eq_some] at hv
    obtain ⟨a, ⟨h5, rfl⟩, h6, h7⟩ := hv
    exact ⟨(hx j hj).1, (hx j hj).2.1, h5, h7.symm, h7 ▸ h6⟩
  · rintro ⟨hz, y, h3, hj⟩
    have hy := hlen _ _ h3
    obtain ⟨x, h1, h2⟩ := (hin ((List.range p.n).map (preScaled p.pre p.adj (elemAt p.n ib) i))).2
      ⟨by simp, fun j h => ⟨(hj j h).1, (hj j h).2.1, by
        rw [ix_eq_getElem (by simpa using h)]
        simp⟩⟩
    refine ⟨x, h1, _, h2, y, ?_, ?_⟩
    · rw [ix_eq_vec (n := p.n) (f := preScaled p.pre p.adj (elemAt p.n ib) i) (by simp) (fun j h => by
        rw [ix_eq_getElem (by simpa using h)]
        simp)]
      exact h3
    · refine mapSome_ix.2 ⟨by omega, fun j h => ?_⟩
      have := hj j (by omega)
      simp only [bind_some_iff, FwdParams.chk_eq_some]
      exact ⟨_, ⟨this.2.2.1, rfl⟩, this.2.2.2.1 ▸ this.2.2.2.2, this.2.2.2.1.symm⟩

/-- One row of the second pass. -/
theorem fwdRow_eq_some {p : FwdParams} {row : Kernel} {B : Widths} {tc : List (List Int)} {i : Nat} {z : List Int}
    (htc : tc.length = p.n) (hlen : ∀ X, Answers p.n (row B X)) :
    fwdRow p row B tc i = some z ↔ z.length = p.n ∧
      ∃ y, row B (vec p.n fun j => ix (tc.getD j []) i) = some y ∧
        ∀ j, j < p.n → fitsS (ix y j) (p.width B) = true ∧ ix z j = p.fin (ix y j) ∧ fitsS (ix z j) B.ew = true := by
  have hin : (fun j => ix (tc.getD j []) i) = vec p.n fun j => ix (tc.getD j []) i := by
    funext j
    unfold vec
    split
    · rfl
    · next hj =>
      rw [List.getD_eq_default _ _ (by omega)]
      rfl
  unfold fwdRow
  rw [← hin]
  simp only [bind_some_iff]
  constructor
  · rintro ⟨y, h3, h4⟩
    have hy := hlen _ _ h3
    obtain ⟨hz, hzj⟩ := mapSome_ix.1 h4
    refine ⟨by omega, y, h3, fun j hj => ?_⟩
    have hv := hzj j (by omega)
    simp only [bind_some_iff, FwdParams.chk_eq_some, low_eq_some] at hv
    obtain ⟨a, ⟨h5, rfl⟩, h6, h7⟩ := hv
    exact ⟨h5, h7.symm, h7 ▸ h6⟩
  · rintro ⟨hz, y, h3, hj⟩
    have hy := hlen _ _ h3
    refine ⟨y, h3, mapSome_ix.2 ⟨by omega, fun j h => ?_⟩⟩
    have := hj j (by omega)
    simp only [bind_some_iff, FwdParams.chk_eq_some, low_eq_some]
    exact ⟨_, ⟨this.1, rfl⟩, this.2.1 ▸ this.2.2, this.2.1.symm⟩

/-- A checked list of lists over a range. -/
theorem mapSome_range_list {n : Nat} {f : Nat → Option (List Int)} {rows : List (List Int)} :
    mapSome f (List.range n) = some rows ↔ rows.length = n ∧ ∀ i, i < n → f i = some (rows.getD i []) := by
  rw [mapSome_eq_some, List.forall₂_iff_get]
  simp only [List.length_range, List.get_eq_getElem, List.getElem_range]
  constructor
  · rintro ⟨h1, h2⟩
    refine ⟨h1.symm, fun j hj => ?_⟩
    rw [h2 j hj (by omega), List.getD_eq_getElem _ _ (by omega)]
  · rintro ⟨h1, h2⟩
    refine ⟨h1.symm, fun j hj hj' => ?_⟩
    rw [h2 j hj, List.getD_eq_getElem _ _ hj']

theorem getD_mem_length {n : Nat} {rows : List (List Int)} (h : ∀ i, i < rows.length → (rows.getD i []).length = n) :
    ∀ y ∈ rows, y.length = n := by
  intro y hy
  obtain ⟨i, hi, rfl⟩ := List.mem_iff_getElem.1 hy
  have := h i hi
  rwa [List.getD_eq_getElem _ _ hi] at this

/-- The forward two-pass computation answers `ob` exactly when 45 R200 holds with some T. -/
theorem fwd2d_eq_some {p : FwdParams} {col row : Kernel} {B : Widths} {ib pb ob : List Int}
    (hn : 0 < p.n) (hcol : ∀ X, Answers p.n (col B X)) (hrow : ∀ X, Answers p.n (row B X)) :
    fwd2d p col row B ib pb = some ob ↔ ob.length = p.n * p.n ∧
      ∃ T, ForwardRun p.n p.pre p.adj (p.width B) p.mid p.fin col row B (elemAt p.n ib) T
        (fun r c => ix ob (r * p.n + c)) := by
  unfold fwd2d
  simp only [bind_some_iff]
  constructor
  · rintro ⟨tc, h1, rows, h2, h3⟩
    obtain ⟨hl1, hc⟩ := mapSome_range_list.1 h1
    obtain ⟨hl2, hr⟩ := mapSome_range_list.1 h2
    have h3 : rows.flatten = ob := Option.some.inj h3
    have hlen : ∀ y ∈ rows, y.length = p.n := getD_mem_length fun i hi =>
      ((fwdRow_eq_some hl1 hrow).1 (hr i (by omega))).1
    refine ⟨by rw [← h3, length_flatten hlen, hl2], fun r c => ix (tc.getD c []) r, ⟨fun i hi => ?_, fun i hi => ?_⟩⟩
    · exact ((fwdColumn_eq_some hn hcol).1 (hc i hi)).2
    · obtain ⟨_, y, hy, hj⟩ := (fwdRow_eq_some hl1 hrow).1 (hr i hi)
      refine ⟨y, hy, fun j hj' => ?_⟩
      have he : ix ob (i * p.n + j) = ix (rows.getD i []) j := by
        rw [← h3]
        exact ix_flatten hlen (by omega) hj'
      simp only [he]
      exact hj j hj'
  · rintro ⟨hl, T, hc, hr⟩
    have hcol' : ∀ i, i < p.n →
        fwdColumn p col B ib i = some ((List.range p.n).map fun r => T r i) := by
      intro i hi
      refine (fwdColumn_eq_some hn hcol).2 ⟨by simp, ?_⟩
      obtain ⟨y, hy, hj⟩ := hc i hi
      refine ⟨y, hy, fun j h => ?_⟩
      have he : ix ((List.range p.n).map fun r => T r i) j = T j i := by
        rw [ix_eq_getElem (by simpa using h)]
        simp
      rw [he]
      exact hj j h
    have htc : ∀ i, i < p.n → ((List.range p.n).map fun i => (List.range p.n).map fun r => T r i).getD i [] =
        (List.range p.n).map fun r => T r i := by
      intro i hi
      rw [List.getD_eq_getElem _ _ (by simpa using hi)]
      simp
    have hrow' : ∀ i, i < p.n →
        fwdRow p row B ((List.range p.n).map fun i => (List.range p.n).map fun r => T r i) i =
          some ((List.range p.n).map fun c => ix ob (i * p.n + c)) := by
      intro i hi
      refine (fwdRow_eq_some (by simp) hrow).2 ⟨by simp, ?_⟩
      obtain ⟨y, hy, hj⟩ := hr i hi
      refine ⟨y, ?_, fun j h => ?_⟩
      · rw [← hy]
        congr 1
        funext j
        unfold vec
        split
        · next h =>
          show ix (List.getD _ j []) i = T i j
          rw [htc j h, ix_eq_getElem (by simpa using hi)]
          simp
        · rfl
      · have he : ix ((List.range p.n).map fun c => ix ob (i * p.n + c)) j = ix ob (i * p.n + j) := by
          rw [ix_eq_getElem (by simpa using h)]
          simp
        rw [he]
        exact hj j h
    refine ⟨_, mapSome_range_list.2 ⟨by simp, fun i hi => (hcol' i hi).trans (congrArg some (htc i hi).symm)⟩, _,
      mapSome_range_list.2 ⟨(by simp : ((List.range p.n).map fun i => (List.range p.n).map fun c =>
        ix ob (i * p.n + c)).length = p.n), fun i hi => ?_⟩, ?_⟩
    · rw [hrow' i hi, List.getD_eq_getElem _ _ (by simpa using hi)]
      simp
    · refine congrArg some ?_
      have hlen : ∀ y ∈ ((List.range p.n).map fun i => (List.range p.n).map fun c => ix ob (i * p.n + c)),
          y.length = p.n := by
        intro y hy
        obtain ⟨i, _, rfl⟩ := List.mem_map.1 hy
        simp
      refine ext_ix (by rw [length_flatten hlen]; simp [hl]) fun k hk => ?_
      rw [length_flatten hlen] at hk
      simp only [List.length_map, List.length_range] at hk
      have hkd : k / p.n < p.n := Nat.div_lt_of_lt_mul hk
      have hkm := Nat.mod_lt k hn
      have hke : k = k / p.n * p.n + k % p.n := by
        have := Nat.div_add_mod k p.n
        rw [Nat.mul_comm] at this
        exact this.symm
      rw [hke, ix_flatten hlen (by simpa using hkd) hkm, List.getD_eq_getElem _ _ (by simpa using hkd)]
      simp only [List.getElem_map, List.getElem_range]
      rw [ix_eq_getElem (by simpa using hkm)]
      simp

/-- One row of the inverse's first pass. -/
theorem invRow_eq_some {n : Nat} {prep : Int → Int} {row : Kernel} {B : Widths} {ib : List Int} {i : Nat} {y : List Int}
    (hib : ∀ j, j < n → fitsS (elemAt n ib i j) B.ew = true) :
    invRow n prep row B ib i = some y ↔ row B (vec n fun j => prep (elemAt n ib i j)) = some y := by
  have hx : allSome (span 0 n fun j => (low B (elemAt n ib i j)).map prep) =
      some ((List.range n).map fun j => prep (elemAt n ib i j)) := by
    refine allSome_span.2 ⟨by simp, fun j hj => ?_⟩
    rw [Nat.zero_add, low_eq_some.2 ⟨hib j hj, rfl⟩, ix_eq_getElem (by simpa using hj)]
    simp
  unfold invRow
  rw [hx]
  show row B (ix ((List.range n).map fun j => prep (elemAt n ib i j))) = some y ↔ _
  rw [ix_eq_vec (n := n) (f := fun j => prep (elemAt n ib i j)) (by simp) fun j hj => by
    rw [ix_eq_getElem (by simpa using hj)]
    simp]

/-- The residual of the inverse two-pass computation, before the reconstruction. -/
theorem inv2d_eq_some {n : Nat} {prep round : Int → Int} {col row : Kernel} {bd : BitDepth} {ib pb ob : List Int}
    (hcol : ∀ X, Answers n (col (widths bd) X))
    (hib : ∀ i, i < n → ∀ j, j < n → fitsS (elemAt n ib i j) (widths bd).ew = true) :
    inv2d n prep round col row bd ib pb = some ob ↔
      ∃ T res, InverseRun n prep round col row (widths bd) (elemAt n ib) T res ∧
        ob = (List.range n).flatMap fun r => (List.range n).map fun c => reconstruct bd (elemAt n pb r c) (res r c) := by
  have hflat : ∀ f g : Nat → Nat → Int, (∀ r, r < n → ∀ c, c < n → f r c = g r c) →
      ((List.range n).flatMap fun r => (List.range n).map fun c => f r c) =
        (List.range n).flatMap fun r => (List.range n).map fun c => g r c := by
    intro f g h
    rw [flatMap_range_map, flatMap_range_map]
    refine List.map_congr_left fun k hk => ?_
    have hk := List.mem_range.1 hk
    have hn : 0 < n := by
      rcases Nat.eq_zero_or_pos n with rfl | h0
      · simp at hk
      · exact h0
    exact h _ (Nat.div_lt_of_lt_mul hk) _ (Nat.mod_lt k hn)
  unfold inv2d
  simp only [bind_some_iff]
  constructor
  · rintro ⟨t, h1, rc, h2, h3⟩
    obtain ⟨hl1, hr⟩ := mapSome_range_list.1 h1
    obtain ⟨hl2, hc⟩ := mapSome_range_list.1 h2
    have h3 := Option.some.inj h3
    refine ⟨fun r c => ix (t.getD r []) c, fun r c => round (ix (rc.getD c []) r), ⟨fun i hi => ?_, fun i hi => ?_⟩,
      h3.symm⟩
    · exact ⟨_, (invRow_eq_some (hib i hi)).1 (hr i hi), fun _ _ => rfl⟩
    · refine ⟨_, ?_, fun _ _ => rfl⟩
      rw [← hc i hi]
      unfold invColumn
      congr 1
      funext j
      unfold vec
      split
      · rfl
      · rw [List.getD_eq_default _ _ (by omega)]
        rfl
  · rintro ⟨T, res, ⟨hr, hc⟩, hob⟩
    choose yr hyr hT using hr
    choose yc hyc hres using hc
    refine ⟨(List.range n).attach.map fun i => yr i.1 (List.mem_range.1 i.2), mapSome_range_list.2 ⟨by simp,
      fun i hi => ?_⟩, (List.range n).attach.map fun i => yc i.1 (List.mem_range.1 i.2),
      mapSome_range_list.2 ⟨by simp, fun i hi => ?_⟩, ?_⟩
    · rw [List.getD_eq_getElem _ _ (by simpa using hi)]
      simp only [List.getElem_map, List.getElem_attach, List.getElem_range]
      exact (invRow_eq_some (hib i hi)).2 (hyr i hi)
    · rw [List.getD_eq_getElem _ _ (by simpa using hi)]
      simp only [List.getElem_map, List.getElem_attach, List.getElem_range]
      rw [← hyc i hi]
      unfold invColumn
      congr 1
      funext j
      unfold vec
      split
      · next hj =>
        rw [List.getD_eq_getElem _ _ (by simpa using hj)]
        simp only [List.getElem_map, List.getElem_attach, List.getElem_range]
        exact (hT j hj i hi).symm
      · next hj =>
        rw [List.getD_eq_default _ _ (by simpa using hj)]
        rfl
    · rw [hob]
      refine congrArg some (hflat _ _ fun r hr c hc => ?_)
      rw [hres c hc r hr, List.getD_eq_getElem _ _ (by simpa using hc)]
      simp only [List.getElem_map, List.getElem_attach, List.getElem_range]

theorem vec_congr {n : Nat} {f g : Nat → Int} (h : ∀ j, j < n → f j = g j) : vec n f = vec n g := by
  funext j
  unfold vec
  split
  · exact h j ‹_›
  · rfl

/-- 45 R200 speaks of the input block inside the block only. -/
theorem ForwardRun.congr {n : Nat} {pre : Int} {adj : Bool} {chk : Nat} {mid fin : Int → Int} {col row : Kernel}
    {B : Widths} {ib ib' T ob : Nat → Nat → Int} (hn : 0 < n)
    (hi : ∀ r, r < n → ∀ c, c < n → ib r c = ib' r c)
    (h : ForwardRun n pre adj chk mid fin col row B ib T ob) :
    ForwardRun n pre adj chk mid fin col row B ib' T ob := by
  have hp : ∀ i, i < n → ∀ j, j < n → preScaled pre adj ib i j = preScaled pre adj ib' i j := by
    intro i hi' j hj
    unfold preScaled
    rw [hi 0 hn 0 hn, hi j hj i hi']
  refine ⟨fun i hi' => ?_, h.rows⟩
  obtain ⟨y, h1, h2⟩ := h.columns i hi'
  refine ⟨y, by rw [← vec_congr (hp i hi')]; exact h1, fun j hj => ?_⟩
  rw [← hp i hi' j hj, ← hi j hj i hi']
  exact h2 j hj

/-- 46 R220 speaks of the input block inside the block only. -/
theorem InverseRun.congr {n : Nat} {prep final : Int → Int} {col row : Kernel} {B : Widths}
    {ib ib' T res : Nat → Nat → Int} (hi : ∀ r, r < n → ∀ c, c < n → ib r c = ib' r c)
    (h : InverseRun n prep final col row B ib T res) : InverseRun n prep final col row B ib' T res := by
  refine ⟨fun i hi' => ?_, h.columns⟩
  rw [vec_congr (g := fun j => prep (ib i j)) fun j hj => by rw [hi i hi' j hj]]
  exact h.rows i hi'

/-- IB of a forward command, sample by sample. -/
theorem elemAt_loadSrc_forward {n : Nat} {bd : BitDepth} {s : State} {r c : Nat} (hr : r < n) (hc : c < n) :
    elemAt n (Shape.loadSrc { family := .forward, n := n, bd := bd } s.latch s.mem) r c = resAt s r c :=
  ix_map_block (fun e => sext (8 * e.size) (s.mem.readN e.addr e.size)) hr hc

/-- IB of an inverse command, coefficient by coefficient. -/
theorem elemAt_loadSrc_inverse {n : Nat} {bd : BitDepth} {s : State} {r c : Nat} (hr : r < n) (hc : c < n) :
    elemAt n (Shape.loadSrc { family := .inverse, n := n, bd := bd } s.latch s.mem) r c =
      coefAt bd s.mem s.latch.src (r * n + c) := by
  rw [coefAt, ← coefSize_mul_eight]
  exact ix_map_block (fun e => sext (8 * e.size) (s.mem.readN e.addr e.size)) hr hc

/-- PB of an inverse command, pixel by pixel. -/
theorem elemAt_loadDst_inverse {n : Nat} {bd : BitDepth} {s : State} {r c : Nat} (hr : r < n) (hc : c < n) :
    elemAt n (Shape.loadDst { family := .inverse, n := n, bd := bd } s.latch s.mem) r c = pixAt bd s.mem s.latch r c :=
  ix_map_block (fun e => (s.mem.readN e.addr e.size : Int)) hr hc

/-- The rule's checks pass on the residual block of a state exactly when the computation answers. -/
theorem forwardRun_iff {p : FwdParams} {col row : Kernel} {bd : BitDepth} {s : State}
    (hn : 0 < p.n) (hcol : ∀ X, Answers p.n (col (widths bd) X)) (hrow : ∀ X, Answers p.n (row (widths bd) X)) :
    (∃ T ob, ForwardRun p.n p.pre p.adj (p.width (widths bd)) p.mid p.fin col row (widths bd) (resAt s) T ob) ↔
      (fwd2d p col row (widths bd)
        (Shape.loadSrc { family := .forward, n := p.n, bd := bd } s.latch s.mem) []).isSome = true := by
  rw [Option.isSome_iff_exists]
  constructor
  · rintro ⟨T, ob, h⟩
    refine ⟨(List.range (p.n * p.n)).map fun k => ob (k / p.n) (k % p.n), (fwd2d_eq_some hn hcol hrow).2
      ⟨by simp, T, ?_⟩⟩
    have h' := h.congr hn fun r hr c hc => (elemAt_loadSrc_forward (bd := bd) hr hc).symm
    refine ⟨h'.columns, fun i hi => ?_⟩
    obtain ⟨y, h1, h2⟩ := h'.rows i hi
    refine ⟨y, h1, fun j hj => ?_⟩
    have he : ix ((List.range (p.n * p.n)).map fun k => ob (k / p.n) (k % p.n)) (i * p.n + j) = ob i j := by
      rw [ix_eq_getElem (by simpa using index_lt hi hj)]
      simp [index_div hj, index_mod hj]
    simp only [he]
    exact h2 j hj
  · rintro ⟨ob, h⟩
    obtain ⟨_, T, h⟩ := (fwd2d_eq_some hn hcol hrow).1 h
    exact ⟨T, _, h.congr hn fun r hr c hc => elemAt_loadSrc_forward hr hc⟩

/-- The rule's checks pass on the coefficient block of a state exactly when the computation answers. -/
theorem inverseRun_iff {n : Nat} {prep round : Int → Int} {col row : Kernel} {bd : BitDepth} {s : State}
    (hcol : ∀ X, Answers n (col (widths bd) X)) :
    (∃ T res, InverseRun n prep round col row (widths bd)
      (fun r c => coefAt bd s.mem s.latch.src (r * n + c)) T res) ↔
      (inv2d n prep round col row bd
        (Shape.loadSrc { family := .inverse, n := n, bd := bd } s.latch s.mem) []).isSome = true := by
  have hib : ∀ i, i < n → ∀ j, j < n →
      fitsS (elemAt n (Shape.loadSrc { family := .inverse, n := n, bd := bd } s.latch s.mem) i j)
        (widths bd).ew = true := by
    intro i hi j hj
    rw [elemAt_loadSrc_inverse hi hj]
    exact fitsS_coefAt ..
  rw [Option.isSome_iff_exists]
  constructor
  · rintro ⟨T, res, h⟩
    exact ⟨_, (inv2d_eq_some hcol hib).2
      ⟨T, res, h.congr fun r hr c hc => (elemAt_loadSrc_inverse hr hc).symm, rfl⟩⟩
  · rintro ⟨ob, h⟩
    obtain ⟨T, res, h, _⟩ := (inv2d_eq_some hcol hib).1 h
    exact ⟨T, res, h.congr fun r hr c hc => elemAt_loadSrc_inverse hr hc⟩

end Sys2Proof.Machine
end

