-- ==== Sys2Proof/Tests/Slice0.lean ====
section
/-! SUPPORT. Tests. The expected values are those of spec/: the vectors V<n> of 95_test_vectors.md, the worked examples and the
encodings of 30 R101. One step each, on a small state. The theorems named witness_<statement> show states and operands that meet a
statement's hypotheses. -/

namespace Sys2Proof.Tests

-- The kernel evaluations below are many; one after another they need less memory.
set_option Elab.async false

open Sys2Proof.Machine

/-- The platform of the spec's vectors: 64 KiB of memory at address 0. -/
def plat64K : Platform :=
  { addrW := 32, regions := [{ base := 0, len := 0x10000, sizes := [1, 2, 4] }], hasIrq := false }

/-- Memory with the values `vs` stored as `size`-byte elements at `base`. -/
def put (base size : Nat) (vs : List Int) (m : Memory) : Memory := storeElems (vectorElems base size vs.length) vs m

/-- An engine whose command `w` is started on the descriptor. -/
def started (w src dst stride : Nat) (m : Memory) : State :=
  { State.reset with plat := plat64K, src := src, dst := dst, stride := BitVec.ofNat 32 stride, mem := m }.withFetchWord 32 w

/-- The state after one step. -/
def after (s : State) : State :=
  match step s with
  | .next t => t
  | _ => s

/-- The first `n` coefficients at DST. -/
def coefs (bd : BitDepth) (n : Nat) (s : State) : List Int := (List.range n).map (coefAt bd s.mem s.latch.dst)

/-- The first `k` pixels of the `n`-wide block at DST. -/
def pixels (bd : BitDepth) (n k : Nat) (s : State) : List Int :=
  (List.range k).map fun k => pixAt bd s.mem s.latch (k / n) (k % n)

/-- A kernel command on the 2-byte vector `v`: what stands at DST, and STATUS. -/
def kernelRun (w : Nat) (v : List Int) : List Int × Nat :=
  let s := after (started w 0x1000 0x2000 0 (put 0x1000 2 v []))
  (coefs .b8 v.length s, s.status.toNat)

/-- A forward block command on the 2-byte block `b` of size `n`: the first `k` coefficients, and STATUS. -/
def forwardRun (w n k : Nat) (b : List Int) : List Int × Nat :=
  let s := after (started w 0x1000 0x2000 n (put 0x1000 2 b []))
  (coefs .b8 k s, s.status.toNat)

/-- An inverse block command on 2-byte coefficients and 1-byte pixels of size `n`: the first `k` pixels, and STATUS. -/
def inverseRun (w n k : Nat) (c d : List Int) : List Int × Nat :=
  let s := after (started w 0x1000 0x2000 n (put 0x2000 1 d (put 0x1000 2 c [])))
  (pixels .b8 n k s, s.status.toNat)

/-- STATUS after one command on the 64 KiB platform (V90, V91). -/
def statusOf (w src dst stride : Nat) : Nat := (after (started w src dst stride [])).status.toNat

/-- The block B(N, bd) of the vectors' preamble, 95. -/
def blockB (n bd : Nat) : List Int :=
  (List.range n).flatMap fun r => (List.range n).map fun c =>
    ((97 * r + 61 * c + 29 * r * c + 13 : Nat) : Int) % (2 * (2 ^ bd - 1) + 1) - (2 ^ bd - 1)

/-- The block RAMP of V30. -/
def ramp : List Int := [1, 2, 3, 4, 5, 6, 7, 8, 9, 10, 11, 12, 13, 14, 15, 16]

/-- Q(N) of V57. -/
def blockQ (n : Nat) : List Int :=
  (List.range n).flatMap fun r => (List.range n).map fun c =>
    if r + c < 4 then (n : Int) * (((37 * r + 91 * c + 11 * r * c + 5 : Nat) : Int) % 401 - 200) else 0

def v16 : List Int := [10, 20, 30, 40, 50, 60, 70, 80, 90, 100, 110, 120, 130, 140, 150, 160]
def v32 : List Int := v16 ++ [170, 180, 190, 200, 210, 220, 230, 240, 250, 260, 270, 280, 290, 300, 310, 320]

/-! ## Ill-formed words: one for each clause of 30 R97 (V90) -/

theorem test_illegal_zeroField :
    wellFormedWord 0x00000403 = false ∧ clauseHolds .zeroField (rawFields 0x00000403) = true ∧ decode 0x00000403 = .error .zeroField ∧
    wellFormedWord 0x80000001 = false ∧ clauseHolds .zeroField (rawFields 0x80000001) = true ∧ decode 0x80000001 = .error .zeroField := by
  refine ⟨rfl, rfl, rfl, rfl, rfl, rfl⟩

theorem test_illegal_reservedOp :
    wellFormedWord 0x00000000 = false ∧ clauseHolds .reservedOp (rawFields 0x00000000) = true ∧ decode 0x00000000 = .error .reservedOp ∧
    wellFormedWord 0x0000000F = false ∧ clauseHolds .reservedOp (rawFields 0x0000000F) = true ∧ decode 0x0000000F = .error .reservedOp := by
  refine ⟨rfl, rfl, rfl, rfl, rfl, rfl⟩

theorem test_illegal_reservedDepth :
    wellFormedWord 0x00000303 = false ∧ clauseHolds .reservedDepth (rawFields 0x00000303) = true ∧ decode 0x00000303 = .error .reservedDepth := by
  refine ⟨rfl, rfl, rfl⟩

theorem test_illegal_reservedKernel :
    wellFormedWord 0x000000C1 = false ∧ clauseHolds .reservedKernel (rawFields 0x000000C1) = true ∧ decode 0x000000C1 = .error .reservedKernel := by
  refine ⟨rfl, rfl, rfl⟩

theorem test_illegal_adst32 :
    wellFormedWord 0x00000071 = false ∧ clauseHolds .adst32 (rawFields 0x00000071) = true ∧ decode 0x00000071 = .error .adst32 ∧
    wellFormedWord 0x00000072 = false ∧ clauseHolds .adst32 (rawFields 0x00000072) = true ∧ decode 0x00000072 = .error .adst32 := by
  refine ⟨rfl, rfl, rfl, rfl, rfl, rfl⟩

theorem test_illegal_whtSize :
    wellFormedWord 0x00000091 = false ∧ clauseHolds .whtSize (rawFields 0x00000091) = true ∧ decode 0x00000091 = .error .whtSize := by
  refine ⟨rfl, rfl, rfl⟩

theorem test_illegal_type32 :
    wellFormedWord 0x00000073 = false ∧ clauseHolds .type32 (rawFields 0x00000073) = true ∧ decode 0x00000073 = .error .type32 ∧
    wellFormedWord 0x000000F4 = false ∧ clauseHolds .type32 (rawFields 0x000000F4) = true ∧ decode 0x000000F4 = .error .type32 := by
  refine ⟨rfl, rfl, rfl, rfl, rfl, rfl⟩

theorem test_illegal_dcBits :
    wellFormedWord 0x00000045 = false ∧ clauseHolds .dcBits (rawFields 0x00000045) = true ∧ decode 0x00000045 = .error .dcBits ∧
    wellFormedWord 0x00000096 = false ∧ clauseHolds .dcBits (rawFields 0x00000096) = true ∧ decode 0x00000096 = .error .dcBits := by
  refine ⟨rfl, rfl, rfl, rfl, rfl, rfl⟩

theorem test_illegal_whtBlockBits :
    wellFormedWord 0x00000017 = false ∧ clauseHolds .whtBlockBits (rawFields 0x00000017) = true ∧ decode 0x00000017 = .error .whtBlockBits ∧
    wellFormedWord 0x00000048 = false ∧ clauseHolds .whtBlockBits (rawFields 0x00000048) = true ∧ decode 0x00000048 = .error .whtBlockBits := by
  refine ⟨rfl, rfl, rfl, rfl, rfl, rfl⟩

/-! ## Decoding: each row's word written out from 30 R101 and V100 -/

theorem test_decode_forward_kernels :
    decode 0x00000001 = .ok (.fdct4 .b8) ∧ decode 0x00000111 = .ok (.fdct8 .b10) ∧ decode 0x00000221 = .ok (.fdct16 .b12) ∧
    decode 0x00000231 = .ok (.fdct32 .b12) ∧ decode 0x00000041 = .ok (.fadst4 .b8) ∧ decode 0x00000051 = .ok (.fadst8 .b8) ∧
    decode 0x00000061 = .ok (.fadst16 .b8) ∧ decode 0x00000081 = .ok (.fwht4 .b8) :=
  ⟨rfl, rfl, rfl, rfl, rfl, rfl, rfl, rfl⟩

theorem test_decode_inverse_kernels :
    decode 0x00000002 = .ok (.idct4 .b8) ∧ decode 0x00000012 = .ok (.idct8 .b8) ∧ decode 0x00000122 = .ok (.idct16 .b10) ∧
    decode 0x00000232 = .ok (.idct32 .b12) ∧ decode 0x00000042 = .ok (.iadst4 .b8) ∧ decode 0x00000152 = .ok (.iadst8 .b10) ∧
    decode 0x00000062 = .ok (.iadst16 .b8) ∧ decode 0x00000182 = .ok (.iwht4 .b10) :=
  ⟨rfl, rfl, rfl, rfl, rfl, rfl, rfl, rfl⟩

theorem test_decode_blocks :
    decode 0x00000043 = .ok (.fht4 .adstDct .b8) ∧ decode 0x000000C3 = .ok (.fht4 .adstAdst .b8) ∧
    decode 0x00000053 = .ok (.fht8 .adstDct .b8) ∧ decode 0x000002E3 = .ok (.fht16 .adstAdst .b12) ∧
    decode 0x00000233 = .ok (.fht32 .b12) ∧ decode 0x00000084 = .ok (.iht4Add .dctAdst .b8) ∧
    decode 0x00000014 = .ok (.iht8Add .dctDct .b8) ∧ decode 0x000001A4 = .ok (.iht16Add .dctAdst .b10) ∧
    decode 0x00000034 = .ok (.iht32Add .b8) :=
  ⟨rfl, rfl, rfl, rfl, rfl, rfl, rfl, rfl, rfl⟩

theorem test_decode_dc_and_wht :
    decode 0x00000205 = .ok (.fdc4 .b12) ∧ decode 0x00000015 = .ok (.fdc8 .b8) ∧ decode 0x00000025 = .ok (.fdc16 .b8) ∧
    decode 0x00000035 = .ok (.fdc32 .b8) ∧ decode 0x00000006 = .ok (.idc4Add .b8) ∧ decode 0x00000016 = .ok (.idc8Add .b8) ∧
    decode 0x00000026 = .ok (.idc16Add .b8) ∧ decode 0x00000136 = .ok (.idc32Add .b10) ∧
    decode 0x00000007 = .ok (.fwht4x4 .b8) ∧ decode 0x00000108 = .ok (.iwht4x4Add .b10) :=
  ⟨rfl, rfl, rfl, rfl, rfl, rfl, rfl, rfl, rfl, rfl⟩

theorem test_decodeTableWord : decodeTableWord 32 0x1A4 = some (.iht16Add .dctAdst .b10) ∧ decodeTableWord 32 0x400 = none :=
  ⟨rfl, rfl⟩

/-- 30 R104, the lines of P1 and P4. -/
theorem test_asmLine :
    asmLine (.fht4 .dctDct .b8) 0x1000 0x1100 4 = "FHT4 DCT_DCT, bd=8, src=0x1000, dst=0x1100, stride=4" ∧
    asmLine (.idct4 .b10) 0x4020 0x4040 0 = "IDCT4 bd=10, src=0x4020, dst=0x4040" := by decide +kernel

/-! ## Primitives (V1 to V4) -/

theorem test_rs :
    rs (widths .b8) 8191 = some 0 ∧ rs (widths .b8) 8193 = some 1 ∧ rs (widths .b8) (-24577) = some (-2) ∧
    rs (widths .b8) (2147483647 - 8191) = none ∧ rs (widths .b10) (2147483647 - 8191) = some 131072 := by decide +kernel

theorem test_rnd : rnd (-25) 4 = -2 ∧ rnd 24 4 = 2 ∧ rnd (-32) 6 = 0 ∧ asr (-5) 2 = -2 := by decide +kernel

theorem test_low :
    low (widths .b8) 32767 = some 32767 ∧ low (widths .b8) 32768 = none ∧ low (widths .b8) (-32768) = some (-32768) ∧
    low (widths .b8) (-32769) = none ∧ acc (widths .b8) 2147483648 = none := by decide +kernel

/-! ## Kernel commands (V10 to V17, V20 to V27), STATUS 2 = DONE -/

/-- V10 -/
theorem test_fdct4 : kernelRun 0x01 [100, 50, -20, 7] =
    ([97, 113, 54, -29], 2) := by decide +kernel

/-- V11 -/
theorem test_fdct8 : kernelRun 0x11 [100, 50, -20, 7, 0, -64, 31, 12] =
    ([82, 128, 160, 22, 86, 45, -112, 37], 2) := by decide +kernel

/-- V12 -/
theorem test_fdct16 : kernelRun 0x21 v16 =
    ([962, -517, 0, -57, 0, -20, 0, -10, 0, -5, 0, -3, 0, -2, 0, -1], 2) := by decide +kernel

/-- V13 -/
theorem test_fdct32 : kernelRun 0x31 v32 =
    ([3733, -2073, 0, -230, 0, -83, 0, -42, 0, -25, 0, -15, 0, -11, 0, -8, 0, -5, 0, -5, 0, -3, 0, -3, 0, -2, 0, -1, 0,
      -1, 0, 0], 2) := by decide +kernel

/-- V14 -/
theorem test_fadst4 : kernelRun 0x41 [100, 50, -20, 7] =
    ([53, 117, 97, -4], 2) := by decide +kernel

/-- V15 -/
theorem test_fadst8 : kernelRun 0x51 [100, 50, -20, 7, 0, -64, 31, 12] =
    ([4, 29, 145, 50, 118, 172, -19, 67], 2) := by decide +kernel

/-- V16 -/
theorem test_fadst16 : kernelRun 0x61 v16 =
    ([1088, -98, 51, -14, 18, -4, 9, -1, 7, 1, 5, 1, 4, 1, 3, 2], 2) := by decide +kernel

/-- V17 -/
theorem test_fwht4 : kernelRun 0x81 [10, -3, 7, 2] =
    ([8, -1, 4, 9], 2) := by decide +kernel

/-- V20 -/
theorem test_idct4 : kernelRun 0x02 [100, 50, -20, 7] =
    ([106, 98, 72, 8], 2) := by decide +kernel

/-- V21 -/
theorem test_idct8 : kernelRun 0x12 [100, 50, -20, 7, 0, -64, 31, 12] =
    ([85, 131, 125, 19, 137, 89, -61, 43], 2) := by decide +kernel

/-- V22 -/
theorem test_idct16 : kernelRun 0x22 v16 =
    ([694, -687, 300, -255, 167, -151, 109, -97, 75, -65, 49, -41, 29, -22, 11, -4], 2) := by decide +kernel

/-- V23 -/
theorem test_idct32 : kernelRun 0x32 v32 =
    ([2572, -2695, 1174, -1036, 686, -629, 478, -447, 358, -340, 286, -269, 226, -216, 187, -174, 156, -145, 128, -118,
      105, -94, 82, -74, 63, -56, 45, -38, 28, -22, 9, -6], 2) := by decide +kernel

/-- V24 -/
theorem test_iadst4 : kernelRun 0x42 [100, 50, -20, 7] =
    ([59, 101, 104, 38], 2) := by decide +kernel

/-- V25 -/
theorem test_iadst8 : kernelRun 0x52 [100, 50, -20, 7, 0, -64, 31, 12] =
    ([4, 29, 145, 50, 118, 172, -19, 67], 2) := by decide +kernel

/-- V26 -/
theorem test_iadst16 : kernelRun 0x62 v16 =
    ([1088, -98, 51, -14, 18, -4, 9, -1, 7, 1, 5, 1, 4, 1, 3, 2], 2) := by decide +kernel

/-- V27 -/
theorem test_iwht4 : kernelRun 0x82 [8, -1, 4, 9] =
    ([10, -3, 7, 2], 2) := by decide +kernel

/-- V80: RANGE at bd = 8, STATUS 0x12; at bd = 10 the exact result. -/
theorem test_idct4_range :
    (after (started 0x02 0x1000 0x2000 0 (put 0x1000 2 [32767, 0, 32767, 0] []))).status = 0x12 ∧
    coefs .b10 4 (after (started 0x102 0x1000 0x2000 0 (put 0x1000 4 [32767, 0, 32767, 0] []))) =
      [46339, 0, 0, 46339] := by decide +kernel

/-- V83, V82: the kernels on out-of-domain inputs at bd = 8, and those that are stored. -/
theorem test_range_extremes :
    ([(0x81, [32767, -32768, -32768, 32767]), (0x41, [32767, 32767, 32767, 32767]), (0x42, [32767, 32767, 32767, 32767]),
      (0x82, [32767, -32768, 32767, -32768]), (0x12, [32767, 32767, 0, 0, 0, 0, 0, 0]), (0x11, List.replicate 8 32767),
      (0x52, List.replicate 8 (-32768))].all fun p =>
        (after (started p.1 0x1000 0x2000 0 (put 0x1000 2 p.2 []))).status.toNat = 0x12) = true ∧
    kernelRun 0x42 [-32768, 0, 0, 0] = ([-10566, -19858, -26754, -30424], 2) ∧
    kernelRun 0x52 [-32768, 0, 0, 0, 0, 0, 0, 0] =
      ([-3212, -9512, -15446, -20787, -25329, -28898, -31357, -32610], 2) := by decide +kernel

/-! ## Forward blocks -/

/-- V30, all four types. -/
theorem test_fht4 :
    forwardRun 0x03 4 16 ramp = ([272, -36, 0, -3, -143, 0, 0, 0, 0, 0, 0, 0, -10, 0, 0, 0], 2) ∧
    forwardRun 0x43 4 16 ramp = ([303, -34, 0, -2, -51, -10, 0, -1, 5, -5, 0, -1, -7, -2, 0, 0], 2) ∧
    forwardRun 0x83 4 16 ramp = ([268, 46, 30, 10, -135, -41, -20, -9, 0, 0, 0, 0, -9, -3, -2, -1], 2) ∧
    forwardRun 0xC3 4 16 ramp = ([297, 57, 35, 13, -45, -24, -10, -5, 6, -3, 0, -1, -6, -4, -1, -1], 2) := by
  decide +kernel

/-- V31: the adjustment of the first sample, for -1. -/
theorem test_fht4_adjustment :
    forwardRun 0x03 4 16 [-1] = ([-2, -3, -2, -1, -3, -3, -3, -1, -2, -3, -2, -1, -1, -2, -1, -1], 2) := by decide +kernel

/-- V33, the first two rows. -/
theorem test_fht8 : forwardRun 0x13 8 16 (blockB 8 8) =
    ([227, -1195, 277, -119, -511, 371, -668, -527, -1511, -209, -1341, -597, 540, -498, -466, 2534], 2) := by
  decide +kernel

/-- V34: row 0 and position (15, 15), on the computation alone. -/
theorem test_fht16 :
    (fwd2d (fht16Params .dctDct) fdct16 fdct16 (widths .b8) (blockB 16 8) []).map (fun o => (o.take 16, ix o 255)) =
      some ([931, 423, -207, -634, 1, 637, -1027, 588, -511, 346, -686, 1430, 0, -30, -41, 171], 1406) := by
  decide +kernel

/-- 45 R206: the two boundary roundings differ at -2. -/
theorem test_fht16_mid : (fht16Params .dctDct).mid (-2) = -1 ∧ (fht16Params .adstDct).mid (-2) = 0 := by decide +kernel

/-- 45 R207: the corner cases of MID and FIN. -/
theorem test_fht32_roundings :
    [0, 1, 2, -1, -2, -3].map fht32Params.mid = [0, 0, 1, 0, -1, -1] ∧
    [-2, -3, -4, 2, 3].map fht32Params.fin = [0, -1, -1, 0, 1] := by decide +kernel

/-- V91's stride rule at N = 32. -/
theorem test_fht32_stride : statusOf 0x33 0x1000 0x2000 31 = 0x06 := by decide +kernel

/-- V41 and V47. -/
theorem test_fwht4x4 :
    forwardRun 0x07 4 16 ramp = ([136, -16, 0, -8, -64, 0, 0, 0, 0, 0, 0, 0, -32, 0, 0, 0], 2) ∧
    forwardRun 0x07 4 16 (List.replicate 16 (-255)) = (-4080 :: List.replicate 15 0, 2) := by decide +kernel

/-! ## Inverse blocks -/

/-- V50: onto an all-250 destination. -/
theorem test_iht4Add :
    inverseRun 0x04 4 16 [272, -36, 0, -3, -143, 0, 0, 0, 0, 0, 0, 0, -10, 0, 0, 0] (List.replicate 16 250) =
      ([251, 252, 253, 254] ++ List.replicate 12 255, 2) := by decide +kernel

/-- V57: Q(4) through the two mixed types, and V55's axis check. -/
theorem test_iht4Add_types :
    inverseRun 0x44 4 16 (blockQ 4) (List.replicate 16 128) =
      ([54, 45, 73, 89, 90, 79, 121, 130, 91, 85, 129, 115, 96, 97, 141, 108], 2) ∧
    inverseRun 0x84 4 16 (blockQ 4) (List.replicate 16 128) =
      ([85, 25, 51, 62, 117, 91, 130, 135, 115, 97, 131, 113, 115, 107, 141, 111], 2) ∧
    inverseRun 0xC4 4 4 (blockQ 4) (List.replicate 16 128) = ([93, 48, 54, 66], 2) := by decide +kernel

/-- V57: Q(8), row 0, DCT_DCT and DCT_ADST. -/
theorem test_iht8Add :
    inverseRun 0x14 8 8 (blockQ 8) (List.replicate 64 128) = ([31, 17, 8, 22, 50, 73, 78, 74], 2) ∧
    inverseRun 0x94 8 8 (blockQ 8) (List.replicate 64 128) = ([119, 88, 40, 7, 10, 33, 43, 40], 2) := by decide +kernel

/-- 46 R227: the DC impulse 32639. -/
theorem test_iht16Add : inverseRun 0x24 16 16 [32639] [] = (List.replicate 16 255, 2) := by decide +kernel

/-- 46 R228: the row pass of the DC impulse 32639, its first column, and the final rounding; the whole is 255. -/
theorem test_iht32Add :
    invRow 32 id idct32 (widths .b8) [32639] 0 = some (List.replicate 32 23079) ∧
    idct32 (widths .b8) (ix [23079]) = some (List.replicate 32 16319) ∧
    rnd 16319 (finalShift 32) = 255 := by decide +kernel

/-- V91's alignment rule: 4-byte coefficients at bd = 12 need SRC a multiple of 4. -/
theorem test_iht32Add_alignment : statusOf 0x234 0x1002 0x2000 32 = 0x06 := by decide +kernel

/-- V41 onto an all-100 destination, and V46. -/
theorem test_iwht4x4Add :
    inverseRun 0x08 4 4 [136, -16, 0, -8, -64, 0, 0, 0, 0, 0, 0, 0, -32, 0, 0, 0] (List.replicate 16 100) =
      ([101, 102, 103, 104], 2) ∧
    inverseRun 0x08 4 16 [-1] (List.replicate 16 10) =
      ([10, 10, 10, 10, 10, 9, 9, 9, 10, 9, 9, 9, 10, 9, 9, 9], 2) := by decide +kernel

/-! ## DC-only commands (V70, V71) -/

theorem test_fdc4 : forwardRun 0x05 4 1 ramp = ([272], 2) ∧ forwardRun 0x05 4 2 [-3] = ([-6, 0], 2) := by decide +kernel

theorem test_fdc8 : forwardRun 0x15 8 1 (blockB 8 8) = ([227], 2) := by decide +kernel

theorem test_fdc16 : forwardRun 0x25 16 1 [-3] = ([-2], 2) := by decide +kernel

theorem test_fdc32 : forwardRun 0x35 32 1 [-3] = ([-1], 2) ∧ forwardRun 0x35 32 1 [7] = ([0], 2) := by decide +kernel

/-- 48 R275: V = -80 onto the row (3, 4, 5, 200); V71: V = 1000. -/
theorem test_idc4Add :
    inverseRun 0x06 4 4 [-80] [3, 4, 5, 200] = ([1, 2, 3, 198], 2) ∧
    inverseRun 0x06 4 4 [1000] [100, 105, 110, 115] = ([131, 136, 141, 146], 2) := by decide +kernel

theorem test_idc8Add : inverseRun 0x16 8 8 [-1000] [100, 105, 110, 115, 120, 125, 130, 135] =
    ([84, 89, 94, 99, 104, 109, 114, 119], 2) := by decide +kernel

theorem test_idc16Add : inverseRun 0x26 16 8 [32639] [100] = (List.replicate 8 255, 2) := by decide +kernel

theorem test_idc32Add : inverseRun 0x36 32 2 [-32768] [255, 200] = ([0, 0], 2) := by decide +kernel

/-! ## Descriptor faults (V91) -/

theorem test_stride_and_alignment :
    statusOf 0x13 0x1000 0x2000 7 = 0x06 ∧ statusOf 0x11 0x1000 0x2000 0 = 0x02 ∧ statusOf 0x03 0x1001 0x2000 4 = 0x06 ∧
    statusOf 0x103 0x1000 0x2002 4 = 0x06 ∧ statusOf 0x03 0x1000 0x2002 4 = 0x02 ∧ statusOf 0x04 0x1000 0x2001 4 = 0x02 ∧
    statusOf 0x104 0x1000 0x2001 4 = 0x06 ∧ statusOf 0x104 0x1002 0x2000 4 = 0x06 := by decide +kernel

theorem test_admission :
    statusOf 0x03 0xFFE0 0x2000 4 = 0x02 ∧ statusOf 0x03 0xFFE2 0x2000 4 = 0x0A ∧ statusOf 0x03 0xFF00 0x2000 40 = 0x02 ∧
    statusOf 0x03 0xFF00 0x2000 50 = 0x0A ∧ statusOf 0x03 0x1000 0xFFE2 4 = 0x0A ∧ statusOf 0x05 0x1000 0xFFFE 4 = 0x02 ∧
    statusOf 0x105 0x1000 0xFFFE 4 = 0x06 ∧ statusOf 0x03 0x1000 0x2000 4294967295 = 0x0A ∧
    statusOf 0x303 0x1001 0xFFFFF 1 = 0x06 := by decide +kernel

/-! ## Witnesses: states and operands that meet the statements' hypotheses -/

/-- FHT4 DCT_DCT at bd = 8 on RAMP, started, nothing left for the host to do. -/
def busyFht4 : State := started 0x03 0x1000 0x2000 4 (put 0x1000 2 ramp [])

/-- The same engine idle before the start. -/
def idleEngine : State := { State.reset with plat := plat64K, src := 0x1000, dst := 0x2000, stride := 4, mem := put 0x1000 2 ramp [] }

/-- `s` with the host about to do `es`. -/
def withHost (es : List HostEvent) (s : State) : State := { s with host := es }

/-- The invariant does not speak of what the host is about to do. -/
theorem machineInv_withHost {s : State} (h : MachineInv s) (es : List HostEvent) : MachineInv (withHost es s) :=
  ⟨h.memory, h.space, h.reserved, h.registers, h.latched, h.exclusive, h.held, h.races⟩

theorem machineInv_idle (es : List HostEvent) : MachineInv (withHost es idleEngine) :=
  machineInv_withHost ⟨by decide +kernel, by decide +kernel, by decide +kernel, by decide +kernel, by decide +kernel,
    by decide +kernel, fun h => absurd h (by decide +kernel), fun _ h => absurd h List.not_mem_nil⟩ es

theorem machineInv_busy (es : List HostEvent) : MachineInv (withHost es busyFht4) :=
  machineInv_withHost ⟨by decide +kernel, by decide +kernel, by decide +kernel, by decide +kernel, by decide +kernel,
    by decide +kernel, fun _ => rfl, fun _ h => absurd h List.not_mem_nil⟩ es

theorem busyFht4_running : busyFht4.busy = true ∧ busyFht4.runningShape.isSome = true := by decide +kernel

theorem witness_EncodeOfDecode : decode 0x1A4 = .ok (.iht16Add .dctAdst .b10) := rfl

/-- Both parts, at a row whose mask leaves TXT free and at one that fixes it. -/
theorem witness_DecoderFollowsOpcodeMap :
    decode 0x2E4 = .ok (.iht16Add .adstAdst .b12) ∧
    (0x2E4 : Word) &&& (opcodeRow (.iht16Add .dctDct .b8)).2 = (opcodeRow (.iht16Add .dctDct .b8)).1 ∧
    ((0x2E4 : Word) >>> 8) &&& 3 ≠ 3 ∧
    (0x231 : Word) &&& (opcodeRow (.fdct32 .b8)).2 = (opcodeRow (.fdct32 .b8)).1 ∧ ((0x231 : Word) >>> 8) &&& 3 ≠ 3 := by
  decide +kernel

/-- The smallest word with a ZERO bit set. -/
theorem witness_LegalWordCount : 1024 ≤ (0x400 : Word).toNat := by decide

/-- An idle engine and a running command. -/
theorem witness_ResetAtAnyTime :
    (MachineInv (withHost [{ act := .reset, early := false }] idleEngine) ∧
      (withHost [{ act := .reset, early := false }] idleEngine).busy = false) ∧
    (MachineInv (withHost [{ act := .reset, early := true }] busyFht4) ∧
      (withHost [{ act := .reset, early := true }] busyFht4).busy = true ∧
      (withHost [{ act := .reset, early := true }] busyFht4).runningShape.isSome = true) :=
  ⟨⟨machineInv_idle _, by decide +kernel⟩, machineInv_busy _, busyFht4_running⟩

/-- No host action, a waiting one, and an early one behind a refused command (STRIDE 3); and a placed word. -/
theorem witness_StepRunsDecodedInstruction :
    (busyFht4.busy = true ∧ decode busyFht4.latch.cmd = .ok (.fht4 .dctDct .b8) ∧ busyFht4.host = []) ∧
    (∀ e ∈ (withHost [{ act := .readReg .src, early := false }] busyFht4).host.head?, e.early = true →
      (shapeOf (.fht4 .dctDct .b8)).check busyFht4.plat busyFht4.latch ≠ none) ∧
    ((started 0x03 0x1000 0x2000 3 []).busy = true ∧
      decode (started 0x03 0x1000 0x2000 3 []).latch.cmd = .ok (.fht4 .dctDct .b8) ∧
      (shapeOf (.fht4 .dctDct .b8)).check plat64K (started 0x03 0x1000 0x2000 3 []).latch ≠ none) ∧
    ((0x2E4 : Nat) < 2 ^ 32 ∧ decode (BitVec.ofNat 32 0x2E4) = .ok (.iht16Add .adstAdst .b12)) :=
  ⟨⟨by decide +kernel, rfl, rfl⟩, by decide +kernel, ⟨by decide +kernel, rfl, by decide +kernel⟩, by decide, rfl⟩

theorem witness_CommandStart :
    (withHost [{ act := .writeReg .cmd 0x03, early := false }] idleEngine).busy = false := by decide +kernel

/-- At the largest addresses and STRIDE. -/
theorem witness_LaunchStartsCommand :
    (withHost (launch (.fht8 .adstDct .b8) 0xFFFFFFFF 0xFFFFFFFF 0xFFFFFFFF ++ []) idleEngine).busy = false ∧
    (0xFFFFFFFF : Nat) < 2 ^ idleEngine.plat.addrW ∧ (0xFFFFFFFF : Nat) < 2 ^ 32 := by decide +kernel

/-- One descriptor for each branch, at the boundaries of V91: STRIDE 7 for N = 8; SRC odd; the footprint one element past the
end of memory; the footprint ending at it. -/
theorem witness_DescriptorChecksInOrder :
    ((shapeOf (.fht8 .dctDct .b8)).family ≠ .kernel ∧
      (started 0x13 0x1000 0x2000 7 []).latch.stride.toNat < (shapeOf (.fht8 .dctDct .b8)).n) ∧
    (¬ (started 0x03 0x1001 0x2000 4 []).latch.stride.toNat < (shapeOf (.fht4 .dctDct .b8)).n ∧
      (started 0x03 0x1001 0x2000 4 []).latch.src % (shapeOf (.fht4 .dctDct .b8)).srcSize ≠ 0) ∧
    ((shapeOf (.fht4 .dctDct .b8)).strideOk (started 0x03 0xFFE2 0x2000 4 []).latch = true ∧
      (shapeOf (.fht4 .dctDct .b8)).alignOk (started 0x03 0xFFE2 0x2000 4 []).latch = true ∧
      ∃ e, (e ∈ (shapeOf (.fht4 .dctDct .b8)).readElems (started 0x03 0xFFE2 0x2000 4 []).latch ∨
          e ∈ (shapeOf (.fht4 .dctDct .b8)).dstElems (started 0x03 0xFFE2 0x2000 4 []).latch) ∧
        ¬ (e.addr + e.size ≤ 2 ^ plat64K.addrW ∧ ∃ r ∈ plat64K.regions,
            r.base ≤ e.addr ∧ e.addr + e.size ≤ r.base + r.len ∧ e.size ∈ r.sizes)) ∧
    (∀ e, (e ∈ (shapeOf (.fht4 .dctDct .b8)).readElems (started 0x03 0xFFE0 0x2000 4 []).latch ∨
        e ∈ (shapeOf (.fht4 .dctDct .b8)).dstElems (started 0x03 0xFFE0 0x2000 4 []).latch) →
      e.addr + e.size ≤ 2 ^ plat64K.addrW ∧ ∃ r ∈ plat64K.regions,
        r.base ≤ e.addr ∧ e.addr + e.size ≤ r.base + r.len ∧ e.size ∈ r.sizes) := by
  refine ⟨by decide +kernel, by decide +kernel, ⟨by decide +kernel, by decide +kernel,
    { addr := 0x10000, size := 2 }, by decide +kernel, by decide +kernel⟩, ?_⟩
  have h : ∀ e ∈ (shapeOf (.fht4 .dctDct .b8)).readElems (started 0x03 0xFFE0 0x2000 4 []).latch ++
      (shapeOf (.fht4 .dctDct .b8)).dstElems (started 0x03 0xFFE0 0x2000 4 []).latch,
      e.addr + e.size ≤ 2 ^ plat64K.addrW ∧ ∃ r ∈ plat64K.regions,
        r.base ≤ e.addr ∧ e.addr + e.size ≤ r.base + r.len ∧ e.size ∈ r.sizes := by decide +kernel
  exact fun e he => h e (List.mem_append.2 he)

theorem witness_IllegalWordRaisesCfg :
    (started 0x303 0x1000 0x2000 4 []).busy = true ∧ wellFormedWord (started 0x303 0x1000 0x2000 4 []).latch.cmd = false := by
  decide +kernel

theorem witness_BusyEngineCompletes :
    busyFht4.busy = true ∧ (∀ e ∈ (withHost [{ act := .reset, early := false }] busyFht4).host.head?, e.early = false) := by
  decide +kernel

/-- Idle and running; the bits at the ends of 1..5. -/
theorem witness_StatusWriteClearsOnes :
    (withHost [{ act := .writeReg .status 0xFFFFFFF9, early := false }] idleEngine).busy = false ∧
    ((withHost [{ act := .writeReg .status 0x22, early := true }] busyFht4).busy = true ∧
      (withHost [{ act := .writeReg .status 0x22, early := true }] busyFht4).runningShape.isSome = true) ∧
    (1 : Nat) ≠ FaultBit.cfg.code := by decide +kernel

/-- The four parts: a dropped write, the same command with and without PROTO (undisturbed, no free value drawn), a read, a write of
STATUS. -/
theorem witness_ProtocolViolation :
    (busyFht4.busy = true ∧ busyFht4.runningShape.isSome = true ∧ Reg.cmd ≠ .status) ∧
    (∃ u v, exec (.fht4 .dctDct .b8) busyFht4 = .next u ∧
      exec (.fht4 .dctDct .b8) { busyFht4 with status := busyFht4.status ||| 32 } = .next v ∧
      busyFht4.raced = [] ∧ u.free = busyFht4.free) ∧
    (withHost [{ act := .readReg .src, early := true }] busyFht4).runningShape.isSome = true ∧
    (withHost [{ act := .writeReg .status 0x20, early := true }] busyFht4).runningShape.isSome = true :=
  ⟨by decide +kernel, ⟨_, _, rfl, rfl, rfl, by decide +kernel⟩, by decide +kernel, by decide +kernel⟩

/-- V93: PROTO is raised, SRC keeps its value, the command goes on. -/
theorem test_proto :
    let t := after (withHost [{ act := .writeReg .src 0x3000, early := true }] busyFht4)
    (t.src, t.status, t.latch = busyFht4.latch, (after t).status) = (0x1000, 0x21, True, 0x22) := by
  simp only [Prod.mk.injEq, eq_iff_iff, iff_true]
  decide +kernel

/-- The largest values that the registers hold. -/
theorem witness_RegisterReadBack :
    idleEngine.busy = false ∧ (0xFFFFFFFF : Nat) < 2 ^ idleEngine.plat.addrW ∧ (0xFFFFFFFF : Nat) < 2 ^ 32 := by decide +kernel

/-- By a write of 1, and by reset. -/
theorem witness_OnlyHostClearsFaults :
    (∃ t, step (withHost [{ act := .writeReg .status 4, early := false }] { idleEngine with status := 6 }) = .next t ∧
      ({ idleEngine with status := 6 } : State).faultSet .cfg = true ∧ t.faultSet .cfg = false) ∧
    (∃ t, step (withHost [{ act := .reset, early := true }] { busyFht4 with status := 0x21 }) = .next t ∧
      ({ busyFht4 with status := 0x21 } : State).faultSet .proto = true ∧ t.faultSet .proto = false) :=
  ⟨⟨_, rfl, by decide +kernel, by decide +kernel⟩, _, rfl, by decide +kernel, by decide +kernel⟩

theorem witness_OnlyCmdWriteStarts :
    ∃ t, step (withHost [{ act := .writeReg .cmd 0x03, early := false }] idleEngine) = .next t ∧
      idleEngine.busy = false ∧ t.busy = true :=
  ⟨_, rfl, by decide +kernel, by decide +kernel⟩

/-- By completion, and by reset. -/
theorem witness_BusyFallsByCompletionOrReset :
    (∃ t, step busyFht4 = .next t ∧ busyFht4.busy = true ∧ t.busy = false) ∧
    (∃ t, step (withHost [{ act := .reset, early := true }] busyFht4) = .next t ∧ t.busy = false) :=
  ⟨⟨_, rfl, by decide +kernel, by decide +kernel⟩, _, rfl, by decide +kernel⟩

theorem witness_CompletionLineFollowsDone :
    ({ idleEngine with plat := { plat64K with hasIrq := true } } : State).plat.hasIrq = true ∧
    idleEngine.plat.hasIrq = false := by decide +kernel

/-- The three sizes, the largest value of each. -/
theorem witness_StoreIsLittleEndian :
    idleEngine.mem.wf = true ∧ (0xFF : Nat) < 2 ^ (8 * 1) ∧ (0xFFFF : Nat) < 2 ^ (8 * 2) ∧ (0xFFFFFFFF : Nat) < 2 ^ (8 * 4) := by
  decide +kernel

/-- The last word of memory. -/
theorem witness_HostLoadAfterStore :
    MachineInv (withHost [{ act := .writeMem 0xFFFC 4 0xFFFFFFFF, early := false }, { act := .readMem 0xFFFC 4, early := false }]
      idleEngine) ∧ idleEngine.busy = false ∧ Platform.admits idleEngine.plat 0xFFFC 4 = true ∧
      (0xFFFFFFFF : Nat) < 256 ^ 4 :=
  ⟨machineInv_idle _, by decide +kernel, by decide +kernel, by decide +kernel⟩

theorem witness_RacedBytesAreUnspecified :
    (shapeOf (.fht4 .dctDct .b8)).check busyFht4.plat busyFht4.latch = none ∧ busyFht4.mem.wf = true ∧
    0x1000 ∈ (after (withHost [{ act := .writeMem 0x1000 1 7, early := true }] busyFht4)).raced := by decide +kernel

/-- The last byte of the write footprint. -/
theorem witness_EarlyLoadIsUnspecified :
    (withHost [{ act := .readMem 0x201F 1, early := true }] busyFht4).busy = true ∧
    0x201F ∈ (withHost [{ act := .readMem 0x201F 1, early := true }] busyFht4).writeBytes ∧
    0x2020 ∉ busyFht4.writeBytes ∧ Platform.admits busyFht4.plat 0x201F 1 = true := by decide +kernel

/-- At the tie and beside it. -/
theorem witness_RoundShift :
    (rs (widths .b8) 8192 = some 1 ∧ rs (widths .b8) (-8192) = some 0 ∧ (8192 : Int) % 16384 = 8192) ∧
    (rs (widths .b8) 8191 = some 0 ∧ rs (widths .b8) (-8191) = some 0 ∧ (8191 : Int) % 16384 ≠ 8192) := by decide +kernel

theorem witness_Fdct4OnElements :
    ∀ i, i < 4 → (-32768 : Int) ≤ ix [32768, -32768, 32768, -32768] i ∧ ix [32768, -32768, 32768, -32768] i ≤ 32768 := by
  decide +kernel

theorem witness_FourPointKernelValues :
    fadst4 (widths .b8) (ix [100, 50, -20, 7]) = some [53, 117, 97, -4] ∧
    fwht4 (widths .b8) (ix [10, -3, 7, 2]) = some [8, -1, 4, 9] ∧
    idct4 (widths .b8) (ix [100, 50, -20, 7]) = some [106, 98, 72, 8] ∧
    iadst4 (widths .b8) (ix [100, 50, -20, 7]) = some [59, 101, 104, 38] ∧
    iwht4 (widths .b8) (ix [8, -1, 4, 9]) = some [10, -3, 7, 2] := by decide +kernel

theorem witness_WhtKernelsAreInverse :
    (widths .b8).ew ≤ (widths .b8).aw ∧
    (∀ i, i < 4 → fitsS (ix [32767, -32768, 7, 2] i) (widths .b8).ew = true) ∧
    (fwht4 (widths .b8) (ix [32767, -32768, 7, 2])).isSome = true := by decide +kernel

/-- Every kernel of the statement answers, on the vectors of V11 to V26. -/
theorem witness_LargerKernelValues :
    (∀ k ∈ [fdct8, fadst8, idct8, iadst8], (k (widths .b8) (ix [100, 50, -20, 7, 0, -64, 31, 12])).isSome = true) ∧
    (∀ k ∈ [fdct16, fadst16, idct16, iadst16], (k (widths .b8) (ix v16)).isSome = true) ∧
    (∀ k ∈ [fdct32, idct32], (k (widths .b8) (ix v32)).isSome = true) := by
  simp only [List.forall_mem_cons, List.not_mem_nil, false_imp_iff, implies_true, and_true]
  exact ⟨by decide +kernel, by decide +kernel, by decide +kernel⟩

/-- The signal-flow graphs on the worked examples of 41 R151, R152, R161, R162 and 43 R178, R180. -/
theorem test_flows :
    flowOutput fdct8Flow [100, 50, -20, 7, 0, -64, 31, 12] = [82, 128, 160, 22, 86, 45, -112, 37] ∧
    flowOutput adst8Flow [100, 50, -20, 7, 0, -64, 31, 12] = [4, 29, 145, 50, 118, 172, -19, 67] ∧
    flowOutput idct8Flow [100, 50, -20, 7, 0, -64, 31, 12] = [85, 131, 125, 19, 137, 89, -61, 43] ∧
    flowOutput fdct16Flow v16 = [962, -517, 0, -57, 0, -20, 0, -10, 0, -5, 0, -3, 0, -2, 0, -1] ∧
    flowOutput adst16Flow v16 = [1088, -98, 51, -14, 18, -4, 9, -1, 7, 1, 5, 1, 4, 1, 3, 2] ∧
    flowOutput idct16Flow v16 = [694, -687, 300, -255, 167, -151, 109, -97, 75, -65, 49, -41, 29, -22, 11, -4] := by
  decide +kernel

/-- The 32-point graphs on the worked examples of 42 R170 and 44 R195. -/
theorem test_flows32 :
    flowOutput fdct32Flow v32 = [3733, -2073, 0, -230, 0, -83, 0, -42, 0, -25, 0, -15, 0, -11, 0, -8, 0, -5, 0, -5, 0, -3, 0, -3,
      0, -2, 0, -1, 0, -1, 0, 0] ∧
    flowOutput idct32Flow v32 = [2572, -2695, 1174, -1036, 686, -629, 478, -447, 358, -340, 286, -269, 226, -216, 187, -174, 156,
      -145, 128, -118, 105, -94, 82, -74, 63, -56, 45, -38, 28, -22, 9, -6] := by
  decide +kernel

/-- Two register files that differ above the kernel's inputs only. -/
theorem witness_KernelsReadTheirInputsOnly :
    (∀ i, i < 4 → ix [1, 2, 3, 4, 5] i = ix [1, 2, 3, 4, 6] i) ∧ ix [1, 2, 3, 4, 5] 4 ≠ ix [1, 2, 3, 4, 6] 4 := by
  decide +kernel

theorem witness_KernelsOfZero : ∀ i, i < 32 → (fun _ : Nat => (0 : Int)) i = 0 := fun _ _ => rfl

theorem witness_KernelsSameAtEveryDepth : (fdct8 (widths .b8) (ix [100, 50, -20, 7, 0, -64, 31, 12])).isSome = true := by
  decide +kernel

/-- At the ends of an element's range, on both paths. -/
theorem witness_InverseDctOfDcImpulse :
    fitsS (ix [-32768] 0) (widths .b8).ew = true ∧ fitsS (ix [2147483647] 0) (widths .b10).ew = true ∧
    ∀ i, i < 32 → 0 < i → ix [-32768] i = 0 := by decide +kernel

/-! ### The commands: an admitted state with output, and one with RANGE -/

/-- Command `w` on 2-byte (bd = 8) or 4-byte elements `v` at 0x1000, to 0x2000. -/
def launched (w size stride : Nat) (v : List Int) : State := started w 0x1000 0x2000 stride (put 0x1000 size v [])

/-- The kernel's outputs on the vector of `s` all fit an element: the hypotheses of `KernelEffect`'s first part. -/
def kernelFits (k : Kernel) (n : Nat) (s : State) : Bool :=
  match k (widths .b8) (vec n (coefAt .b8 s.mem s.latch.src)) with
  | some y => (List.range n).all fun j => fitsS (ix y j) (widths .b8).ew
  | none => false

theorem kernelFits_iff {k : Kernel} {n : Nat} {s : State} (h : kernelFits k n s = true) :
    ∃ y, k (widths .b8) (vec n (coefAt .b8 s.mem s.latch.src)) = some y ∧
      ∀ j, j < n → fitsS (ix y j) (widths .b8).ew = true := by
  unfold kernelFits at h
  split at h
  · next y hy => exact ⟨y, hy, fun j hj => List.all_eq_true.1 h j (List.mem_range.2 hj)⟩
  · cases h

theorem kernelFits_not {k : Kernel} {n : Nat} {s : State} (h : kernelFits k n s = false) :
    ∀ y, k (widths .b8) (vec n (coefAt .b8 s.mem s.latch.src)) = some y →
      ∃ j, j < n ∧ fitsS (ix y j) (widths .b8).ew = false := by
  intro y hy
  unfold kernelFits at h
  rw [hy] at h
  simpa using h

/-- Each command on the vector (1, 2, .., N): an output. -/
theorem witness_ForwardKernelCommands :
    ∀ p ∈ [(0x01, 4, fdct4),
      (0x11, 8, fdct8),
      (0x21, 16, fdct16),
      (0x31, 32, fdct32),
      (0x41, 4, fadst4),
      (0x51, 8, fadst8),
      (0x61, 16, fadst16),
      (0x81, 4, fwht4)],
      let s := launched p.1 2 0 (v32.map (· / 10) |>.take p.2.1)
      s.mem.wf = true ∧ s.raced = [] ∧ kernelFits p.2.2 p.2.1 s = true := by
  intro p hp
  simp only [List.mem_cons, List.not_mem_nil, or_false] at hp
  rcases hp with rfl | rfl | rfl | rfl | rfl | rfl | rfl | rfl <;> decide +kernel

theorem witness_ForwardKernelCommands_admitted (bd : BitDepth) :
    (shapeOf (.fdct4 bd)).check plat64K (launched 0x01 2 0 []).latch = none ∧
    (shapeOf (.fdct8 bd)).check plat64K (launched 0x11 2 0 []).latch = none ∧
    (shapeOf (.fdct16 bd)).check plat64K (launched 0x21 2 0 []).latch = none ∧
    (shapeOf (.fdct32 bd)).check plat64K (launched 0x31 2 0 []).latch = none ∧
    (shapeOf (.fadst4 bd)).check plat64K (launched 0x41 2 0 []).latch = none ∧
    (shapeOf (.fadst8 bd)).check plat64K (launched 0x51 2 0 []).latch = none ∧
    (shapeOf (.fadst16 bd)).check plat64K (launched 0x61 2 0 []).latch = none ∧
    (shapeOf (.fwht4 bd)).check plat64K (launched 0x81 2 0 []).latch = none := by
  cases bd <;> decide +kernel

/-- Each command on an extreme vector: RANGE (V80 to V83). -/
theorem witness_ForwardKernelCommands_range :
    ∀ p ∈ [(0x01, 4, fdct4, List.replicate 4 32767),
      (0x11, 8, fdct8, List.replicate 8 32767),
      (0x21, 16, fdct16, List.replicate 16 32767),
      (0x31, 32, fdct32, List.replicate 32 32767),
      (0x41, 4, fadst4, List.replicate 4 32767),
      (0x51, 8, fadst8, List.replicate 8 32767),
      (0x61, 16, fadst16, List.replicate 16 32767),
      (0x81, 4, fwht4, [32767, -32768, -32768, 32767])],
      kernelFits p.2.2.1 p.2.1 (launched p.1 2 0 p.2.2.2) = false := by
  intro p hp
  simp only [List.mem_cons, List.not_mem_nil, or_false] at hp
  rcases hp with rfl | rfl | rfl | rfl | rfl | rfl | rfl | rfl <;> decide +kernel

/-- Each command on the vector (1, 2, .., N): an output. -/
theorem witness_InverseKernelCommands :
    ∀ p ∈ [(0x02, 4, idct4),
      (0x12, 8, idct8),
      (0x22, 16, idct16),
      (0x32, 32, idct32),
      (0x42, 4, iadst4),
      (0x52, 8, iadst8),
      (0x62, 16, iadst16),
      (0x82, 4, iwht4)],
      let s := launched p.1 2 0 (v32.map (· / 10) |>.take p.2.1)
      s.mem.wf = true ∧ s.raced = [] ∧ kernelFits p.2.2 p.2.1 s = true := by
  intro p hp
  simp only [List.mem_cons, List.not_mem_nil, or_false] at hp
  rcases hp with rfl | rfl | rfl | rfl | rfl | rfl | rfl | rfl <;> decide +kernel

theorem witness_InverseKernelCommands_admitted (bd : BitDepth) :
    (shapeOf (.idct4 bd)).check plat64K (launched 0x02 2 0 []).latch = none ∧
    (shapeOf (.idct8 bd)).check plat64K (launched 0x12 2 0 []).latch = none ∧
    (shapeOf (.idct16 bd)).check plat64K (launched 0x22 2 0 []).latch = none ∧
    (shapeOf (.idct32 bd)).check plat64K (launched 0x32 2 0 []).latch = none ∧
    (shapeOf (.iadst4 bd)).check plat64K (launched 0x42 2 0 []).latch = none ∧
    (shapeOf (.iadst8 bd)).check plat64K (launched 0x52 2 0 []).latch = none ∧
    (shapeOf (.iadst16 bd)).check plat64K (launched 0x62 2 0 []).latch = none ∧
    (shapeOf (.iwht4 bd)).check plat64K (launched 0x82 2 0 []).latch = none := by
  cases bd <;> decide +kernel

/-- Each command on an extreme vector: RANGE (V80 to V83). -/
theorem witness_InverseKernelCommands_range :
    ∀ p ∈ [(0x02, 4, idct4, List.replicate 4 32767),
      (0x12, 8, idct8, [32767, 32767]),
      (0x22, 16, idct16, [32767, 32767]),
      (0x32, 32, idct32, [32767, 32767]),
      (0x42, 4, iadst4, List.replicate 4 32767),
      (0x52, 8, iadst8, List.replicate 8 32767),
      (0x62, 16, iadst16, List.replicate 16 32767),
      (0x82, 4, iwht4, [32767, -32768, 32767, -32768])],
      kernelFits p.2.2.1 p.2.1 (launched p.1 2 0 p.2.2.2) = false := by
  intro p hp
  simp only [List.mem_cons, List.not_mem_nil, or_false] at hp
  rcases hp with rfl | rfl | rfl | rfl | rfl | rfl | rfl | rfl <;> decide +kernel

theorem witness_Fht4Command :
    Admitted (.fht4 .adstDct .b8) (launched 0x43 2 4 ramp) ∧
    (∃ T ob, ForwardRun 4 16 true (widths .b8).ew (fun t => t) (fun t => (t + 1) / 4) fadst4 fdct4 (widths .b8)
      (resAt (launched 0x43 2 4 ramp)) T ob) ∧
    Admitted (.fht4 .adstDct .b8) (launched 0x43 2 4 [2048]) ∧
    ¬ ∃ T ob, ForwardRun 4 16 true (widths .b8).ew (fun t => t) (fun t => (t + 1) / 4) fadst4 fdct4 (widths .b8)
      (resAt (launched 0x43 2 4 [2048])) T ob := by
  have e : (fun t : Int => (t + 1) / 4) = fht4Params.fin := by
    funext t
    simp [fht4Params, asr]
  rw [e]
  refine ⟨⟨by decide +kernel, rfl, by decide +kernel⟩, ?_, ⟨by decide +kernel, rfl, by decide +kernel⟩, ?_⟩
  · exact (forwardRun_iff (p := fht4Params) (bd := .b8) (by decide) (fadst4_answers _) (fdct4_answers _)).2
      (by decide +kernel)
  · exact fun h => absurd ((forwardRun_iff (p := fht4Params) (bd := .b8) (by decide) (fadst4_answers _)
      (fdct4_answers _)).1 h) (by decide +kernel)

theorem witness_Fht8Command :
    Admitted (.fht8 .dctDct .b8) (launched 0x13 2 8 ramp) ∧
    (∃ T ob, ForwardRun 8 4 false (widths .b8).ew (fun t => t) (fun t => if t < 0 then (t + 1) / 2 else t / 2) fdct8 fdct8
      (widths .b8) (resAt (launched 0x13 2 8 ramp)) T ob) ∧
    Admitted (.fht8 .dctDct .b8) (launched 0x13 2 8 [8192]) ∧
    ¬ ∃ T ob, ForwardRun 8 4 false (widths .b8).ew (fun t => t) (fun t => if t < 0 then (t + 1) / 2 else t / 2) fdct8 fdct8
      (widths .b8) (resAt (launched 0x13 2 8 [8192])) T ob := by
  have e : (fun t : Int => if t < 0 then (t + 1) / 2 else t / 2) = fht8Params.fin := by
    funext t
    simp only [fht8Params, asr, asNum, decide_eq_true_eq]
    split <;> simp
  rw [e]
  refine ⟨⟨by decide +kernel, rfl, by decide +kernel⟩, ?_, ⟨by decide +kernel, rfl, by decide +kernel⟩, ?_⟩
  · exact (forwardRun_iff (p := fht8Params) (bd := .b8) (by decide) (fdct8_answers _) (fdct8_answers _)).2
      (by decide +kernel)
  · exact fun h => absurd ((forwardRun_iff (p := fht8Params) (bd := .b8) (by decide) (fdct8_answers _)
      (fdct8_answers _)).1 h) (by decide +kernel)

theorem fht16_mid_eq (tx : TxType) :
    (fun t : Int => if tx = .dctDct then (t + 1) / 4 else if t < 0 then (t + 2) / 4 else (t + 1) / 4) =
      (fht16Params tx).mid := by
  funext t
  simp only [fht16Params, asr, asNum, decide_eq_true_eq]
  split
  · rfl
  · split <;> simp [add_assoc]

/-- A block of zeros at size `n`, with T and the output zero, for a kernel that answers zeros: the checks of 45 R200 pass. -/
theorem zero_forwardRun {n chk : Nat} {pre : Int} {mid fin : Int → Int} {k : Kernel} {B : Widths} {s : State}
    (hk : k B (vec n fun _ => 0) = some (zeros n)) (hm : mid 0 = 0) (hf : fin 0 = 0) (hs : ∀ r c, resAt s r c = 0) :
    ForwardRun n pre false chk mid fin k k B (resAt s) (fun _ _ => 0) (fun _ _ => 0) := by
  have h0 : ∀ m, fitsS 0 m = true := fun m => by
    have : (0 : Int) < 2 ^ (m - 1) := by positivity
    simp only [fitsS, decide_eq_true_eq]
    omega
  have hz : ∀ j, ix (zeros n) j = 0 := fun j => by simp [ix, zeros, List.getD]
  have hp : ∀ i, preScaled pre false (resAt s) i = fun _ => 0 := fun i => by
    funext j
    simp [preScaled, hs]
  constructor
  · intro i _
    refine ⟨zeros n, by rw [hp]; exact hk, fun j _ => ?_⟩
    rw [hz, hp, hs, hm, Int.zero_mul]
    exact ⟨h0 _, h0 _, h0 _, rfl, h0 _⟩
  · intro i _
    refine ⟨zeros n, hk, fun j _ => ?_⟩
    rw [hz, hf]
    exact ⟨h0 _, rfl, h0 _⟩

theorem resAt_empty {s : State} (h : s.mem = []) (r c : Nat) : resAt s r c = 0 := by
  simp only [resAt, h, Memory.readN, Memory.read, Memory.unlisted]
  decide

theorem witness_Fht16Command :
    Admitted (.fht16 .adstAdst .b8) (launched 0xE3 2 16 []) ∧
    (∃ T ob, ForwardRun 16 4 false (widths .b8).ew
      (fun t => if TxType.adstAdst = .dctDct then (t + 1) / 4 else if t < 0 then (t + 2) / 4 else (t + 1) / 4)
      (fun t => t) fadst16 fadst16 (widths .b8) (resAt (launched 0xE3 2 16 [])) T ob) ∧
    Admitted (.fht16 .adstAdst .b8) (launched 0xE3 2 16 [8192]) ∧
    ¬ ∃ T ob, ForwardRun 16 4 false (widths .b8).ew
      (fun t => if TxType.adstAdst = .dctDct then (t + 1) / 4 else if t < 0 then (t + 2) / 4 else (t + 1) / 4)
      (fun t => t) fadst16 fadst16 (widths .b8) (resAt (launched 0xE3 2 16 [8192])) T ob := by
  refine ⟨⟨by decide +kernel, rfl, by decide +kernel⟩, ⟨_, _, zero_forwardRun (by decide +kernel) (by decide) rfl
    (resAt_empty rfl)⟩, ⟨by decide +kernel, rfl, by decide +kernel⟩, ?_⟩
  rintro ⟨T, ob, h⟩
  obtain ⟨y, _, hj⟩ := h.columns 0 (by decide)
  exact absurd (hj 0 (by decide)).1 (by decide +kernel)

/-- RANGE at N = 32, bd = 8: the first column of 32767s fails an `acc` check inside the kernel. -/
theorem witness_Fht32Command :
    Admitted (.fht32 .b8) (launched 0x33 2 32 []) ∧
    (∃ T ob, ForwardRun 32 4 false (widths .b8).aw (fun t => if 0 < t then (t + 2) / 4 else (t + 1) / 4)
      (fun t => if t < 0 then (t + 2) / 4 else (t + 1) / 4) fdct32 fdct32 (widths .b8)
      (resAt (launched 0x33 2 32 [])) T ob) ∧
    fdct32 (widths .b8) (vec 32 fun _ => 32767 * 4) = none :=
  ⟨⟨by decide +kernel, rfl, by decide +kernel⟩, ⟨_, _, zero_forwardRun (by decide +kernel) (by decide) (by decide)
    (resAt_empty rfl)⟩, by decide +kernel⟩

/-- FWHT4X4's pipeline as parameters of 45 R200. -/
def fwhtParams : FwdParams :=
  { n := 4, pre := 1, adj := false, wide := false, mid := fun t => t, fin := fun t => t * 4 }

theorem witness_Fwht4x4Command :
    Admitted (.fwht4x4 .b8) (launched 0x07 2 4 ramp) ∧
    (∃ T ob, ForwardRun 4 1 false (widths .b8).ew (fun t => t) (fun t => t * 4) fwht4 fwht4 (widths .b8)
      (resAt (launched 0x07 2 4 ramp)) T ob) ∧
    Admitted (.fwht4x4 .b8) (launched 0x07 2 4 (List.replicate 16 4096)) ∧
    ¬ ∃ T ob, ForwardRun 4 1 false (widths .b8).ew (fun t => t) (fun t => t * 4) fwht4 fwht4 (widths .b8)
      (resAt (launched 0x07 2 4 (List.replicate 16 4096))) T ob := by
  refine ⟨⟨by decide +kernel, rfl, by decide +kernel⟩, ?_, ⟨by decide +kernel, rfl, by decide +kernel⟩, ?_⟩
  · exact (forwardRun_iff (p := fwhtParams) (bd := .b8) (by decide) (fwht4_answers _) (fwht4_answers _)).2
      (by decide +kernel)
  · exact fun h => absurd ((forwardRun_iff (p := fwhtParams) (bd := .b8) (by decide) (fwht4_answers _)
      (fwht4_answers _)).1 h) (by decide +kernel)

/-- An inverse run on a state, and none on another, from the computations. -/
theorem inverse_witness {n : Nat} {prep final : Int → Int} {col row : Kernel} {s s' : State}
    (hcol : ∀ X, Answers n (col (widths .b8) X))
    (h : (inv2d n prep final col row .b8
      (Shape.loadSrc { family := .inverse, n := n, bd := .b8 } s.latch s.mem) []).isSome = true)
    (h' : (inv2d n prep final col row .b8
      (Shape.loadSrc { family := .inverse, n := n, bd := .b8 } s'.latch s'.mem) []).isSome = false) :
    (∃ T res, InverseRun n prep final col row (widths .b8) (fun r c => coefAt .b8 s.mem s.latch.src (r * n + c)) T res) ∧
    ¬ ∃ T res, InverseRun n prep final col row (widths .b8)
      (fun r c => coefAt .b8 s'.mem s'.latch.src (r * n + c)) T res :=
  ⟨(inverseRun_iff hcol).2 h, fun hn => by
    rw [(inverseRun_iff hcol).1 hn] at h'
    cases h'⟩

theorem witness_Iht4AddCommand :
    Admitted (.iht4Add .adstDct .b8) (launched 0x44 2 4 (blockQ 4)) ∧ Admitted (.iht4Add .adstDct .b8) (launched 0x44 2 4 [32767, 0, 32767, 0]) ∧
    (∃ T res, InverseRun 4 (fun v => v) (fun v => (v + 8) / 16) iadst4 idct4 (widths .b8)
      (fun r c => coefAt .b8 (launched 0x44 2 4 (blockQ 4)).mem (launched 0x44 2 4 (blockQ 4)).latch.src (r * 4 + c)) T res) ∧
    ¬ ∃ T res, InverseRun 4 (fun v => v) (fun v => (v + 8) / 16) iadst4 idct4 (widths .b8)
      (fun r c => coefAt .b8 (launched 0x44 2 4 [32767, 0, 32767, 0]).mem
        (launched 0x44 2 4 [32767, 0, 32767, 0]).latch.src (r * 4 + c)) T res :=
  ⟨⟨by decide +kernel, rfl, by decide +kernel⟩, ⟨by decide +kernel, rfl, by decide +kernel⟩,
    inverse_witness (iadst4_answers _) (by decide +kernel) (by decide +kernel)⟩

theorem witness_Iht8AddCommand :
    Admitted (.iht8Add .dctDct .b8) (launched 0x14 2 8 [1000, -7]) ∧ Admitted (.iht8Add .dctDct .b8) (launched 0x14 2 8 [32767, 32767]) ∧
    (∃ T res, InverseRun 8 (fun v => v) (fun v => (v + 16) / 32) idct8 idct8 (widths .b8)
      (fun r c => coefAt .b8 (launched 0x14 2 8 [1000, -7]).mem (launched 0x14 2 8 [1000, -7]).latch.src (r * 8 + c)) T res) ∧
    ¬ ∃ T res, InverseRun 8 (fun v => v) (fun v => (v + 16) / 32) idct8 idct8 (widths .b8)
      (fun r c => coefAt .b8 (launched 0x14 2 8 [32767, 32767]).mem
        (launched 0x14 2 8 [32767, 32767]).latch.src (r * 8 + c)) T res :=
  ⟨⟨by decide +kernel, rfl, by decide +kernel⟩, ⟨by decide +kernel, rfl, by decide +kernel⟩,
    inverse_witness (idct8_answers _) (by decide +kernel) (by decide +kernel)⟩

/-- On RAMP, and on a block of extreme coefficients (the widest output of the row pass is -16384). -/
theorem witness_Iwht4x4AddCommand :
    Admitted (.iwht4x4Add .b8) (launched 0x08 2 4 ramp) ∧
    Admitted (.iwht4x4Add .b8) (launched 0x08 2 4 (List.replicate 16 (-32768))) :=
  ⟨⟨by decide +kernel, rfl, by decide +kernel⟩, ⟨by decide +kernel, rfl, by decide +kernel⟩⟩

/-- Zero coefficients, with T and the residual zero, for a kernel that answers zeros. -/
theorem zero_inverseRun {n : Nat} {final : Int → Int} {k : Kernel} {B : Widths} {ib : Nat → Nat → Int}
    (hk : k B (vec n fun _ => 0) = some (zeros n)) (hf : final 0 = 0) (hs : ∀ r c, ib r c = 0) :
    InverseRun n (fun v => v) final k k B ib (fun _ _ => 0) (fun _ _ => 0) := by
  have hz : ∀ j, ix (zeros n) j = 0 := fun j => by simp [ix, zeros, List.getD]
  refine ⟨fun i _ => ⟨zeros n, ?_, fun j _ => (hz j).symm⟩, fun i _ => ⟨zeros n, hk, fun j _ => by rw [hz, hf]⟩⟩
  have : (fun j => ib i j) = fun _ => (0 : Int) := funext fun j => hs i j
  rw [this]
  exact hk

theorem coefAt_empty (base k : Nat) : coefAt .b8 [] base k = 0 := by
  simp only [coefAt, coefSize, widths, Memory.readN, Memory.read, Memory.unlisted]
  decide

/-- A first row of coefficients on which the row kernel fails. -/
theorem no_inverseRun {n : Nat} {final : Int → Int} {col row : Kernel} {B : Widths} {ib : Nat → Nat → Int} (hn : 0 < n)
    (hk : row B (vec n fun j => ib 0 j) = none) :
    ¬ ∃ T res, InverseRun n (fun v => v) final col row B ib T res := by
  rintro ⟨T, res, h⟩
  obtain ⟨y, hy, _⟩ := h.rows 0 hn
  rw [hk] at hy
  cases hy

theorem witness_Iht16AddCommand :
    Admitted (.iht16Add .dctDct .b8) (launched 0x24 2 16 []) ∧ Admitted (.iht16Add .dctDct .b8) (launched 0x24 2 16 [32767, 32767]) ∧
    (∃ T res, InverseRun 16 (fun v => v) (fun v => (v + 32) / 64) idct16 idct16 (widths .b8)
      (fun r c => coefAt .b8 (launched 0x24 2 16 []).mem (launched 0x24 2 16 []).latch.src (r * 16 + c)) T res) ∧
    ¬ ∃ T res, InverseRun 16 (fun v => v) (fun v => (v + 32) / 64) idct16 idct16 (widths .b8)
      (fun r c => coefAt .b8 (launched 0x24 2 16 [32767, 32767]).mem (launched 0x24 2 16 [32767, 32767]).latch.src
        (r * 16 + c)) T res :=
  ⟨⟨by decide +kernel, rfl, by decide +kernel⟩, ⟨by decide +kernel, rfl, by decide +kernel⟩,
    ⟨_, _, zero_inverseRun (by decide +kernel) (by decide) fun _ _ => coefAt_empty _ _⟩,
    no_inverseRun (by decide) (by decide +kernel)⟩

theorem witness_Iht32AddCommand :
    Admitted (.iht32Add .b8) (launched 0x34 2 32 []) ∧ Admitted (.iht32Add .b8) (launched 0x34 2 32 [32767, 32767]) ∧
    (∃ T res, InverseRun 32 (fun v => v) (fun v => (v + 32) / 64) idct32 idct32 (widths .b8)
      (fun r c => coefAt .b8 (launched 0x34 2 32 []).mem (launched 0x34 2 32 []).latch.src (r * 32 + c)) T res) ∧
    ¬ ∃ T res, InverseRun 32 (fun v => v) (fun v => (v + 32) / 64) idct32 idct32 (widths .b8)
      (fun r c => coefAt .b8 (launched 0x34 2 32 [32767, 32767]).mem (launched 0x34 2 32 [32767, 32767]).latch.src
        (r * 32 + c)) T res :=
  ⟨⟨by decide +kernel, rfl, by decide +kernel⟩, ⟨by decide +kernel, rfl, by decide +kernel⟩,
    ⟨_, _, zero_inverseRun (by decide +kernel) (by decide) fun _ _ => coefAt_empty _ _⟩,
    no_inverseRun (by decide) (by decide +kernel)⟩

/-- FDC4 at the boundary of an element: a sum of 16383 stores 32766, a sum of 16384 fails. FDC8 and FDC16 at theirs. -/
theorem witness_ForwardDcCommands :
    Admitted (.fdc4 .b8) (launched 0x05 2 4 [16383]) ∧
    fitsS (blockSum 4 (resAt (launched 0x05 2 4 [16383])) * 2) (widths .b8).ew = true ∧
    Admitted (.fdc4 .b8) (launched 0x05 2 4 [16383, 1]) ∧
    fitsS (blockSum 4 (resAt (launched 0x05 2 4 [16383, 1])) * 2) (widths .b8).ew = false ∧
    Admitted (.fdc8 .b8) (launched 0x15 2 8 [32767, 1]) ∧
    fitsS (blockSum 8 (resAt (launched 0x15 2 8 [32767, 1]))) (widths .b8).ew = false ∧
    Admitted (.fdc16 .b8) (launched 0x25 2 16 [-3]) ∧
    fitsS (blockSum 16 (resAt (launched 0x25 2 16 [-3])) / 2) (widths .b8).ew = true :=
  ⟨⟨by decide +kernel, rfl, by decide +kernel⟩, by decide +kernel, ⟨by decide +kernel, rfl, by decide +kernel⟩,
    by decide +kernel, ⟨by decide +kernel, rfl, by decide +kernel⟩, by decide +kernel,
    ⟨by decide +kernel, rfl, by decide +kernel⟩, by decide +kernel⟩

theorem witness_ForwardDcCommands32 :
    Admitted (.fdc32 .b8) (launched 0x35 2 32 [7]) ∧
    fitsS (blockSum 32 (resAt (launched 0x35 2 32 [7])) / 8) (widths .b8).ew = true :=
  ⟨⟨by decide +kernel, rfl, by decide +kernel⟩, by decide +kernel⟩

theorem witness_InverseDcCommands :
    Admitted (.idc4Add .b8) (launched 0x06 2 4 [-32768]) ∧ Admitted (.idc8Add .b8) (launched 0x16 2 8 [32767]) ∧
    Admitted (.idc16Add .b12) (launched 0x226 4 16 [2147483647]) ∧ Admitted (.idc32Add .b8) (launched 0x36 2 32 [-1]) :=
  ⟨⟨by decide +kernel, rfl, by decide +kernel⟩, ⟨by decide +kernel, rfl, by decide +kernel⟩,
    ⟨by decide +kernel, rfl, by decide +kernel⟩, ⟨by decide +kernel, rfl, by decide +kernel⟩⟩

theorem witness_StoredPixelsInRange :
    (shapeOf (.iht4Add .dctDct .b8)).readsDst = true ∧ Admitted (.iht4Add .dctDct .b8) (launched 0x04 2 4 (blockQ 4)) :=
  ⟨rfl, by decide +kernel, rfl, by decide +kernel⟩

theorem witness_InvariantKeptByStep : MachineInv (withHost [] busyFht4) ∧ ∃ t, step (withHost [] busyFht4) = .next t :=
  ⟨machineInv_busy _, _, rfl⟩

theorem witness_DcOnlyInverseIsFullInverse :
    (Admitted (.iht4Add .dctDct .b8) (launched 0x04 2 4 [-32768]) ∧
      ∀ k, k < 16 → 0 < k → coefAt .b8 (launched 0x04 2 4 [-32768]).mem (launched 0x04 2 4 [-32768]).latch.src k = 0) ∧
    (Admitted (.iht8Add .dctDct .b8) (launched 0x14 2 8 [1000]) ∧
      ∀ k, k < 64 → 0 < k → coefAt .b8 (launched 0x14 2 8 [1000]).mem (launched 0x14 2 8 [1000]).latch.src k = 0) ∧
    (Admitted (.iht16Add .dctDct .b8) (launched 0x24 2 16 [-1]) ∧
      ∀ k, k < 256 → 0 < k → coefAt .b8 (launched 0x24 2 16 [-1]).mem (launched 0x24 2 16 [-1]).latch.src k = 0) ∧
    (Admitted (.iht32Add .b8) (launched 0x34 2 32 [32767]) ∧
      ∀ k, k < 1024 → 0 < k → coefAt .b8 (launched 0x34 2 32 [32767]).mem (launched 0x34 2 32 [32767]).latch.src k = 0) :=
  ⟨⟨⟨by decide +kernel, rfl, by decide +kernel⟩, by decide +kernel⟩,
    ⟨⟨by decide +kernel, rfl, by decide +kernel⟩, by decide +kernel⟩,
    ⟨⟨by decide +kernel, rfl, by decide +kernel⟩, by decide +kernel⟩,
    ⟨⟨by decide +kernel, rfl, by decide +kernel⟩, by decide +kernel⟩⟩

/-- FWHT4X4 on RAMP to 0x2000, then IWHT4X4.ADD from there to 0x3000. -/
theorem witness_WhtRoundTripIsExact :
    ∃ t u, Admitted (.fwht4x4 .b8) (launched 0x07 2 4 ramp) ∧ exec (.fwht4x4 .b8) (launched 0x07 2 4 ramp) = .next t ∧
      t.faultSet .range = false ∧ u.mem = t.mem ∧ u.latch.src = (launched 0x07 2 4 ramp).latch.dst ∧
      Admitted (.iwht4x4Add .b8) u :=
  ⟨_, { after (launched 0x07 2 4 ramp) with latch := { cmd := 0x08, src := 0x2000, dst := 0x3000, stride := 4 } },
    ⟨by decide +kernel, rfl, by decide +kernel⟩, rfl, by decide +kernel, rfl, rfl,
    ⟨by decide +kernel, by decide +kernel, by decide +kernel⟩⟩

/-- A command that runs without RANGE on `s`. -/
def NoRange (i : Instr) (s : State) : Prop := ∃ t, exec i s = .next t ∧ t.faultSet .range = false

/-- A forward command of size `n` on a block of zeros. -/
theorem noRange_zeros {i : Instr} {p : FwdParams} {k : Kernel} {s : State} (ha : Admitted i s)
    (hi : exec i s = .next (runCommand { family := .forward, n := p.n, bd := .b8 } (fwd2d p k k (widths .b8)) s))
    (hsh : shapeOf i = { family := .forward, n := p.n, bd := .b8 }) (hn : 0 < p.n) (hp : p.adj = false)
    (hk : ∀ X, Answers p.n (k (widths .b8) X)) (h0 : k (widths .b8) (vec p.n fun _ => 0) = some (zeros p.n))
    (hm : p.mid 0 = 0) (hf : p.fin 0 = 0) (hs : s.mem = []) (hst : s.status = 1) : NoRange i s := by
  have hr := (forwardRun_iff (p := p) (bd := .b8) (s := s) hn hk hk).1
    ⟨_, _, hp ▸ zero_forwardRun h0 hm hf fun r c => resAt_empty hs r c⟩
  obtain ⟨ob, hob⟩ := Option.isSome_iff_exists.1 hr
  rw [← hsh] at hi hob
  refine ⟨_, hi, ?_⟩
  have := (cleanNext_of_some (f := fwd2d p k k (widths .b8)) ha hob).1.frame
  rw [this]
  simp only [State.faultSet, hst]
  decide

/-- Every command of the statement, at both depths. -/
theorem witness_ForwardSameAtEveryDepth :
    (Admitted (.fht4 .adstAdst .b12) (launched 0xC3 2 4 ramp) ∧ Admitted (.fht4 .adstAdst .b8) (launched 0xC3 2 4 ramp) ∧
      NoRange (.fht4 .adstAdst .b8) (launched 0xC3 2 4 ramp)) ∧
    (Admitted (.fht8 .adstDct .b12) (launched 0x53 2 8 ramp) ∧ Admitted (.fht8 .adstDct .b8) (launched 0x53 2 8 ramp) ∧
      NoRange (.fht8 .adstDct .b8) (launched 0x53 2 8 ramp)) ∧
    (Admitted (.fht16 .adstAdst .b12) (launched 0xE3 2 16 []) ∧ Admitted (.fht16 .adstAdst .b8) (launched 0xE3 2 16 []) ∧
      NoRange (.fht16 .adstAdst .b8) (launched 0xE3 2 16 [])) ∧
    (Admitted (.fht32 .b12) (launched 0x33 2 32 []) ∧ Admitted (.fht32 .b8) (launched 0x33 2 32 []) ∧
      NoRange (.fht32 .b8) (launched 0x33 2 32 [])) ∧
    (Admitted (.fwht4x4 .b12) (launched 0x07 2 4 ramp) ∧ Admitted (.fwht4x4 .b8) (launched 0x07 2 4 ramp) ∧
      NoRange (.fwht4x4 .b8) (launched 0x07 2 4 ramp)) :=
  ⟨⟨⟨by decide +kernel, rfl, by decide +kernel⟩, ⟨by decide +kernel, rfl, by decide +kernel⟩, _, rfl, by decide +kernel⟩,
    ⟨⟨by decide +kernel, rfl, by decide +kernel⟩, ⟨by decide +kernel, rfl, by decide +kernel⟩, _, rfl, by decide +kernel⟩,
    ⟨⟨by decide +kernel, rfl, by decide +kernel⟩, ⟨by decide +kernel, rfl, by decide +kernel⟩,
      noRange_zeros (p := fht16Params .adstAdst) (k := fadst16) ⟨by decide +kernel, rfl, by decide +kernel⟩ rfl rfl (by decide) rfl
        (fadst16_answers _) (by decide +kernel) (by decide) rfl rfl (by decide +kernel)⟩,
    ⟨⟨by decide +kernel, rfl, by decide +kernel⟩, ⟨by decide +kernel, rfl, by decide +kernel⟩,
      noRange_zeros (p := fht32Params) (k := fdct32) ⟨by decide +kernel, rfl, by decide +kernel⟩ rfl rfl (by decide) rfl
        (fdct32_answers _) (by decide +kernel) (by decide) (by decide) rfl (by decide +kernel)⟩,
    ⟨⟨by decide +kernel, rfl, by decide +kernel⟩, ⟨by decide +kernel, rfl, by decide +kernel⟩, _, rfl, by decide +kernel⟩⟩

theorem witness_ForwardSameAtEveryDepth_dc :
    (Admitted (.fdc4 .b12) (launched 0x05 2 4 ramp) ∧ Admitted (.fdc4 .b8) (launched 0x05 2 4 ramp) ∧
      NoRange (.fdc4 .b8) (launched 0x05 2 4 ramp)) ∧
    (Admitted (.fdc8 .b12) (launched 0x15 2 8 ramp) ∧ Admitted (.fdc8 .b8) (launched 0x15 2 8 ramp) ∧
      NoRange (.fdc8 .b8) (launched 0x15 2 8 ramp)) ∧
    (Admitted (.fdc16 .b12) (launched 0x25 2 16 ramp) ∧ Admitted (.fdc16 .b8) (launched 0x25 2 16 ramp) ∧
      NoRange (.fdc16 .b8) (launched 0x25 2 16 ramp)) ∧
    (Admitted (.fdc32 .b12) (launched 0x35 2 32 ramp) ∧ Admitted (.fdc32 .b8) (launched 0x35 2 32 ramp) ∧
      NoRange (.fdc32 .b8) (launched 0x35 2 32 ramp)) :=
  ⟨⟨⟨by decide +kernel, rfl, by decide +kernel⟩, ⟨by decide +kernel, rfl, by decide +kernel⟩, _, rfl, by decide +kernel⟩,
    ⟨⟨by decide +kernel, rfl, by decide +kernel⟩, ⟨by decide +kernel, rfl, by decide +kernel⟩, _, rfl, by decide +kernel⟩,
    ⟨⟨by decide +kernel, rfl, by decide +kernel⟩, ⟨by decide +kernel, rfl, by decide +kernel⟩, _, rfl, by decide +kernel⟩,
    ⟨⟨by decide +kernel, rfl, by decide +kernel⟩, ⟨by decide +kernel, rfl, by decide +kernel⟩, _, rfl, by decide +kernel⟩⟩

theorem legalResidual_zeros {n : Nat} {s : State} (h : s.mem = []) : legalResidual .b8 n s := fun r _ c _ => by
  rw [resAt_empty h]
  decide

/-- The largest legal samples at bd = 8, and blocks of zeros. -/
theorem witness_LegalBlocksRaiseNoRange :
    (Admitted (.fht4 .adstAdst .b8) (launched 0xC3 2 4 (List.replicate 16 (-255))) ∧
      legalResidual .b8 4 (launched 0xC3 2 4 (List.replicate 16 (-255)))) ∧
    (Admitted (.fwht4x4 .b8) (launched 0x07 2 4 (List.replicate 16 255)) ∧
      legalResidual .b8 4 (launched 0x07 2 4 (List.replicate 16 255))) ∧
    (Admitted (.fdc4 .b8) (launched 0x05 2 4 (List.replicate 16 255)) ∧
      legalResidual .b8 4 (launched 0x05 2 4 (List.replicate 16 255))) ∧
    (Admitted (.fdc8 .b8) (launched 0x15 2 8 (List.replicate 64 255)) ∧
      legalResidual .b8 8 (launched 0x15 2 8 (List.replicate 64 255))) ∧
    (Admitted (.fdc16 .b8) (launched 0x25 2 16 []) ∧ legalResidual .b8 16 (launched 0x25 2 16 [])) ∧
    (Admitted (.fdc32 .b8) (launched 0x35 2 32 []) ∧ legalResidual .b8 32 (launched 0x35 2 32 [])) :=
  ⟨⟨⟨by decide +kernel, rfl, by decide +kernel⟩, by unfold legalResidual; decide +kernel⟩,
    ⟨⟨by decide +kernel, rfl, by decide +kernel⟩, by unfold legalResidual; decide +kernel⟩,
    ⟨⟨by decide +kernel, rfl, by decide +kernel⟩, by unfold legalResidual; decide +kernel⟩,
    ⟨⟨by decide +kernel, rfl, by decide +kernel⟩, by unfold legalResidual; decide +kernel⟩,
    ⟨⟨by decide +kernel, rfl, by decide +kernel⟩, legalResidual_zeros rfl⟩,
    ⟨⟨by decide +kernel, rfl, by decide +kernel⟩, legalResidual_zeros rfl⟩⟩

/-- Two states that differ in STATUS, in SRC and in a byte outside the footprint. -/
theorem witness_OutcomeDependsOnInputsOnly :
    Admitted (.fht4 .dctDct .b8) busyFht4 ∧
    Admitted (.fht4 .dctDct .b8) { busyFht4 with status := 0x3D, src := 9, mem := busyFht4.mem.write 0x5000 1 } ∧
    (∀ a ∈ elemBytes ((shapeOf (.fht4 .dctDct .b8)).readElems busyFht4.latch),
      (busyFht4.mem.write 0x5000 1).read a = busyFht4.mem.read a) ∧ busyFht4.mem.write 0x5000 1 ≠ busyFht4.mem :=
  ⟨⟨by decide +kernel, rfl, by decide +kernel⟩, ⟨by decide +kernel, rfl, by decide +kernel⟩, by decide +kernel,
    by decide +kernel⟩

end Sys2Proof.Tests
end

-- ==== Proofs: STATUS, bit by bit ====
section
/-! The bits of STATUS after each of its updates (spec 10 R28, 60 R280 to R292): one rule for `updateStatus`, then what every
update of the engine and of the host does to BUSY, DONE, the fault bits and the reserved bits. -/

namespace Sys2Proof.Machine

/-- One instant of STATUS, bit by bit: the set wins over the clear (60 R286). -/
theorem getLsbD_updateStatus (w c u : Word) (k : Nat) :
    (updateStatus w c u).getLsbD k = ((w.getLsbD k && !c.getLsbD k) || u.getLsbD k) := by
  rcases Nat.lt_or_ge k 32 with hk | hk
  · simp [updateStatus, hk]
  · simp [BitVec.getLsbD_of_ge _ k hk]

theorem getLsbD_bitWord {k : Nat} (hk : k < 32) (j : Nat) : (bitWord k).getLsbD j = decide (j = k) := by
  rw [bitWord, BitVec.getLsbD_ofNat, Nat.testBit_two_pow]
  rcases eq_or_ne j k with rfl | hj
  · simp [hk]
  · simp [hj, hj.symm]

theorem FaultBit.two_le_code (f : FaultBit) : 2 ≤ f.code := by cases f <;> decide

theorem FaultBit.code_lt_six (f : FaultBit) : f.code < 6 := by cases f <;> decide

theorem getLsbD_clearable_code (f : FaultBit) : clearable.getLsbD f.code = true := by cases f <;> rfl

/-- The reserved bits 31:6 stay 0 when no bit to set is among them (10 R28). -/
theorem reserved_updateStatus {w c u : Word} (hw : w &&& 0xFFFFFFC0 = 0) (hu : u &&& 0xFFFFFFC0 = 0) :
    updateStatus w c u &&& 0xFFFFFFC0 = 0 := by
  have hsplit : updateStatus w c u &&& 0xFFFFFFC0 = ((w &&& 0xFFFFFFC0) &&& ~~~c) ||| (u &&& 0xFFFFFFC0) := by
    ext k hk
    simp only [updateStatus, BitVec.getElem_and, BitVec.getElem_or]
    grind
  rw [hsplit, hw, hu]
  simp

theorem reserved_bitWord_code (f : FaultBit) : bitWord f.code &&& 0xFFFFFFC0 = 0 := by cases f <;> rfl

/-! BUSY and DONE -/

@[simp] theorem busy_raise (f : FaultBit) (s : State) : (raise f s).busy = s.busy := by
  have hf := f.two_le_code
  have hf' := f.code_lt_six
  simp only [State.busy, raise_status, getLsbD_updateStatus, getLsbD_bitWord (show f.code < 32 by omega)]
  simp [show 0 ≠ f.code by omega]

@[simp] theorem done_raise (f : FaultBit) (s : State) : (raise f s).done = s.done := by
  have hf := f.two_le_code
  have hf' := f.code_lt_six
  simp only [State.done, raise_status, getLsbD_updateStatus, getLsbD_bitWord (show f.code < 32 by omega)]
  simp [show 1 ≠ f.code by omega]

@[simp] theorem busy_clearStatus (m : Word) (s : State) : (clearStatus m s).busy = s.busy := by
  simp only [State.busy, clearStatus_status, getLsbD_updateStatus]
  simp [clearable]

theorem done_of_done_clearStatus {m : Word} {s : State} (h : (clearStatus m s).done = true) : s.done = true := by
  simp only [State.done, clearStatus_status, getLsbD_updateStatus] at h ⊢
  simp_all

@[simp] theorem busy_start (w : Word) (s : State) : (start w s).busy = true := by
  simp only [State.busy, start_status, getLsbD_updateStatus, getLsbD_bitWord (show 0 < 32 by decide)]
  simp

@[simp] theorem done_start (w : Word) (s : State) : (start w s).done = false := by
  simp only [State.done, start_status, getLsbD_updateStatus, getLsbD_bitWord (show 0 < 32 by decide),
    getLsbD_bitWord (show 1 < 32 by decide)]
  simp

@[simp] theorem busy_complete (s : State) : (complete s).busy = false := by
  simp only [State.busy, complete_status, getLsbD_updateStatus, getLsbD_bitWord (show 0 < 32 by decide),
    getLsbD_bitWord (show 1 < 32 by decide)]
  simp

@[simp] theorem done_complete (s : State) : (complete s).done = true := by
  simp only [State.done, complete_status, getLsbD_updateStatus, getLsbD_bitWord (show 1 < 32 by decide)]
  simp

/-! The fault bits -/

@[simp] theorem faultSet_raise (f g : FaultBit) (s : State) :
    (raise f s).faultSet g = (s.faultSet g || decide (g.code = f.code)) := by
  have hf := f.code_lt_six
  simp [State.faultSet, getLsbD_updateStatus, getLsbD_bitWord (show f.code < 32 by omega)]

@[simp] theorem faultSet_clearStatus (m : Word) (f : FaultBit) (s : State) :
    (clearStatus m s).faultSet f = (s.faultSet f && !m.getLsbD f.code) := by
  simp [State.faultSet, getLsbD_updateStatus, getLsbD_clearable_code]

@[simp] theorem faultSet_start (w : Word) (f : FaultBit) (s : State) : (start w s).faultSet f = s.faultSet f := by
  have hf := f.two_le_code
  simp [State.faultSet, getLsbD_updateStatus, getLsbD_bitWord, show f.code ≠ 0 by omega, show f.code ≠ 1 by omega]

@[simp] theorem faultSet_complete (f : FaultBit) (s : State) : (complete s).faultSet f = s.faultSet f := by
  have hf := f.two_le_code
  simp [State.faultSet, getLsbD_updateStatus, getLsbD_bitWord, show f.code ≠ 0 by omega, show f.code ≠ 1 by omega]

end Sys2Proof.Machine
end

-- ==== Proofs: what a step can do ====
section
/-! What the engine's move and each move of the host can do to the registers, to STATUS and to the host's list, said once (spec 10 R34,
48 R255, R259, 60 R284, R292). -/

namespace Sys2Proof.Machine

/-- `t` is `s` after its running command came to its end, refused or not: BUSY falls, DONE rises, no fault bit falls, and but for
memory and STATUS only the model's own `raced` and `free` may change (48 R259). -/
structure Completes (s t : State) : Prop where
  plat     : t.plat = s.plat
  cmd      : t.cmd = s.cmd
  src      : t.src = s.src
  dst      : t.dst = s.dst
  stride   : t.stride = s.stride
  latch    : t.latch = s.latch
  host     : t.host = s.host
  hostData : t.hostData = s.hostData
  raced    : t.raced = []
  idle     : t.busy = false
  done     : t.done = true
  faults   : ∀ f, s.faultSet f = true → t.faultSet f = true

theorem completes_refuse (f : FaultBit) (s : State) : Completes s (refuse f s) where
  plat     := rfl
  cmd      := rfl
  src      := rfl
  dst      := rfl
  stride   := rfl
  latch    := rfl
  host     := rfl
  hostData := rfl
  raced    := rfl
  idle     := busy_complete _
  done     := done_complete _
  faults   := fun g hg => by simp [refuse, hg]

@[simp] theorem faultSet_freeBytes (as : List Nat) (f : FaultBit) (s : State) : (freeBytes as s).faultSet f = s.faultSet f := by
  simp [State.faultSet]

/-- However a command ends, it completes (48 R259). -/
theorem completes_runCommand (sh : Shape) (f : Computation) (s : State) : Completes s (runCommand sh f s) := by
  rcases runCommand_cases sh f s with ⟨fault, -, h⟩ | ⟨-, ob, -, h⟩ | ⟨-, -, h⟩
  · rw [h]
    exact completes_refuse fault s
  · rw [h]
    constructor
    case faults =>
      intro g hg
      rw [faultSet_complete]
      simpa [freeRaced, State.faultSet] using hg
    all_goals simp [freeRaced]
  · rw [h]
    constructor <;> simp +contextual [freeRaced]

/-- The engine's move completes the running command, whatever the latched word is (48 R259, 60 R281). -/
theorem engineStep_completes (s : State) : ∃ t, engineStep s = .next t ∧ Completes s t := by
  rcases engineStep_cases s with ⟨i, f, -, h⟩ | ⟨e, -, h⟩
  · exact ⟨_, h, completes_runCommand _ _ s⟩
  · exact ⟨_, h, completes_refuse _ s⟩

/-- Everything a host write of a register can do (10 R34, 60 R284, R292). -/
theorem writeReg_cases (r : Reg) (v : Nat) (s : State) :
    (r = .status ∧ writeReg r v s = clearStatus (BitVec.ofNat 32 v) s) ∨
    (s.busy = true ∧ writeReg r v s = raise .proto s) ∨
    (s.busy = false ∧ r = .cmd ∧ writeReg r v s = start (BitVec.ofNat 32 v) s) ∨
    (s.busy = false ∧ r = .src ∧ writeReg r v s = { s with src := v % 2 ^ s.plat.addrW }) ∨
    (s.busy = false ∧ r = .dst ∧ writeReg r v s = { s with dst := v % 2 ^ s.plat.addrW }) ∨
    (s.busy = false ∧ r = .stride ∧ writeReg r v s = { s with stride := BitVec.ofNat 32 v }) := by
  cases hb : s.busy <;> cases r <;> simp [writeReg, hb]

/-- Everything an action of the host can do, if it does not stop the machine. -/
theorem hostAct_cases {act : HostAction} {s t : State} (h : hostAct act s = .next t) :
    (∃ r v, act = .writeReg r v ∧ t = writeReg r v s) ∨
    (∃ r, act = .readReg r ∧ t = { s with hostData := readReg r s }) ∨
    (∃ a n u, act = .writeMem a n u ∧ Platform.admits s.plat a n = true ∧ t = hostStore a n u s) ∨
    (∃ a n, act = .readMem a n ∧ Platform.admits s.plat a n = true ∧ t = hostLoad a n s) ∨
    (act = .reset ∧ t = applyReset s) := by
  cases act with
  | writeReg r v =>
    cases h
    exact .inl ⟨r, v, rfl, rfl⟩
  | readReg r =>
    cases h
    exact .inr (.inl ⟨r, rfl, rfl⟩)
  | writeMem a n u =>
    simp only [hostAct] at h
    split at h
    · next ha =>
      cases h
      exact .inr (.inr (.inl ⟨a, n, u, rfl, ha, rfl⟩))
    · cases h
  | readMem a n =>
    simp only [hostAct] at h
    split at h
    · next ha =>
      cases h
      exact .inr (.inr (.inr (.inl ⟨a, n, rfl, ha, rfl⟩)))
    · cases h
  | reset =>
    cases h
    exact .inr (.inr (.inr (.inr ⟨rfl, rfl⟩)))

end Sys2Proof.Machine
end

-- ==== Proofs: the registers, BUSY and the fault bits over a step ====
section
/-! The registers after reset and as the host reads them back (spec 10 R23, R33, R34); who clears a fault bit, who raises BUSY and who
lowers it (10 R28, R29, 48 R255, R259, 60 R280, 70 R310). -/

namespace Sys2Proof.Machine

/-- An idle engine leaves the step to the host's next action (60 R299). -/
theorem step_of_idle {s : State} {e : HostEvent} {rest : List HostEvent} (hi : s.busy = false) (hh : s.host = e :: rest) :
    step s = hostAct e.act { s with host := rest } := by
  simp [step, hh, hi]

theorem run_two {s t u : State} (h1 : step s = .next t) (h2 : step t = .next u) : Host.Core.run core 2 s = .next u := by
  have h1' : core.step s = .next t := h1
  have h2' : core.step t = .next u := h2
  simp only [Host.Core.run, h1', h2']

@[simp] theorem applyReset_host (s : State) : (applyReset s).host = s.host := by simp [applyReset]

@[simp] theorem applyReset_plat (s : State) : (applyReset s).plat = s.plat := by simp [applyReset]

theorem applyReset_mem (s : State) : (applyReset s).mem = (freeBytes s.raced (freeBytes s.writeBytes s)).mem := rfl

@[simp] theorem applyReset_status (s : State) : (applyReset s).status = 0 := rfl

@[simp] theorem writeReg_host (r : Reg) (v : Nat) (s : State) : (writeReg r v s).host = s.host := by
  rcases writeReg_cases r v s with ⟨-, h⟩ | ⟨-, h⟩ | ⟨-, -, h⟩ | ⟨-, -, h⟩ | ⟨-, -, h⟩ | ⟨-, -, h⟩ <;> simp [h]

@[simp] theorem hostStore_status (a n u : Nat) (s : State) : (hostStore a n u s).status = s.status := rfl
@[simp] theorem hostStore_host (a n u : Nat) (s : State) : (hostStore a n u s).host = s.host := rfl
@[simp] theorem hostLoad_status (a n : Nat) (s : State) : (hostLoad a n s).status = s.status := rfl
@[simp] theorem hostLoad_host (a n : Nat) (s : State) : (hostLoad a n s).host = s.host := rfl

/-- No action of the host touches what the host does next. -/
theorem hostAct_host {act : HostAction} {s t : State} (h : hostAct act s = .next t) : t.host = s.host := by
  rcases hostAct_cases h with ⟨_, _, _, rfl⟩ | ⟨_, _, rfl⟩ | ⟨_, _, _, _, _, rfl⟩ | ⟨_, _, _, _, rfl⟩ | ⟨_, rfl⟩ <;> simp

/-- Only a register write or a reset touches STATUS (10 R28, 70 R310). -/
theorem hostAct_status {act : HostAction} {s t : State} (h : hostAct act s = .next t) :
    (∃ r v, act = .writeReg r v ∧ t = writeReg r v s) ∨ (act = .reset ∧ t.status = 0) ∨ t.status = s.status := by
  rcases hostAct_cases h with hw | ⟨_, _, rfl⟩ | ⟨_, _, _, _, _, rfl⟩ | ⟨_, _, _, _, rfl⟩ | ⟨hr, rfl⟩
  · exact .inl hw
  · exact .inr (.inr rfl)
  · exact .inr (.inr (hostStore_status ..))
  · exact .inr (.inr (hostLoad_status ..))
  · exact .inr (.inl ⟨hr, rfl⟩)

/-- Everything a step that answers can do: hold, complete the running command, or take the host's next action off its list. -/
theorem step_next_cases {s t : State} (h : step s = .next t) :
    (s.busy = false ∧ t = s) ∨ (s.busy = true ∧ Completes s t) ∨
    (∃ e rest, s.host = e :: rest ∧ t.host = rest ∧ (s.busy = true → e.early = true) ∧
      hostAct e.act { s with host := rest } = .next t) := by
  rcases step_cases s with ⟨-, hb, hs⟩ | ⟨hb, hs⟩ | ⟨e, rest, hh, he, hs⟩
  · rw [hs] at h
    cases h
    exact .inl ⟨hb, rfl⟩
  · obtain ⟨u, hu, hc⟩ := engineStep_completes s
    rw [hs, hu] at h
    cases h
    exact .inr (.inl ⟨hb, hc⟩)
  · rw [hs] at h
    exact .inr (.inr ⟨e, rest, hh, hostAct_host h, fun hb => (he hb).1, h⟩)

/-- A register write clears no fault bit but those that a write of 1 to STATUS clears (60 R292). -/
theorem writeReg_clears {r : Reg} {v : Nat} {s : State} {f : FaultBit} (hs : s.faultSet f = true)
    (ht : (writeReg r v s).faultSet f = false) : r = .status ∧ v.testBit f.code = true := by
  rcases writeReg_cases r v s with ⟨hr, h⟩ | ⟨-, h⟩ | ⟨-, -, h⟩ | ⟨-, -, h⟩ | ⟨-, -, h⟩ | ⟨-, -, h⟩ <;> rw [h] at ht
  case inl =>
    have hf := f.code_lt_six
    rw [faultSet_clearStatus, hs, BitVec.getLsbD_ofNat] at ht
    simpa [hr, show f.code < 32 by omega] using ht
  case inr.inl => simp [hs] at ht
  case inr.inr.inl => simp [hs] at ht
  -- a write of SRC, DST or STRIDE leaves STATUS as it is
  all_goals exact absurd (hs.symm.trans ht) (by decide)

/-- A register write raises BUSY only by a start. -/
theorem writeReg_raises_busy {r : Reg} {v : Nat} {s : State} (hs : s.busy = false) (ht : (writeReg r v s).busy = true) :
    r = .cmd ∧ writeReg r v s = start (BitVec.ofNat 32 v) s := by
  rcases writeReg_cases r v s with ⟨-, h⟩ | ⟨hb, -⟩ | ⟨-, hr, h⟩ | ⟨-, -, h⟩ | ⟨-, -, h⟩ | ⟨-, -, h⟩
  case inl => simp [h, hs] at ht
  case inr.inl => simp [hs] at hb
  case inr.inr.inl => exact ⟨hr, h⟩
  -- a write of SRC, DST or STRIDE leaves STATUS as it is
  all_goals
    rw [h] at ht
    exact absurd (hs.symm.trans ht) (by decide)

/-- No register write lowers BUSY (60 R292). -/
theorem writeReg_keeps_busy {r : Reg} {v : Nat} {s : State} (hs : s.busy = true) : (writeReg r v s).busy = true := by
  rcases writeReg_cases r v s with ⟨-, h⟩ | ⟨-, h⟩ | ⟨hb, -⟩ | ⟨hb, -⟩ | ⟨hb, -⟩ | ⟨hb, -⟩
  · rw [h, busy_clearStatus, hs]
  · rw [h, busy_raise, hs]
  all_goals simp [hs] at hb

theorem busy_of_status {s t : State} (h : t.status = s.status) : t.busy = s.busy := by rw [State.busy, h, State.busy]

theorem busy_of_status_zero {t : State} (h : t.status = 0) : t.busy = false := by rw [State.busy, h]; rfl

/-- Settles O7: every field of `State.reset` that 10 R33 speaks of is a literal 0. -/
theorem registersAfterReset : Obligations.RegistersAfterReset :=
  ⟨rfl, rfl, rfl, rfl, rfl, rfl, rfl, fun f => by cases f <;> rfl⟩

/-- A write of SRC to an idle engine (10 R34): a value within ADDR_W bits survives the cut to that width. -/
theorem step_writeSrc_of_idle {s : State} {v : Nat} {e : Bool} {rest : List HostEvent} (hi : s.busy = false)
    (hv : v < 2 ^ s.plat.addrW) (hh : s.host = { act := .writeReg .src v, early := e } :: rest) :
    step s = .next { s with src := v, host := rest } := by
  have hi' : State.busy { s with host := rest } = false := hi
  simp [step_of_idle hi hh, hostAct, writeReg, hi', Nat.mod_eq_of_lt hv]

/-- A write of DST to an idle engine (10 R34). -/
theorem step_writeDst_of_idle {s : State} {v : Nat} {e : Bool} {rest : List HostEvent} (hi : s.busy = false)
    (hv : v < 2 ^ s.plat.addrW) (hh : s.host = { act := .writeReg .dst v, early := e } :: rest) :
    step s = .next { s with dst := v, host := rest } := by
  have hi' : State.busy { s with host := rest } = false := hi
  simp [step_of_idle hi hh, hostAct, writeReg, hi', Nat.mod_eq_of_lt hv]

/-- A write of STRIDE to an idle engine (10 R34). -/
theorem step_writeStride_of_idle {s : State} {v : Nat} {e : Bool} {rest : List HostEvent} (hi : s.busy = false)
    (hh : s.host = { act := .writeReg .stride v, early := e } :: rest) :
    step s = .next { s with stride := BitVec.ofNat 32 v, host := rest } := by
  have hi' : State.busy { s with host := rest } = false := hi
  simp [step_of_idle hi hh, hostAct, writeReg, hi']

/-- A read of a register of an idle engine (10 R34). -/
theorem step_readReg_of_idle {s : State} {r : Reg} {e : Bool} {rest : List HostEvent} (hi : s.busy = false)
    (hh : s.host = { act := .readReg r, early := e } :: rest) :
    step s = .next { s with hostData := readReg r s, host := rest } := by
  rw [step_of_idle hi hh]
  cases r <;> rfl

/-- Settles O18: each access is one step of the host on an idle engine, and a write leaves the engine idle. -/
theorem registerReadBack : Obligations.RegisterReadBack := by
  intro s v e1 e2 rest hi
  refine ⟨fun hv hh => ?_, fun hv hh => ?_, fun hv hh => ?_, step_readReg_of_idle hi, step_readReg_of_idle hi,
    step_readReg_of_idle hi, step_readReg_of_idle hi, step_readReg_of_idle hi⟩
  · exact run_two (step_writeSrc_of_idle hi hv hh) (step_readReg_of_idle (r := .src) hi rfl)
  · exact run_two (step_writeDst_of_idle hi hv hh) (step_readReg_of_idle (r := .dst) hi rfl)
  · have hval : (BitVec.ofNat 32 v).toNat = v := by rw [BitVec.toNat_ofNat, Nat.mod_eq_of_lt hv]
    have hread := run_two (step_writeStride_of_idle hi hh) (step_readReg_of_idle (r := .stride) hi rfl)
    rwa [readReg, hval] at hread

/-- Settles O19: the engine's move keeps every fault bit, and of the host's actions only a reset and a write of 1 to the bit clear it. -/
theorem onlyHostClearsFaults : Obligations.OnlyHostClearsFaults := by
  intro s t f hst hs ht
  rcases step_next_cases hst with ⟨-, rfl⟩ | ⟨-, hc⟩ | ⟨e, rest, hh, hrest, -, hact⟩
  · simp [hs] at ht
  · simp [hc.faults f hs] at ht
  · refine ⟨e, rest, hh, hrest, ?_⟩
    rcases hostAct_status hact with ⟨r, v, he, rfl⟩ | ⟨he, -⟩ | hstatus
    · obtain ⟨rfl, hbit⟩ := writeReg_clears (s := { s with host := rest }) hs ht
      exact .inr ⟨v, he, hbit⟩
    · exact .inl he
    · rw [State.faultSet, hstatus] at ht
      exact absurd (hs.symm.trans ht) (by decide)

/-- Settles O20: the engine's move ends idle, and of the host's actions only a write of CMD raises BUSY. -/
theorem onlyCmdWriteStarts : Obligations.OnlyCmdWriteStarts := by
  intro s t hst hs ht
  rcases step_next_cases hst with ⟨-, rfl⟩ | ⟨hb, -⟩ | ⟨e, rest, hh, hrest, -, hact⟩
  · simp [hs] at ht
  · simp [hs] at hb
  · rcases hostAct_status hact with ⟨r, v, he, rfl⟩ | ⟨-, hstatus⟩ | hstatus
    · obtain ⟨rfl, hstart⟩ := writeReg_raises_busy (s := { s with host := rest }) hs ht
      refine ⟨e, rest, v, hh, he, hrest, ?_⟩
      rw [hstart]
      exact ⟨rfl, rfl⟩
    · simp [busy_of_status_zero hstatus] at ht
    · rw [busy_of_status hstatus] at ht
      exact absurd (hs.symm.trans ht) (by decide)

/-- Settles O21: the engine's move is a completion, and of the host's actions only a reset lowers BUSY. -/
theorem busyFallsByCompletionOrReset : Obligations.BusyFallsByCompletionOrReset := by
  intro s t hst hs ht
  rcases step_next_cases hst with ⟨hb, -⟩ | ⟨-, hc⟩ | ⟨e, rest, hh, hrest, hearly, hact⟩
  · simp [hs] at hb
  · exact .inl ⟨hc.done, hc.host⟩
  · rcases hostAct_status hact with ⟨r, v, -, rfl⟩ | ⟨he, hstatus⟩ | hstatus
    · have hb := writeReg_keeps_busy (r := r) (v := v) (s := { s with host := rest }) hs
      simp [hb] at ht
    · exact .inr ⟨e, rest, hh, he, hearly hs, hstatus, hrest⟩
    · rw [busy_of_status hstatus] at ht
      exact absurd (hs.symm.trans ht) (by decide)

end Sys2Proof.Machine
end

-- ==== Proofs: the addresses that memory lists ====
section
/-! Which addresses the operations over memory list (spec 20 R60), and that the footprint of an admitted command lies inside the address
space (20 R71). -/

namespace Sys2Proof.Machine

/-- Canonical memory whose listed addresses lie below `bound`: the first two clauses of `MachineInv` (20 R60). -/
structure Memory.Within (bound : Nat) (m : Memory) : Prop where
  canonical : m.wf = true
  below     : ∀ c ∈ m, c.1 < bound

theorem Memory.Within.write {bound x : Nat} {m : Memory} (h : m.Within bound) (hx : x < bound) (v : Byte) :
    (m.write x v).Within bound where
  canonical := Memory.wf_write h.canonical x v
  below     := fun c hc => by
    rcases Memory.mem_write hc with hm | rfl
    · exact h.below c hm
    · exact hx

theorem Memory.Within.writeN {bound a n : Nat} {m : Memory} (h : m.Within bound) (ha : a + n ≤ bound) (u : Nat) :
    (m.writeN a n u).Within bound := by
  induction n generalizing m a u with
  | zero => exact h
  | succ n ih => exact ih (h.write (by omega) _) (by omega) _

/-- STORE of elements that end within the bound. -/
theorem Memory.Within.storeElems {bound : Nat} {es : List Elem} {m : Memory} (h : m.Within bound)
    (he : ∀ e ∈ es, e.addr + e.size ≤ bound) (vs : List Int) : Memory.Within bound (storeElems es vs m) := by
  induction es generalizing vs m with
  | nil => simpa [Machine.storeElems] using h
  | cons e es ih =>
    cases vs with
    | nil => exact h
    | cons v vs =>
      exact ih (h.writeN (he e List.mem_cons_self) _) (fun e' he' => he e' (List.mem_cons_of_mem e he')) vs

theorem Memory.Within.freeBytes {bound : Nat} {as : List Nat} {s : State} (h : s.mem.Within bound)
    (ha : ∀ a ∈ as, a < bound) : (Machine.freeBytes as s).mem.Within bound := by
  induction as generalizing s with
  | nil => exact h
  | cons a as ih =>
    exact ih (h.write (ha a List.mem_cons_self) _) fun a' ha' => ha a' (List.mem_cons_of_mem a ha')

/-- A descriptor passes when each check of 30 R100 passes. -/
theorem Shape.check_eq_none {sh : Shape} {p : Platform} {d : Descriptor} :
    sh.check p d = none ↔ sh.strideOk d = true ∧ sh.alignOk d = true ∧ sh.admitOk p d = true := by
  unfold Shape.check
  cases sh.strideOk d <;> cases sh.alignOk d <;> cases sh.admitOk p d <;> simp

theorem Platform.end_le_of_admits {p : Platform} {a n : Nat} (h : Platform.admits p a n = true) : a + n ≤ 2 ^ p.addrW := by
  simp only [Platform.admits, Bool.and_eq_true, decide_eq_true_eq] at h
  exact h.1

/-- Every element of a passed descriptor's footprint ends inside the address space (20 R71). -/
theorem Shape.end_le_of_check {sh : Shape} {p : Platform} {d : Descriptor} (h : sh.check p d = none) {e : Elem}
    (he : e ∈ sh.readElems d ++ sh.dstElems d) : e.addr + e.size ≤ 2 ^ p.addrW := by
  obtain ⟨-, -, hadmit⟩ := Shape.check_eq_none.1 h
  exact Platform.end_le_of_admits (List.all_eq_true.1 hadmit e he)

theorem runningShape_eq_some {s : State} {sh : Shape} (h : s.runningShape = some sh) :
    s.busy = true ∧ sh.check s.plat s.latch = none := by
  unfold State.runningShape at h
  split at h
  · next hb =>
    split at h
    · cases h
    · split at h
      · next hc =>
        cases h
        exact ⟨hb, hc⟩
      · cases h
  · cases h

/-- Only a running command has a footprint, and it lies inside the address space (20 R70, R71). -/
theorem footprint_lt {s : State} {a : Nat} (h : a ∈ s.readBytes ++ s.writeBytes) : s.busy = true ∧ a < 2 ^ s.plat.addrW := by
  simp only [State.readBytes, State.writeBytes] at h
  cases hsh : s.runningShape with
  | none => simp [hsh] at h
  | some sh =>
    obtain ⟨hb, hc⟩ := runningShape_eq_some hsh
    simp only [hsh, List.mem_append, mem_elemBytes] at h
    obtain ⟨e, he, -, ha⟩ | ⟨e, he, -, ha⟩ := h
    · have hend := Shape.end_le_of_check hc (List.mem_append_left _ he)
      exact ⟨hb, by omega⟩
    · have hend := Shape.end_le_of_check hc (List.mem_append_right _ he)
      exact ⟨hb, by omega⟩

end Sys2Proof.Machine
end

-- ==== Proofs: the invariant ====
section
/-! `MachineInv` at reset and over every step (spec 10 R23, R28, R34, 20 R60, R75, 48 R255, R259): each operation of the engine and of the
host keeps it, and a step is one of these operations. -/

namespace Sys2Proof.Machine

/-- Settles O53: no byte is listed, every register is 0 and the engine is idle. -/
theorem invariantAtReset : Obligations.InvariantAtReset where
  memory    := reset_mem_wf
  space     := fun _ hc => nomatch hc
  reserved  := rfl
  registers := ⟨Nat.two_pow_pos _, Nat.two_pow_pos _⟩
  latched   := ⟨Nat.two_pow_pos _, Nat.two_pow_pos _⟩
  exclusive := fun h => nomatch h.1
  held      := fun h => nomatch h
  races     := fun _ ha => nomatch ha

theorem MachineInv.within {s : State} (h : MachineInv s) : s.mem.Within (2 ^ s.plat.addrW) := ⟨h.memory, h.space⟩

theorem MachineInv.raced_lt {s : State} (h : MachineInv s) : ∀ a ∈ s.raced, a < 2 ^ s.plat.addrW := fun a ha =>
  (footprint_lt (h.races a ha)).2

/-- An idle engine has no raced byte (20 R75). -/
theorem MachineInv.raced_of_idle {s : State} (h : MachineInv s) (hi : s.busy = false) : s.raced = [] :=
  List.eq_nil_iff_forall_not_mem.2 fun a ha => by
    obtain ⟨hb, -⟩ := footprint_lt (h.races a ha)
    simp [hi] at hb

/-- The invariant of an idle engine: the clauses about a running command say nothing. -/
theorem machineInv_of_idle {t : State} (hi : t.busy = false) (hraced : t.raced = []) (hmem : t.mem.Within (2 ^ t.plat.addrW))
    (hres : t.status &&& 0xFFFFFFC0 = 0) (hregs : t.src < 2 ^ t.plat.addrW ∧ t.dst < 2 ^ t.plat.addrW)
    (hlatched : t.latch.src < 2 ^ t.plat.addrW ∧ t.latch.dst < 2 ^ t.plat.addrW) : MachineInv t where
  memory    := hmem.canonical
  space     := hmem.below
  reserved  := hres
  registers := hregs
  latched   := hlatched
  exclusive := fun h => by simp [hi] at h
  held      := fun h => by simp [hi] at h
  races     := fun a ha => by simp [hraced] at ha

/-- `t` has the platform, the registers, the latch and the BUSY of `s`. -/
structure SameEngine (s t : State) : Prop where
  plat   : t.plat = s.plat
  cmd    : t.cmd = s.cmd
  src    : t.src = s.src
  dst    : t.dst = s.dst
  stride : t.stride = s.stride
  latch  : t.latch = s.latch
  busy   : t.busy = s.busy

theorem SameEngine.runningShape {s t : State} (h : SameEngine s t) : t.runningShape = s.runningShape := by
  simp only [State.runningShape, h.busy, h.latch, h.plat]

/-- The same running command has the same footprint. -/
theorem SameEngine.footprint {s t : State} (h : SameEngine s t) : t.readBytes ++ t.writeBytes = s.readBytes ++ s.writeBytes := by
  simp only [State.readBytes, State.writeBytes, h.runningShape, h.latch]

/-- What does not touch the registers, the latch and BUSY keeps the invariant if it keeps memory inside the address space, sets
neither DONE nor a reserved bit, and adds to the raced bytes only bytes of the footprint. -/
theorem MachineInv.of_sameEngine {s t : State} (h : MachineInv s) (he : SameEngine s t)
    (hmem : t.mem.Within (2 ^ s.plat.addrW)) (hres : t.status &&& 0xFFFFFFC0 = 0) (hdone : t.done = true → s.done = true)
    (hraced : ∀ a ∈ t.raced, a ∈ s.raced ∨ a ∈ s.readBytes ++ s.writeBytes) : MachineInv t where
  memory    := hmem.canonical
  space     := by simpa only [he.plat] using hmem.below
  reserved  := hres
  registers := by simpa only [he.plat, he.src, he.dst] using h.registers
  latched   := by simpa only [he.plat, he.latch] using h.latched
  exclusive := fun hb => h.exclusive ⟨he.busy ▸ hb.1, hdone hb.2⟩
  held      := fun hb => by
    rw [he.latch, he.cmd, he.src, he.dst, he.stride]
    exact h.held (he.busy ▸ hb)
  races     := fun a ha => by
    rw [he.footprint]
    exact (hraced a ha).elim (h.races a) id

/-! The engine's operations -/

/-- Completion ends in the invariant from memory inside the address space (48 R259). -/
theorem machineInv_complete {u : State} (hmem : u.mem.Within (2 ^ u.plat.addrW)) (hres : u.status &&& 0xFFFFFFC0 = 0)
    (hregs : u.src < 2 ^ u.plat.addrW ∧ u.dst < 2 ^ u.plat.addrW)
    (hlatched : u.latch.src < 2 ^ u.plat.addrW ∧ u.latch.dst < 2 ^ u.plat.addrW) : MachineInv (complete u) :=
  machineInv_of_idle (busy_complete u) rfl hmem (reserved_updateStatus hres rfl) hregs hlatched

theorem MachineInv.refuse {s : State} (h : MachineInv s) (f : FaultBit) : MachineInv (refuse f s) :=
  machineInv_complete (u := raise f s) h.within (reserved_updateStatus h.reserved (reserved_bitWord_code f)) h.registers h.latched

/-- The raced bytes become free values inside the address space. -/
theorem within_freeRaced {s : State} {bound : Nat} (h : s.mem.Within bound) (hr : ∀ a ∈ s.raced, a < bound) :
    (freeRaced s).mem.Within bound := h.freeBytes hr

theorem MachineInv.runCommand {s : State} (h : MachineInv s) (sh : Shape) (f : Computation) :
    MachineInv (runCommand sh f s) := by
  have hfree : (freeRaced s).mem.Within (2 ^ s.plat.addrW) := within_freeRaced h.within h.raced_lt
  have hdst : sh.check s.plat s.latch = none → ∀ e ∈ sh.dstElems s.latch, e.addr + e.size ≤ 2 ^ s.plat.addrW :=
    fun hc e he => Shape.end_le_of_check hc (List.mem_append_right _ he)
  rcases runCommand_cases sh f s with ⟨fault, -, hrun⟩ | ⟨hc, ob, -, hrun⟩ | ⟨hc, -, hrun⟩ <;> rw [hrun]
  · exact h.refuse fault
  · apply machineInv_complete
    case hmem =>
      have hstore := hfree.storeElems (hdst hc) ob
      simpa [freeRaced] using within_freeRaced (s := { freeRaced s with
        mem := storeElems (sh.dstElems s.latch) ob (freeRaced s).mem }) hstore (by simpa [freeRaced] using h.raced_lt)
    case hres => simpa [freeRaced] using h.reserved
    case hregs => simpa [freeRaced] using h.registers
    case hlatched => simpa [freeRaced] using h.latched
  · apply machineInv_complete
    case hmem =>
      have hout : ∀ a ∈ elemBytes (sh.dstElems s.latch), a < 2 ^ s.plat.addrW := fun a ha => by
        obtain ⟨e, he, -, hlt⟩ := mem_elemBytes.1 ha
        have hend := hdst hc e he
        omega
      have hwrite := hfree.freeBytes hout
      simpa [freeRaced] using within_freeRaced (s := raise .range (freeBytes (elemBytes (sh.dstElems s.latch)) (freeRaced s)))
        hwrite (by simpa [freeRaced] using h.raced_lt)
    case hres => simpa [freeRaced] using reserved_updateStatus h.reserved (reserved_bitWord_code .range)
    case hregs => simpa [freeRaced] using h.registers
    case hlatched => simpa [freeRaced] using h.latched

theorem MachineInv.engineStep {s t : State} (h : MachineInv s) (ht : engineStep s = .next t) : MachineInv t := by
  rcases engineStep_cases s with ⟨i, f, -, hs⟩ | ⟨e, -, hs⟩ <;> rw [hs] at ht <;> cases ht
  · exact h.runCommand _ f
  · exact h.refuse .cfg

/-! The host's operations -/

theorem MachineInv.raise {s : State} (h : MachineInv s) (f : FaultBit) : MachineInv (raise f s) :=
  h.of_sameEngine ⟨rfl, rfl, rfl, rfl, rfl, rfl, busy_raise f s⟩ h.within
    (reserved_updateStatus h.reserved (reserved_bitWord_code f)) (by simp) fun _ ha => .inl ha

theorem MachineInv.clearStatus {s : State} (h : MachineInv s) (m : Word) : MachineInv (clearStatus m s) :=
  h.of_sameEngine ⟨rfl, rfl, rfl, rfl, rfl, rfl, busy_clearStatus m s⟩ h.within
    (reserved_updateStatus h.reserved rfl) done_of_done_clearStatus fun _ ha => .inl ha

/-- A start latches the registers and clears DONE (48 R255). -/
theorem MachineInv.start {s : State} (h : MachineInv s) (hi : s.busy = false) (w : Word) : MachineInv (start w s) where
  memory    := h.memory
  space     := h.space
  reserved  := reserved_updateStatus h.reserved rfl
  registers := h.registers
  latched   := h.registers
  exclusive := fun hb => by simp at hb
  held      := fun _ => rfl
  races     := fun a ha => by simp [h.raced_of_idle hi] at ha

theorem MachineInv.writeReg {s : State} (h : MachineInv s) (r : Reg) (v : Nat) : MachineInv (writeReg r v s) := by
  have hcut : v % 2 ^ s.plat.addrW < 2 ^ s.plat.addrW := Nat.mod_lt _ (Nat.two_pow_pos _)
  rcases writeReg_cases r v s with ⟨-, hw⟩ | ⟨-, hw⟩ | ⟨hi, -, hw⟩ | ⟨hi, -, hw⟩ | ⟨hi, -, hw⟩ | ⟨hi, -, hw⟩ <;> rw [hw]
  · exact h.clearStatus _
  · exact h.raise .proto
  · exact h.start hi _
  · exact machineInv_of_idle hi (h.raced_of_idle hi) h.within h.reserved ⟨hcut, h.registers.2⟩ h.latched
  · exact machineInv_of_idle hi (h.raced_of_idle hi) h.within h.reserved ⟨h.registers.1, hcut⟩ h.latched
  · exact machineInv_of_idle hi (h.raced_of_idle hi) h.within h.reserved h.registers h.latched

theorem mem_raced_markRaced {as : List Nat} {s : State} {a : Nat} (h : a ∈ (markRaced as s).raced) : a ∈ s.raced ∨ a ∈ as := by
  rw [markRaced_raced, List.mem_append] at h
  exact h.imp_right List.mem_of_mem_filter

theorem MachineInv.hostStore {s : State} (h : MachineInv s) {a n : Nat} (ha : Platform.admits s.plat a n = true) (u : Nat) :
    MachineInv (hostStore a n u s) :=
  h.of_sameEngine ⟨rfl, rfl, rfl, rfl, rfl, rfl, rfl⟩ (h.within.writeN (Platform.end_le_of_admits ha) u) h.reserved id
    fun b hb => (mem_raced_markRaced hb).imp_right fun hm => by simpa using List.of_mem_filter hm

theorem MachineInv.hostLoad {s : State} (h : MachineInv s) (a n : Nat) : MachineInv (hostLoad a n s) :=
  h.of_sameEngine ⟨rfl, rfl, rfl, rfl, rfl, rfl, rfl⟩ h.within h.reserved id
    fun b hb => (mem_raced_markRaced hb).imp_right fun hm =>
      List.mem_append_right _ (by simpa using List.of_mem_filter hm)

/-- A reset frees the bytes of the footprint inside the address space and clears the registers (70 R310). -/
theorem MachineInv.applyReset {s : State} (h : MachineInv s) : MachineInv (applyReset s) := by
  have hwrite : (freeBytes s.writeBytes s).mem.Within (2 ^ s.plat.addrW) :=
    h.within.freeBytes fun a ha => (footprint_lt (List.mem_append_right _ ha)).2
  apply machineInv_of_idle
  case hi => exact busy_of_status_zero (applyReset_status s)
  case hraced => rfl
  case hmem =>
    rw [applyReset_mem, applyReset_plat]
    exact hwrite.freeBytes h.raced_lt
  case hres =>
    rw [applyReset_status]
    exact BitVec.zero_and
  case hregs => exact ⟨Nat.two_pow_pos _, Nat.two_pow_pos _⟩
  case hlatched => exact ⟨Nat.two_pow_pos _, Nat.two_pow_pos _⟩

theorem MachineInv.hostAct {act : HostAction} {s t : State} (h : MachineInv s) (ht : hostAct act s = .next t) : MachineInv t := by
  rcases hostAct_cases ht with ⟨r, v, -, rfl⟩ | ⟨r, -, rfl⟩ | ⟨a, n, u, -, ha, rfl⟩ | ⟨a, n, -, -, rfl⟩ | ⟨-, rfl⟩
  · exact h.writeReg r v
  · exact h.of_sameEngine ⟨rfl, rfl, rfl, rfl, rfl, rfl, rfl⟩ h.within h.reserved id fun _ ha => .inl ha
  · exact h.hostStore ha u
  · exact h.hostLoad a n
  · exact h.applyReset

/-- Settles O54: a step holds, lets the engine complete its command, or performs one action of the host, and each keeps the
invariant. -/
theorem invariantKeptByStep : Obligations.InvariantKeptByStep := by
  intro s t h ht
  rcases step_cases s with ⟨-, -, hs⟩ | ⟨-, hs⟩ | ⟨e, rest, -, -, hs⟩ <;> rw [hs] at ht
  · cases ht
    exact h
  · exact h.engineStep ht
  · have hrest : MachineInv { s with host := rest } :=
      h.of_sameEngine ⟨rfl, rfl, rfl, rfl, rfl, rfl, rfl⟩ h.within h.reserved id fun _ ha => .inl ha
    exact hrest.hostAct ht

end Sys2Proof.Machine
end

-- ==== Proofs: the kernels read their inputs only ====
section
/-! A kernel of size N reads X[0] .. X[N-1] and no other register (spec 41 R153, 43 R176): every index that its rule writes down is
below N. For the staged kernels only the first stage reads X. -/

namespace Sys2Proof.Machine

/-- A kernel of size `n` is a function of the first `n` registers. -/
def ReadsFirst (n : Nat) (k : Kernel) : Prop :=
  ∀ (B : Widths) (X X' : Nat → Int), (∀ i, i < n → X i = X' i) → k B X = k B X'

theorem span_congr {a n : Nat} {f g : Nat → Option Int} (h : ∀ k, k < n → f (a + k) = g (a + k)) : span a n f = span a n g :=
  List.map_congr_left fun k hk => h k (List.mem_range.1 hk)

theorem allZero_congr {n : Nat} {X X' : Nat → Int} (h : ∀ i, i < n → X i = X' i) : allZero n X = allZero n X' := by
  rw [Bool.eq_iff_iff, allZero, allZero, List.all_eq_true, List.all_eq_true]
  exact forall₂_congr fun k hk => by rw [h k (List.mem_range.1 hk)]

/-- The all-zero test of 40 R130 before a kernel reads its inputs only. -/
theorem readsFirst_allZero {n : Nat} {k : Kernel} (h : ReadsFirst n k) :
    ReadsFirst n fun B X => if allZero n X then some (zeros n) else k B X := fun B X X' hX => by
  show ite _ _ _ = ite _ _ _
  rw [allZero_congr hX, h B X X' hX]

theorem readsFirst_fdct4 : ReadsFirst 4 fdct4 := fun B X X' h => by
  simp (disch := decide) only [fdct4, h]

theorem readsFirst_fdct8 : ReadsFirst 8 fdct8 := fun B X X' h => by
  simp (disch := decide) only [fdct8, h]

theorem readsFirst_fdct16 : ReadsFirst 16 fdct16 := fun B X X' h => by
  have hsum : span 0 8 (fun k => acc B (X k + X (15 - k))) = span 0 8 fun k => acc B (X' k + X' (15 - k)) :=
    span_congr fun k hk => by rw [h (0 + k) (by omega), h (15 - (0 + k)) (by omega)]
  have hdiff : span 0 8 (fun k => acc B (X (7 - k) - X (8 + k))) = span 0 8 fun k => acc B (X' (7 - k) - X' (8 + k)) :=
    span_congr fun k hk => by rw [h (7 - (0 + k)) (by omega), h (8 + (0 + k)) (by omega)]
  rw [fdct16, hsum, hdiff, fdct16]

theorem readsFirst_fdct32 : ReadsFirst 32 fdct32 := fun B X X' h => by
  have hstage : fdct32Stage1 B X = fdct32Stage1 B X' := by
    have hsum : span 0 16 (fun k => acc B (X k + X (31 - k))) = span 0 16 fun k => acc B (X' k + X' (31 - k)) :=
      span_congr fun k hk => by rw [h (0 + k) (by omega), h (31 - (0 + k)) (by omega)]
    have hdiff : span 16 16 (fun k => acc B (X (31 - k) - X k)) = span 16 16 fun k => acc B (X' (31 - k) - X' k) :=
      span_congr fun k hk => by rw [h (31 - (16 + k)) (by omega), h (16 + k) (by omega)]
    rw [fdct32Stage1, hsum, hdiff, fdct32Stage1]
  rw [fdct32, hstage, fdct32]

theorem readsFirst_fwht4 : ReadsFirst 4 fwht4 := fun B X X' h => by
  simp (disch := decide) only [fwht4, h]

theorem readsFirst_fadst4 : ReadsFirst 4 fadst4 := fun B X X' h => by
  simp (disch := decide) only [fadst4, allZero_congr h, h]

theorem readsFirst_adst8Graph (keep rot : Widths → Int → Option Int) :
    ReadsFirst 8 fun B X => adst8Graph B (keep B) (rot B) X := fun B X X' h => by
  simp (disch := decide) only [adst8Graph, h]

theorem readsFirst_fadst8 : ReadsFirst 8 fadst8 := readsFirst_allZero (readsFirst_adst8Graph acc rs)

theorem readsFirst_adst16Graph (keep rot : Widths → Int → Option Int) :
    ReadsFirst 16 fun B X => adst16Graph B (keep B) (rot B) X := fun B X X' h => by
  have hstage : adst16Stage1 B (fun i => X (adst16In i)) = adst16Stage1 B fun i => X' (adst16In i) := by
    simp (disch := decide) only [adst16Stage1, h]
  simp only [adst16Graph, hstage]

theorem readsFirst_fadst16 : ReadsFirst 16 fadst16 := readsFirst_allZero (readsFirst_adst16Graph acc rs)

theorem readsFirst_idct4 : ReadsFirst 4 idct4 := fun B X X' h => by
  simp (disch := decide) only [idct4, h]

theorem readsFirst_idct8 : ReadsFirst 8 idct8 := fun B X X' h => by
  simp (disch := decide) only [idct8, h]

theorem idct16In_lt (i : Nat) : idct16In i < 16 := by
  rcases Nat.lt_or_ge i 16 with hi | hi
  · interval_cases i <;> decide
  · simp [idct16In, List.getD, hi]

theorem readsFirst_idct16 : ReadsFirst 16 idct16 := fun B X X' h => by
  have hin : (fun i => X (idct16In i)) = fun i => X' (idct16In i) := funext fun i => h _ (idct16In_lt i)
  rw [idct16, hin, idct16]

theorem readsFirst_idct32 : ReadsFirst 32 idct32 := fun B X X' h => by
  have hstage : idct32Stage1 B X = idct32Stage1 B X' := by
    simp (disch := decide) only [idct32Stage1, h]
  rw [idct32, hstage, idct32]

theorem readsFirst_iwht4 : ReadsFirst 4 iwht4 := fun B X X' h => by
  simp (disch := decide) only [iwht4, h]

theorem readsFirst_iadst4 : ReadsFirst 4 iadst4 := fun B X X' h => by
  simp (disch := decide) only [iadst4, allZero_congr h, h]

theorem readsFirst_iadst8 : ReadsFirst 8 iadst8 := readsFirst_allZero (readsFirst_adst8Graph low rsLow)

theorem readsFirst_iadst16 : ReadsFirst 16 iadst16 := readsFirst_allZero (readsFirst_adst16Graph low rsLow)

/-- Settles O33, kernel by kernel. -/
theorem kernelsReadTheirInputsOnly : Obligations.KernelsReadTheirInputsOnly := by
  intro k hk
  simp only [List.mem_cons, List.not_mem_nil, or_false] at hk
  rcases hk with rfl | rfl | rfl | rfl | rfl | rfl | rfl | rfl | rfl | rfl | rfl | rfl | rfl | rfl | rfl | rfl
  exacts [readsFirst_fdct4, readsFirst_fdct8, readsFirst_fdct16, readsFirst_fdct32, readsFirst_fadst4, readsFirst_fadst8,
    readsFirst_fadst16, readsFirst_fwht4, readsFirst_idct4, readsFirst_idct8, readsFirst_idct16, readsFirst_idct32,
    readsFirst_iadst4, readsFirst_iadst8, readsFirst_iadst16, readsFirst_iwht4]

end Sys2Proof.Machine
end

-- ==== Proofs: a command's outcome depends on its inputs only ====
section
/-! Two states with the same descriptor and the same bytes in the read footprint load the same blocks, compute the same answer and
store the same bytes (spec 10 R31, 20 R65, R72, 45 R211 a, 60 R283). The one thing to see of each command is that its answer fills
its write footprint, or that it reads the footprint before it writes it. -/

namespace Sys2Proof.Machine

/-- A load of an element depends on the element's bytes only. -/
theorem readN_elem_congr {m m' : Memory} {es : List Elem} (h : ∀ a ∈ elemBytes es, m'.read a = m.read a) {e : Elem}
    (he : e ∈ es) : m'.readN e.addr e.size = m.readN e.addr e.size :=
  Memory.readN_congr fun i hi => h _ (mem_elemBytes.2 ⟨e, he, by omega, by omega⟩)

/-- LOAD of the source depends on the read footprint only. -/
theorem loadSrc_congr {sh : Shape} {d : Descriptor} {m m' : Memory}
    (h : ∀ a ∈ elemBytes (sh.readElems d), m'.read a = m.read a) : sh.loadSrc d m' = sh.loadSrc d m :=
  List.map_congr_left fun e he => by rw [readN_elem_congr h (List.mem_append_left _ he)]

/-- LOAD of the destination depends on the read footprint only. -/
theorem loadDst_congr {sh : Shape} {d : Descriptor} {m m' : Memory}
    (h : ∀ a ∈ elemBytes (sh.readElems d), m'.read a = m.read a) : sh.loadDst d m' = sh.loadDst d m := by
  unfold Shape.loadDst
  split
  · next hreads =>
    refine List.map_congr_left fun e he => ?_
    have hmem : e ∈ sh.readElems d := List.mem_append_right _ (by simpa [hreads] using he)
    rw [readN_elem_congr h hmem]
  · rfl

/-- One store into two memories: its own bytes agree afterwards, and the others where they agreed before. -/
theorem Memory.read_writeN_congr {m m' : Memory} (hm : m.wf = true) (hm' : m'.wf = true) {a n u x : Nat}
    (h : x < a ∨ a + n ≤ x → m'.read x = m.read x) : (m'.writeN a n u).read x = (m.writeN a n u).read x := by
  by_cases hx : x < a ∨ a + n ≤ x
  · rw [Memory.read_writeN_outside _ hx, Memory.read_writeN_outside _ hx, h hx]
  · obtain ⟨i, rfl⟩ : ∃ i, x = a + i := ⟨x - a, by omega⟩
    rw [Memory.read_writeN_inside hm' a n u (by omega), Memory.read_writeN_inside hm a n u (by omega)]

/-- The same STORE into two memories: a byte agrees afterwards if it agreed before, or if the values fill the elements and it is one
of theirs. -/
theorem read_storeElems_congr {es : List Elem} {vs : List Int} {m m' : Memory} (hm : m.wf = true) (hm' : m'.wf = true) {x : Nat}
    (h : m'.read x = m.read x ∨ (es.length ≤ vs.length ∧ x ∈ elemBytes es)) :
    (storeElems es vs m').read x = (storeElems es vs m).read x := by
  induction es generalizing vs m m' with
  | nil => simpa [storeElems, elemBytes] using h
  | cons e es ih =>
    cases vs with
    | nil => simpa [storeElems] using h
    | cons v vs =>
      refine ih (Memory.wf_writeN hm _ _ _) (Memory.wf_writeN hm' _ _ _) ?_
      rcases h with h | ⟨hl, hx⟩
      · exact .inl (Memory.read_writeN_congr hm hm' fun _ => h)
      · by_cases hin : x < e.addr ∨ e.addr + e.size ≤ x
        · obtain ⟨e', he', hlo, hhi⟩ := mem_elemBytes.1 hx
          rcases List.mem_cons.1 he' with rfl | he'
          · omega
          · exact .inr ⟨by simpa using hl, mem_elemBytes.2 ⟨e', he', hlo, hhi⟩⟩
        · exact .inl (Memory.read_writeN_congr hm hm' fun hout => absurd hout hin)

/-! The length of each family's answer -/

/-- A computation that answers, if at all, with `n` values. -/
def Fills (n : Nat) (f : Computation) : Prop := ∀ ib pb, Answers n (f ib pb)

theorem fills_kernelComputation {n : Nat} {k : Kernel} {B : Widths} (h : ∀ X, Answers n (k B X)) :
    Fills n (kernelComputation n k B) := fun ib pb => by
  refine Answers.bind fun x => ?_
  intro z hz
  obtain ⟨y, hy, hyz⟩ := bind_some_iff.1 hz
  rw [length_of_mapSome hyz, h _ y hy]

theorem fills_fwd2d {p : FwdParams} {col row : Kernel} {B : Widths} (hn : 0 < p.n) (hcol : ∀ X, Answers p.n (col B X))
    (hrow : ∀ X, Answers p.n (row B X)) : Fills (p.n * p.n) (fwd2d p col row B) := fun _ _ _ h =>
  ((fwd2d_eq_some hn hcol hrow).1 h).1

theorem fills_fwht4x4 (B : Widths) : Fills 16 (fwht4x4Computation B) := fun ib pb => by
  refine Answers.bind fun tc => ?_
  intro ob hob
  obtain ⟨rows, hrows, hflat⟩ := bind_some_iff.1 hob
  obtain ⟨hlen, hrow⟩ := mapSome_range_list.1 hrows
  have hrow4 : ∀ y ∈ rows, y.length = 4 := getD_mem_length fun i hi => by
    obtain ⟨y, hy, hyz⟩ := bind_some_iff.1 (hrow i (by omega))
    rw [length_of_mapSome hyz, fwht4_answers _ _ y hy]
  obtain rfl : rows.flatten = ob := Option.some.inj hflat
  rw [length_flatten hrow4, hlen]

theorem fills_fdc (dcs : Int → Int) (B : Widths) : Fills 1 (fdcComputation dcs B) := fun _ _ =>
  Answers.bind fun _ => Answers.bind fun v => answers_pure [v]

theorem fwdKernel4_answers (adst : Bool) (B : Widths) (X : Nat → Int) : Answers 4 (fwdKernel4 adst B X) := by
  cases adst
  · exact fdct4_answers B X
  · exact fadst4_answers B X

theorem fwdKernel8_answers (adst : Bool) (B : Widths) (X : Nat → Int) : Answers 8 (fwdKernel8 adst B X) := by
  cases adst
  · exact fdct8_answers B X
  · exact fadst8_answers B X

theorem fwdKernel16_answers (adst : Bool) (B : Widths) (X : Nat → Int) : Answers 16 (fwdKernel16 adst B X) := by
  cases adst
  · exact fdct16_answers B X
  · exact fadst16_answers B X

/-- `f` is the computation of instruction `i` in every state, and every byte of the write footprint gets its value from the answer
of `f` or from a byte that `i` reads. -/
def Determines (i : Instr) (f : Computation) : Prop :=
  (∀ s, exec i s = .next (runCommand (shapeOf i) f s)) ∧
    ((shapeOf i).readsDst = true ∨ ∀ d, Fills ((shapeOf i).dstElems d).length f)

theorem determines_kernel {i : Instr} {n : Nat} {bd : BitDepth} {f : Computation}
    (hi : ∀ s, exec i s = .next (runCommand (shapeOf i) f s)) (hs : shapeOf i = { family := .kernel, n := n, bd := bd })
    (hf : Fills n f) : Determines i f := by
  refine ⟨hi, .inr fun d => ?_⟩
  rw [hs]
  show Fills (vectorElems _ _ n).length f
  rwa [length_vectorElems]

theorem determines_forward {i : Instr} {n : Nat} {bd : BitDepth} {f : Computation}
    (hi : ∀ s, exec i s = .next (runCommand (shapeOf i) f s)) (hs : shapeOf i = { family := .forward, n := n, bd := bd })
    (hf : Fills (n * n) f) : Determines i f := by
  refine ⟨hi, .inr fun d => ?_⟩
  rw [hs]
  show Fills (blockElems _ _ _ n).length f
  rwa [length_blockElems]

theorem determines_forwardDc {i : Instr} {n : Nat} {bd : BitDepth} {f : Computation}
    (hi : ∀ s, exec i s = .next (runCommand (shapeOf i) f s)) (hs : shapeOf i = { family := .forwardDc, n := n, bd := bd })
    (hf : Fills 1 f) : Determines i f :=
  ⟨hi, .inr fun d => by rw [hs]; exact hf⟩

/-- Every command has one computation, which determines all that the command writes. -/
theorem exists_determines (i : Instr) : ∃ f, Determines i f := by
  cases i with
  | fdct4 bd => exact ⟨_, determines_kernel (fun _ => rfl) rfl (fills_kernelComputation (fdct4_answers _))⟩
  | fdct8 bd => exact ⟨_, determines_kernel (fun _ => rfl) rfl (fills_kernelComputation (fdct8_answers _))⟩
  | fdct16 bd => exact ⟨_, determines_kernel (fun _ => rfl) rfl (fills_kernelComputation (fdct16_answers _))⟩
  | fdct32 bd => exact ⟨_, determines_kernel (fun _ => rfl) rfl (fills_kernelComputation (fdct32_answers _))⟩
  | fadst4 bd => exact ⟨_, determines_kernel (fun _ => rfl) rfl (fills_kernelComputation (fadst4_answers _))⟩
  | fadst8 bd => exact ⟨_, determines_kernel (fun _ => rfl) rfl (fills_kernelComputation (fadst8_answers _))⟩
  | fadst16 bd => exact ⟨_, determines_kernel (fun _ => rfl) rfl (fills_kernelComputation (fadst16_answers _))⟩
  | fwht4 bd => exact ⟨_, determines_kernel (fun _ => rfl) rfl (fills_kernelComputation (fwht4_answers _))⟩
  | idct4 bd => exact ⟨_, determines_kernel (fun _ => rfl) rfl (fills_kernelComputation (idct4_answers _))⟩
  | idct8 bd => exact ⟨_, determines_kernel (fun _ => rfl) rfl (fills_kernelComputation (idct8_answers _))⟩
  | idct16 bd => exact ⟨_, determines_kernel (fun _ => rfl) rfl (fills_kernelComputation (idct16_answers _))⟩
  | idct32 bd => exact ⟨_, determines_kernel (fun _ => rfl) rfl (fills_kernelComputation (idct32_answers _))⟩
  | iadst4 bd => exact ⟨_, determines_kernel (fun _ => rfl) rfl (fills_kernelComputation (iadst4_answers _))⟩
  | iadst8 bd => exact ⟨_, determines_kernel (fun _ => rfl) rfl (fills_kernelComputation (iadst8_answers _))⟩
  | iadst16 bd => exact ⟨_, determines_kernel (fun _ => rfl) rfl (fills_kernelComputation (iadst16_answers _))⟩
  | iwht4 bd => exact ⟨_, determines_kernel (fun _ => rfl) rfl (fills_kernelComputation (iwht4_answers _))⟩
  | fht4 tx bd =>
    exact ⟨_, determines_forward (fun _ => rfl) rfl
      (fills_fwd2d (p := fht4Params) (by decide) (fwdKernel4_answers _ _) (fwdKernel4_answers _ _))⟩
  | fht8 tx bd =>
    exact ⟨_, determines_forward (fun _ => rfl) rfl
      (fills_fwd2d (p := fht8Params) (by decide) (fwdKernel8_answers _ _) (fwdKernel8_answers _ _))⟩
  | fht16 tx bd =>
    exact ⟨_, determines_forward (fun _ => rfl) rfl
      (fills_fwd2d (p := fht16Params tx) (show 0 < 16 by decide) (fwdKernel16_answers _ _) (fwdKernel16_answers _ _))⟩
  | fht32 bd =>
    exact ⟨_, determines_forward (fun _ => rfl) rfl
      (fills_fwd2d (p := fht32Params) (by decide) (fdct32_answers _) (fdct32_answers _))⟩
  | fdc4 bd => exact ⟨_, determines_forwardDc (fun _ => rfl) rfl (fills_fdc _ _)⟩
  | fdc8 bd => exact ⟨_, determines_forwardDc (fun _ => rfl) rfl (fills_fdc _ _)⟩
  | fdc16 bd => exact ⟨_, determines_forwardDc (fun _ => rfl) rfl (fills_fdc _ _)⟩
  | fdc32 bd => exact ⟨_, determines_forwardDc (fun _ => rfl) rfl (fills_fdc _ _)⟩
  | fwht4x4 bd => exact ⟨_, determines_forward (fun _ => rfl) rfl (fills_fwht4x4 _)⟩
  -- the commands that add read every byte that they write
  | iht4Add tx bd => exact ⟨_, fun _ => rfl, .inl rfl⟩
  | iht8Add tx bd => exact ⟨_, fun _ => rfl, .inl rfl⟩
  | iht16Add tx bd => exact ⟨_, fun _ => rfl, .inl rfl⟩
  | iht32Add bd => exact ⟨_, fun _ => rfl, .inl rfl⟩
  | idc4Add bd => exact ⟨_, fun _ => rfl, .inl rfl⟩
  | idc8Add bd => exact ⟨_, fun _ => rfl, .inl rfl⟩
  | idc16Add bd => exact ⟨_, fun _ => rfl, .inl rfl⟩
  | idc32Add bd => exact ⟨_, fun _ => rfl, .inl rfl⟩
  | iwht4x4Add bd => exact ⟨_, fun _ => rfl, .inl rfl⟩

/-- Settles O59: both states load the same blocks, so the one computation of the command answers alike in both. -/
theorem outcomeDependsOnInputsOnly : Obligations.OutcomeDependsOnInputsOnly := by
  intro i s s' ha ha' hlatch hbytes
  obtain ⟨f, hexec, hwrites⟩ := exists_determines i
  have hsrc : (shapeOf i).loadSrc s'.latch s'.mem = (shapeOf i).loadSrc s.latch s.mem := by
    rw [hlatch, loadSrc_congr hbytes]
  have hdst : (shapeOf i).loadDst s'.latch s'.mem = (shapeOf i).loadDst s.latch s.mem := by
    rw [hlatch, loadDst_congr hbytes]
  refine ⟨_, _, hexec s, hexec s', ?_⟩
  cases hf : f ((shapeOf i).loadSrc s.latch s.mem) ((shapeOf i).loadDst s.latch s.mem) with
  | none => exact .inr ⟨rangeNext_of_none ha hf, rangeNext_of_none ha' (by rw [hsrc, hdst, hf])⟩
  | some ob =>
    obtain ⟨hclean, hmem⟩ := cleanNext_of_some ha hf
    obtain ⟨hclean', hmem'⟩ := cleanNext_of_some ha' (f := f) (ob := ob) (by rw [hsrc, hdst, hf])
    refine .inl ⟨hclean, hclean', fun a hout => ?_⟩
    rw [hmem, hmem', hlatch]
    refine read_storeElems_congr ha.memory ha'.memory ?_
    rcases hwrites with hreads | hfills
    · refine .inl (hbytes a ?_)
      obtain ⟨e, he, hin⟩ := mem_elemBytes.1 hout
      exact mem_elemBytes.2 ⟨e, List.mem_append_right _ (by simpa [hreads] using he), hin⟩
    · exact .inr ⟨(hfills _ _ _ ob hf).ge, hout⟩

end Sys2Proof.Machine
end

-- ==== Proofs: loads and stores ====
section
/-! Loads and stores as little-endian numbers, and as the host makes them on an idle engine (spec 20 R62, R63, R74); the free values
that a race with a running command leaves behind (20 R74 c, R75, log 8). -/

namespace Sys2Proof.Machine

/-- The recursion of `readN` as the sum of 20 R62: the tail of the sum is the load from the next address, times 256. -/
theorem Memory.readN_eq_sum (m : Memory) (a n : Nat) :
    m.readN a n = ((List.range n).map fun i => (m.read (a + i)).toNat * 256 ^ i).sum := by
  induction n generalizing a with
  | zero => rfl
  | succ n ih =>
    have hshift (i : Nat) : (m.read (a + (i + 1))).toNat * 256 ^ (i + 1) =
        256 * ((m.read (a + 1 + i)).toNat * 256 ^ i) := by
      rw [show a + (i + 1) = a + 1 + i by omega]
      ring
    simp [Memory.readN, ih, List.range_succ_eq_map, Function.comp_def, hshift, List.sum_map_mul_left]

/-- Settles O23: for every number of bytes, a load is the sum of its digits and fits them. -/
theorem loadIsLittleEndian : Obligations.LoadIsLittleEndian := by
  intro m a n _
  refine ⟨Memory.readN_eq_sum m a n, ?_⟩
  rw [two_pow_eight_mul]
  exact Memory.readN_lt m a n

/-- Settles O24: the bytes inside a store hold its digits, those outside are kept, and so is the canonical form. -/
theorem storeIsLittleEndian : Obligations.StoreIsLittleEndian := by
  intro m a n u hm _ _
  refine ⟨fun i hi => ?_, fun x hx => Memory.read_writeN_outside m hx, Memory.wf_writeN hm a n u⟩
  rw [Memory.read_writeN_inside hm a n u hi, BitVec.toNat_ofNat]

/-! Accesses of the host to an idle engine -/

theorem runningShape_of_idle {s : State} (hi : s.busy = false) : s.runningShape = none := by
  simp [State.runningShape, hi]

theorem readBytes_of_idle {s : State} (hi : s.busy = false) : s.readBytes = [] := by
  simp [State.readBytes, runningShape_of_idle hi]

theorem writeBytes_of_idle {s : State} (hi : s.busy = false) : s.writeBytes = [] := by
  simp [State.writeBytes, runningShape_of_idle hi]

@[simp] theorem markRaced_nil (s : State) : markRaced [] s = s := by simp [markRaced]

theorem mem_markRaced {as : List Nat} {s : State} {a : Nat} : a ∈ (markRaced as s).raced ↔ a ∈ s.raced ∨ a ∈ as := by
  simp only [markRaced_raced, List.mem_append, List.mem_filter, List.contains_eq_mem, Bool.not_eq_true', decide_eq_false_iff_not]
  tauto

/-- A load that meets no hidden byte is a plain one (20 R62). -/
theorem loadBytes_of_visible {hidden : List Nat} {m : Memory} {free a n : Nat} (h : ∀ b ∈ byteRange a n, b ∉ hidden) :
    loadBytes hidden m free a n = m.readN a n := by
  induction n generalizing a with
  | zero => rfl
  | succ n ih =>
    have ha : a ∉ hidden := h a (mem_byteRange.2 (by omega))
    have hrest : loadBytes hidden m free (a + 1) n = m.readN (a + 1) n :=
      ih fun b hb => h b (mem_byteRange.2 (by have := mem_byteRange.1 hb; omega))
    simp [loadBytes, Memory.readN, ha, hrest]

/-- A load of one hidden byte is the next free value (20 R74 c, R75). -/
theorem loadBytes_of_hidden {hidden : List Nat} {a : Nat} (h : a ∈ hidden) (m : Memory) (free : Nat) :
    loadBytes hidden m free a 1 = (Config.freeByte free).toNat := by
  simp [loadBytes, h]

/-- On an idle engine a store races with nothing. -/
theorem hostStore_of_idle {s : State} (hi : s.busy = false) (a n u : Nat) :
    hostStore a n u s = { s with mem := s.mem.writeN a n u } := by
  simp [hostStore, readBytes_of_idle hi, writeBytes_of_idle hi]

/-- On an idle engine with no raced byte a load hides nothing (20 R74 b). -/
theorem hostLoad_of_idle {s : State} (hi : s.busy = false) (hr : s.raced = []) (a n : Nat) :
    hostLoad a n s = { s with hostData := s.mem.readN a n } := by
  have hload : loadBytes [] s.mem s.free a n = s.mem.readN a n := loadBytes_of_visible fun _ _ => List.not_mem_nil
  simp [hostLoad, writeBytes_of_idle hi, hr, hload]

theorem step_writeMem_of_idle {s : State} {a n u : Nat} {e : Bool} {rest : List HostEvent} (hi : s.busy = false)
    (ha : Platform.admits s.plat a n = true) (hh : s.host = { act := .writeMem a n u, early := e } :: rest) :
    step s = .next { s with mem := s.mem.writeN a n u, host := rest } := by
  have hstore := hostStore_of_idle (s := { s with host := rest }) hi a n u
  simp [step_of_idle hi hh, hostAct, ha, hstore]

theorem step_readMem_of_idle {s : State} {a n : Nat} {e : Bool} {rest : List HostEvent} (hi : s.busy = false)
    (hr : s.raced = []) (ha : Platform.admits s.plat a n = true) (hh : s.host = { act := .readMem a n, early := e } :: rest) :
    step s = .next { s with hostData := s.mem.readN a n, host := rest } := by
  have hload := hostLoad_of_idle (s := { s with host := rest }) hi hr a n
  simp [step_of_idle hi hh, hostAct, ha, hload]

/-- Settles O25: the store and the load are two steps of the host on an idle engine, which has no raced byte. -/
theorem hostLoadAfterStore : Obligations.HostLoadAfterStore := by
  intro s a n u e1 e2 rest hinv hi ha hu hh
  have hstore := step_writeMem_of_idle hi ha hh
  have hload := step_readMem_of_idle (s := { s with
    mem := s.mem.writeN a n u, host := { act := .readMem a n, early := e2 } :: rest }) hi (hinv.raced_of_idle hi) ha rfl
  rw [Memory.readN_writeN_self hinv.memory hu] at hload
  exact ⟨_, run_two hstore hload, rfl, rfl, fun x hx => Memory.read_writeN_outside s.mem hx⟩

/-! Races with a running command -/

/-- A command that passed its checks ends by freeing the raced bytes, in a state `u` with canonical memory (log 8). -/
theorem runCommand_of_check {sh : Shape} {s : State} (hc : sh.check s.plat s.latch = none) (hm : s.mem.wf = true)
    (f : Computation) :
    ∃ u, runCommand sh f s = complete (freeRaced u) ∧ u.mem.wf = true ∧ u.raced = s.raced ∧ s.free ≤ u.free := by
  have hwf : (freeRaced s).mem.wf = true := wf_freeBytes hm
  rcases runCommand_cases sh f s with ⟨fault, hfault, -⟩ | ⟨-, ob, -, h⟩ | ⟨-, -, h⟩
  · simp [hc] at hfault
  · exact ⟨_, h, wf_storeElems hwf, by simp [freeRaced], by simp [freeRaced]⟩
  · exact ⟨_, h, wf_freeBytes hwf, by simp [freeRaced], by simp [freeRaced]; omega⟩

/-- Settles O26: whatever the command computes, the raced bytes are freed last. -/
theorem racedBytesAreUnspecified : Obligations.RacedBytesAreUnspecified := by
  intro i s hc hm
  obtain ⟨f, hexec⟩ := exec_eq_runCommand i s
  obtain ⟨u, hrun, hwf, hraced, hfree⟩ := runCommand_of_check hc hm f
  refine ⟨_, hexec, fun a ha => ?_⟩
  obtain ⟨k, hlo, hhi, hread⟩ := freeBytes_inside hwf (hraced ▸ ha : a ∈ u.raced)
  rw [hrun]
  exact ⟨k, hfree.trans hlo, hhi, hread⟩

/-- Only a running command that was not refused has a write footprint. -/
theorem runningShape_isSome_of_mem_writeBytes {s : State} {a : Nat} (h : a ∈ s.writeBytes) : s.runningShape.isSome = true := by
  unfold State.writeBytes at h
  cases hs : s.runningShape with
  | none => simp [hs] at h
  | some sh => rfl

/-- An early action of the host goes before a running command that was not refused. -/
theorem step_of_early {s : State} {act : HostAction} {rest : List HostEvent} (hs : s.runningShape.isSome = true)
    (hh : s.host = { act := act, early := true } :: rest) : step s = hostAct act { s with host := rest } := by
  simp [step, hh, hs]

/-- A one-byte load from the write footprint draws one free value and marks the byte (20 R74 c, R75). -/
theorem hostLoad_of_mem_writeBytes {s : State} {a : Nat} (ha : a ∈ s.writeBytes) :
    (hostLoad a 1 s).hostData = (Config.freeByte s.free).toNat ∧ (hostLoad a 1 s).free = s.free + 1 ∧
      a ∈ (hostLoad a 1 s).raced := by
  have hhidden : a ∈ s.writeBytes ++ s.raced := List.mem_append_left _ ha
  have hrange : byteRange a 1 = [a] := by simp [byteRange]
  refine ⟨loadBytes_of_hidden hhidden s.mem s.free, ?_, mem_markRaced.2 (.inr ?_)⟩
  · simp [hostLoad, hrange, ha]
  · simp [hrange, ha]

/-- Settles O27: the load is the step, and its byte is of the write footprint. -/
theorem earlyLoadIsUnspecified : Obligations.EarlyLoadIsUnspecified := by
  intro s a rest hb ha hadm hh
  have hstep : step s = .next (hostLoad a 1 { s with host := rest }) := by
    simp [step_of_early (runningShape_isSome_of_mem_writeBytes ha) hh, hostAct, hadm]
  obtain ⟨hdata, hfree, hraced⟩ := hostLoad_of_mem_writeBytes (s := { s with host := rest }) ha
  exact ⟨_, hstep, hdata, hfree, hraced, rfl, hb⟩

end Sys2Proof.Machine
end

-- ==== Proofs: the command word ====
section
/-! The fields of a command word and what the decoder makes of them (spec 30 R91 to R101): the decoder reads the word through `rawFields`
alone, and each of its answers is either an instruction whose word has those fields or a clause of R97 that holds of them. -/

namespace Sys2Proof

/-- The numbers that the fields of a word can be (30 R91). -/
structure RawFields.Fit (f : RawFields) : Prop where
  op   : f.op < 16
  sz   : f.sz < 4
  kind : f.kind < 4
  bd   : f.bd < 4

theorem fit_rawFields (w : Word) : (rawFields w).Fit where
  op   := Nat.mod_lt _ (by decide)
  sz   := Nat.mod_lt _ (by decide)
  kind := Nat.mod_lt _ (by decide)
  bd   := Nat.mod_lt _ (by decide)

/-- The fields of a command's word (30 R91, R101): `base` gives OP and SZ, and K where the format has one. -/
def commandFields (base txt bd : Nat) : RawFields where
  op   := base % 16
  sz   := base / 16 % 4
  kind := base / 64 + txt
  bd   := bd
  zero := 0

theorem rawFields_commandWord {base txt bd : Nat} (hbase : base < 256) (htxt : base / 64 + txt < 4) (hbd : bd < 4) :
    rawFields (commandWord base txt bd) = commandFields base txt bd := by
  have hval : (commandWord base txt bd).toNat = base + txt * 64 + bd * 256 := by
    rw [commandWord, BitVec.toNat_ofNat, Nat.mod_eq_of_lt (by omega)]
  simp only [rawFields, commandFields, hval, RawFields.mk.injEq]
  omega

/-- A word with ZERO = 0 is put together again from its fields (30 R91). -/
theorem commandWord_rawFields {w : Word} (hzero : (rawFields w).zero = 0) :
    commandWord ((rawFields w).op + (rawFields w).sz * 16) (rawFields w).kind (rawFields w).bd = w := by
  apply BitVec.eq_of_toNat_eq
  rw [commandWord, BitVec.toNat_ofNat]
  simp only [rawFields] at hzero ⊢
  omega

theorem depthCode_lt_four (bd : BitDepth) : depthCode bd < 4 := by cases bd <;> decide

theorem decodeDepth_depthCode (bd : BitDepth) : decodeDepth (depthCode bd) = .ok bd := by cases bd <;> rfl

/-- Every code but 3 is the code of a bit depth (30 R98). -/
theorem exists_depthCode_eq {n : Nat} (h : n < 3) : ∃ bd, depthCode bd = n := by
  interval_cases n
  · exact ⟨.b8, rfl⟩
  · exact ⟨.b10, rfl⟩
  · exact ⟨.b12, rfl⟩

/-- The decoder after ZERO and BD: the dispatch on OP (30 R92, R101). -/
def decodeOp (f : RawFields) (bd : BitDepth) : Except Illegal Instr :=
  match f.op with
  | 1 => decodeKF f.kind f.sz bd
  | 2 => decodeKI f.kind f.sz bd
  | 3 => decodeFHT f.kind f.sz bd
  | 4 => decodeIHTA f.kind f.sz bd
  | 5 => decodeFDC f.kind f.sz bd
  | 6 => decodeIDCA f.kind f.sz bd
  | 7 => decodeW f.kind f.sz (.fwht4x4 bd)
  | 8 => decodeW f.kind f.sz (.iwht4x4Add bd)
  | _ => .error .reservedOp

/-- The decoder reads a word through its fields alone. -/
theorem decode_eq (w : Word) :
    decode w = if (rawFields w).zero ≠ 0 then .error .zeroField
      else (decodeDepth (rawFields w).bd).bind (decodeOp (rawFields w)) := by
  have hzero : field w 10 22 = (rawFields w).zero := by
    simp only [field, rawFields, Nat.shiftRight_eq_div_pow]
    omega
  have hbd : field w 8 2 = (rawFields w).bd := by simp [field, rawFields, Nat.shiftRight_eq_div_pow]
  have hkind : field w 6 2 = (rawFields w).kind := by simp [field, rawFields, Nat.shiftRight_eq_div_pow]
  have hsz : field w 4 2 = (rawFields w).sz := by simp [field, rawFields, Nat.shiftRight_eq_div_pow]
  have hop : field w 0 4 = (rawFields w).op := by simp [field, rawFields]
  rw [decode, hzero, hbd, hkind, hsz, hop]
  cases decodeDepth (rawFields w).bd <;> rfl

theorem decode_of_depth {w : Word} {bd : BitDepth} (hzero : (rawFields w).zero = 0) (hbd : (rawFields w).bd = depthCode bd) :
    decode w = decodeOp (rawFields w) bd := by
  rw [decode_eq, hzero, hbd, decodeDepth_depthCode]
  rfl

/-- Everything the decoder can do: refuse ZERO, refuse BD, or dispatch on OP. -/
theorem decode_cases (w : Word) :
    ((rawFields w).zero ≠ 0 ∧ decode w = .error .zeroField) ∨
    ((rawFields w).bd = 3 ∧ decode w = .error .reservedDepth) ∨
    (∃ bd, (rawFields w).zero = 0 ∧ (rawFields w).bd = depthCode bd ∧ decode w = decodeOp (rawFields w) bd) := by
  by_cases hzero : (rawFields w).zero = 0
  · have hlt := (fit_rawFields w).bd
    rcases eq_or_ne (rawFields w).bd 3 with hbd | hbd
    · refine .inr (.inl ⟨hbd, ?_⟩)
      rw [decode_eq, hzero, hbd]
      rfl
    · obtain ⟨bd, hcode⟩ := exists_depthCode_eq (n := (rawFields w).bd) (by omega)
      exact .inr (.inr ⟨bd, hzero, hcode.symm, decode_of_depth hzero hcode.symm⟩)
  · exact .inl ⟨hzero, by rw [decode_eq, if_pos hzero]⟩

/-! What the dispatch answers -/

/-- An answer of the decoder that fits the fields: an instruction whose word has them, or a clause of 30 R97 that holds of them. -/
def Faithful (f : RawFields) (bd : BitDepth) : Except Illegal Instr → Prop
  | .ok i    => encode i = commandWord (f.op + f.sz * 16) f.kind (depthCode bd)
  | .error c => clauseHolds c f = true

theorem decodeOp_of_reserved {f : RawFields} (h : f.op = 0 ∨ 9 ≤ f.op) (bd : BitDepth) :
    decodeOp f bd = .error .reservedOp := by
  unfold decodeOp
  split
  case h_9 => rfl
  all_goals omega

/-- Every answer of the dispatch fits the fields: under each of the eight named OP codes each of the 16 pairs of SZ and K or TXT is a
command with these fields or falls under a clause, and every other OP falls under clause (b) (30 R97, R101). -/
theorem faithful_decodeOp {f : RawFields} (hf : f.Fit) (bd : BitDepth) : Faithful f bd (decodeOp f bd) := by
  by_cases hreserved : f.op = 0 ∨ 9 ≤ f.op
  · rw [decodeOp_of_reserved hreserved]
    simpa [Faithful, clauseHolds] using hreserved
  · obtain ⟨op, sz, kind, code, rest⟩ := f
    obtain ⟨-, hsz, hkind, -⟩ := hf
    obtain ⟨hlo, hhi⟩ : 1 ≤ op ∧ op ≤ 8 := by
      simp only at hreserved
      omega
    interval_cases op
    all_goals
      interval_cases kind <;> interval_cases sz <;> exact rfl

/-- A word that decodes is the word of its instruction (30 R101). -/
theorem encode_of_decode_ok {w : Word} {i : Instr} (h : decode w = .ok i) : encode i = w := by
  rcases decode_cases w with ⟨-, hd⟩ | ⟨-, hd⟩ | ⟨bd, hzero, hbd, hd⟩ <;> rw [h] at hd
  · cases hd
  · cases hd
  · have hword : Faithful (rawFields w) bd (.ok i) := hd ▸ faithful_decodeOp (fit_rawFields w) bd
    rw [Faithful, ← hbd, commandWord_rawFields hzero] at hword
    exact hword

/-- The clause that the decoder refuses a word under holds of the word (30 R97). -/
theorem clauseHolds_of_decode_error {w : Word} {c : Illegal} (h : decode w = .error c) : clauseHolds c (rawFields w) = true := by
  rcases decode_cases w with ⟨hzero, hd⟩ | ⟨hbd, hd⟩ | ⟨bd, -, -, hd⟩ <;> rw [h] at hd
  · cases hd
    simpa [clauseHolds] using hzero
  · cases hd
    simpa [clauseHolds] using hbd
  · have hclause : Faithful (rawFields w) bd (.error c) := hd ▸ faithful_decodeOp (fit_rawFields w) bd
    exact hclause

theorem mem_allClauses (c : Illegal) : c ∈ allClauses := by cases c <;> decide

/-- One clause is enough to make a word illegal (30 R97). -/
theorem wellFormedWord_of_clauseHolds {w : Word} {c : Illegal} (h : clauseHolds c (rawFields w) = true) : wellFormedWord w = false := by
  refine List.all_eq_false.2 ⟨c, mem_allClauses c, ?_⟩
  simp [h]

/-- The decoder on a command's word (30 R101). -/
theorem decode_commandWord {base txt : Nat} (hbase : base < 256) (htxt : base / 64 + txt < 4) (bd : BitDepth) :
    decode (commandWord base txt (depthCode bd)) = decodeOp (commandFields base txt (depthCode bd)) bd := by
  have hfields := rawFields_commandWord hbase htxt (depthCode_lt_four bd)
  rw [decode_of_depth (congrArg RawFields.zero hfields) (congrArg RawFields.bd hfields), hfields]

theorem txCode_lt_four (tx : TxType) : txCode tx < 4 := by cases tx <;> decide

theorem decodeTxType_txCode (tx : TxType) : decodeTxType (txCode tx) = tx := by cases tx <;> rfl

/-- Settles O1: the fields of an instruction's word lead the dispatch to its row, and TXT, where the row has one, is read back. -/
theorem decodeOfEncode : Obligations.DecodeOfEncode := by
  intro i
  cases i with
  | fht4 tx bd | fht8 tx bd | fht16 tx bd | iht4Add tx bd | iht8Add tx bd | iht16Add tx bd =>
    have htx : 0 + txCode tx < 4 := by simpa using txCode_lt_four tx
    rw [encode, decode_commandWord (by decide) htx]
    simp [decodeOp, commandFields, decodeFHT, decodeIHTA, decodeTxType_txCode]
  | _ => exact decode_commandWord (by decide) (by decide) _

/-- Settles O2: what the dispatch answers has the fields of the word, and the fields are the whole word. -/
theorem encodeOfDecode : Obligations.EncodeOfDecode := fun _ _ h => encode_of_decode_ok h

/-- The word of every instruction is legal: the family `EncodeLegal` as one statement (30 R97). -/
theorem wellFormedWord_encode (i : Instr) : wellFormedWord (encode i) = true := by
  open Laws.EncodeLegal in
  cases i
  exacts [fdct4 _, fdct8 _, fdct16 _, fdct32 _, fadst4 _, fadst8 _, fadst16 _, fwht4 _,
    idct4 _, idct8 _, idct16 _, idct32 _, iadst4 _, iadst8 _, iadst16 _, iwht4 _,
    fht4 _ _, fht8 _ _, fht16 _ _, fht32 _, iht4Add _ _, iht8Add _ _, iht16Add _ _, iht32Add _,
    fdc4 _, fdc8 _, fdc16 _, fdc32 _, idc4Add _, idc8Add _, idc16Add _, idc32Add _, fwht4x4 _, iwht4x4Add _]

/-- Settles O3: a word that decodes is an instruction's word, which is legal; a word that does not falls under the clause that refuses
it. -/
theorem decoderAcceptsLegalWords : Obligations.DecoderAcceptsLegalWords := by
  intro w
  constructor
  · rintro ⟨i, hi⟩
    rw [← encode_of_decode_ok hi]
    exact wellFormedWord_encode i
  · intro hlegal
    cases hd : decode w with
    | ok i => exact ⟨i, rfl⟩
    | error c =>
      have hillegal := wellFormedWord_of_clauseHolds (clauseHolds_of_decode_error hd)
      simp [hlegal] at hillegal

/-! Counting the legal words -/

/-- A word with a bit of ZERO set is illegal (30 R97 a, R99). -/
theorem wellFormedWord_of_le {w : Word} (h : 1024 ≤ w.toNat) : wellFormedWord w = false := by
  apply wellFormedWord_of_clauseHolds (c := .zeroField)
  have hzero : w.toNat / 1024 ≠ 0 := by omega
  simpa [clauseHolds, rawFields] using hzero

/-- With ZERO = 0 and BD other than 3, legality does not depend on BD (30 R97). -/
theorem wellFormedWord_of_depth {n bd : Nat} (hn : n < 256) (hbd : bd < 3) :
    wellFormedWord (commandWord n 0 bd) = wellFormedWord (commandWord n 0 0) := by
  have hfields := rawFields_commandWord (txt := 0) hn (by omega) (show bd < 4 by omega)
  have hfields0 := rawFields_commandWord (txt := 0) hn (by omega) (show 0 < 4 by decide)
  have hne : bd ≠ 3 := by omega
  simp [wellFormedWord, allClauses, clauseHolds, isFormatK, isFormatB, isFormatD, isFormatW, hfields, hfields0,
    commandFields, hne]

/-- How many of the 256 words with ZERO = 0 and a given BD are legal. -/
def legalCount (bd : Nat) : Nat := (List.range 256).countP fun n => wellFormedWord (commandWord n 0 bd)

theorem legalCount_zero : legalCount 0 = 52 := by decide +kernel

theorem legalCount_of_lt_three {bd : Nat} (hbd : bd < 3) : legalCount bd = 52 := by
  rw [← legalCount_zero]
  refine List.countP_congr fun n hn => ?_
  rw [wellFormedWord_of_depth (List.mem_range.1 hn) hbd]

/-- No word with BD 3 is legal (30 R97 c). -/
theorem legalCount_three : legalCount 3 = 0 := by
  refine List.countP_eq_zero.2 fun n hn => ?_
  have hn256 : n < 256 := List.mem_range.1 hn
  have hfields := rawFields_commandWord (txt := 0) hn256 (by omega) (show 3 < 4 by decide)
  have hclause : clauseHolds .reservedDepth (rawFields (commandWord n 0 3)) = true := by simp [hfields, commandFields, clauseHolds]
  have hillegal := wellFormedWord_of_clauseHolds hclause
  simp [hillegal]

/-- The words below 256 * d are those with ZERO = 0 and BD below d (30 R91). -/
theorem countP_wellFormedWord (d : Nat) :
    (List.range (256 * d)).countP (fun n => wellFormedWord (BitVec.ofNat 32 n)) = ((List.range d).map legalCount).sum := by
  induction d with
  | zero => rfl
  | succ d ih =>
    have hword : ∀ n, BitVec.ofNat 32 (256 * d + n) = commandWord n 0 d := fun n => by
      rw [commandWord]
      congr 1
      omega
    have hblock : (List.range 256).countP (fun n => wellFormedWord (BitVec.ofNat 32 (256 * d + n))) = legalCount d := by
      simp only [hword, legalCount]
    rw [Nat.mul_succ, List.range_add, List.countP_append, ih, List.countP_map, List.range_succ (n := d), List.map_append,
      List.sum_append, List.map_singleton, List.sum_singleton, ← hblock]
    rfl

/-- Settles O5: 52 words are legal at each of the three depths, and a word of 1024 or more has a bit of ZERO set. -/
theorem legalWordCount : Obligations.LegalWordCount := by
  refine ⟨?_, fun w => wellFormedWord_of_le⟩
  calc ((List.range 1024).filter fun n => wellFormedWord (BitVec.ofNat 32 n)).length
      = ((List.range 4).map legalCount).sum := by rw [← List.countP_eq_length_filter, ← countP_wellFormedWord]
    _ = legalCount 0 + (legalCount 1 + (legalCount 2 + legalCount 3)) := by simp [List.range_succ]
    _ = 156 := by
      rw [legalCount_zero, legalCount_of_lt_three (by decide), legalCount_of_lt_three (by decide), legalCount_three]

/-- Settles O6: each word is one row of the opcode map with its operands, and OP 0 is reserved. -/
theorem writtenOutWordsDecode : Obligations.WrittenOutWordsDecode := ⟨rfl, rfl, rfl, rfl, rfl⟩

end Sys2Proof
end

-- ==== Proofs: the opcode map ====
section
/-! The match and mask columns of the opcode map (spec 30 R101): a mask leaves out the fields a row has free, so the word is the match plus
those fields. -/

namespace Sys2Proof.Machine

/-- The bits of a field alone, in their place (00 R6). -/
theorem and_fieldMask (w : Word) {lo len : Nat} (h : lo + len ≤ 32) :
    w &&& (BitVec.ofNat 32 (2 ^ len - 1) <<< lo) = BitVec.ofNat 32 (field w lo len * 2 ^ lo) := by
  have hlow : (w >>> lo) &&& BitVec.ofNat 32 (2 ^ len - 1) = BitVec.ofNat 32 (field w lo len) := by
    apply BitVec.eq_of_toNat_eq
    have hlt : 2 ^ len ≤ 2 ^ 32 := Nat.pow_le_pow_right (by decide) (by omega)
    have hpos := Nat.two_pow_pos len
    have hfield : field w lo len < 2 ^ len := Nat.mod_lt _ hpos
    rw [BitVec.toNat_and, BitVec.toNat_ushiftRight, BitVec.toNat_ofNat, BitVec.toNat_ofNat, Nat.mod_eq_of_lt (by omega),
      Nat.mod_eq_of_lt (by omega), Nat.and_two_pow_sub_one_eq_mod, field]
  calc w &&& (BitVec.ofNat 32 (2 ^ len - 1) <<< lo)
      = ((w >>> lo) &&& BitVec.ofNat 32 (2 ^ len - 1)) <<< lo := by
        rw [BitVec.shiftLeft_and_distrib, BitVec.shiftLeft_ushiftRight, BitVec.and_assoc, ← BitVec.shiftLeft_and_distrib,
          BitVec.allOnes_and]
    _ = BitVec.ofNat 32 (field w lo len) <<< lo := by rw [hlow]
    _ = BitVec.ofNat 32 (field w lo len * 2 ^ lo) := by
      apply BitVec.eq_of_toNat_eq
      simp [Nat.shiftLeft_eq]

/-- A word is the bits outside a mask and the bits inside it. -/
theorem and_not_add_and (w m : Word) : (w &&& ~~~m) + (w &&& m) = w := by
  have hdisjoint : (w &&& ~~~m) &&& (w &&& m) = 0 := by
    ext k hk
    simp +contextual
  rw [BitVec.add_eq_or_of_and_eq_zero _ _ hdisjoint, ← BitVec.and_or_distrib_left, BitVec.or_comm, BitVec.or_not_self,
    BitVec.and_allOnes]

theorem commandWord_eq_add (base txt bd : Nat) :
    commandWord base txt bd = BitVec.ofNat 32 base + BitVec.ofNat 32 (txt * 64 + bd * 256) := by
  rw [commandWord, ← BitVec.ofNat_add, Nat.add_assoc]

/-- The mask of a row with a fixed TXT or K field leaves BD out (30 R101). -/
theorem and_fixedMask_add (w : Word) : (w &&& 0xFFFFFCFF) + BitVec.ofNat 32 (0 * 64 + (rawFields w).bd * 256) = w := by
  have hfree : w &&& 0x300 = BitVec.ofNat 32 (0 * 64 + (rawFields w).bd * 256) := by
    have h := and_fieldMask w (lo := 8) (len := 2) (by decide)
    simpa [field, rawFields, Nat.shiftRight_eq_div_pow] using h
  rw [← hfree]
  exact and_not_add_and w 0x300

/-- The mask of a row with a free TXT field leaves TXT and BD out (30 R101). -/
theorem and_freeMask_add (w : Word) :
    (w &&& 0xFFFFFC3F) + BitVec.ofNat 32 ((rawFields w).kind * 64 + (rawFields w).bd * 256) = w := by
  have hfree : w &&& 0x3C0 = BitVec.ofNat 32 ((rawFields w).kind * 64 + (rawFields w).bd * 256) := by
    have h := and_fieldMask w (lo := 6) (len := 4) (by decide)
    have hfield : field w 6 4 * 2 ^ 6 = (rawFields w).kind * 64 + (rawFields w).bd * 256 := by
      simp only [field, rawFields, Nat.shiftRight_eq_div_pow]
      omega
    rwa [hfield] at h
  rw [← hfree]
  exact and_not_add_and w 0x3C0

theorem commandWord_and_fixedMask {base : Nat} (hbase : base < 256) (bd : BitDepth) :
    commandWord base 0 (depthCode bd) &&& 0xFFFFFCFF = BitVec.ofNat 32 base := by
  have h := and_fixedMask_add (commandWord base 0 (depthCode bd))
  rw [rawFields_commandWord hbase (by omega) (depthCode_lt_four bd)] at h
  exact add_right_cancel (h.trans (commandWord_eq_add ..))

theorem commandWord_and_freeMask {base : Nat} (hbase : base < 64) (tx : TxType) (bd : BitDepth) :
    commandWord base (txCode tx) (depthCode bd) &&& 0xFFFFFC3F = BitVec.ofNat 32 base := by
  have htx := txCode_lt_four tx
  have hkind : (commandFields base (txCode tx) (depthCode bd)).kind = txCode tx := by
    rw [commandFields, Nat.div_eq_of_lt hbase, Nat.zero_add]
  have h := and_freeMask_add (commandWord base (txCode tx) (depthCode bd))
  rw [rawFields_commandWord (by omega) (by omega) (depthCode_lt_four bd), hkind] at h
  exact add_right_cancel (h.trans (commandWord_eq_add ..))

/-- The word of an instruction matches its row (30 R101). -/
theorem encode_and_mask (i : Instr) : encode i &&& (opcodeRow i).2 = (opcodeRow i).1 := by
  cases i with
  | fht4 | fht8 | fht16 | iht4Add | iht8Add | iht16Add => exact commandWord_and_freeMask (by decide) _ _
  | _ => exact commandWord_and_fixedMask (by decide) _

/-- A BD other than 3 is the code of a bit depth (30 R98). -/
theorem exists_depthCode_of_bd_ne {w : Word} (h : (w >>> 8) &&& 3 ≠ 3) : ∃ bd, depthCode bd = (rawFields w).bd := by
  have hlt := (fit_rawFields w).bd
  have hbd : (rawFields w).bd ≠ 3 := by
    intro hcode
    apply h
    apply BitVec.eq_of_toNat_eq
    rw [BitVec.toNat_and, BitVec.toNat_ushiftRight, Nat.shiftRight_eq_div_pow]
    exact (Nat.and_two_pow_sub_one_eq_mod _ 2).trans hcode
  exact exists_depthCode_eq (by omega)

/-- A word that matches a row with a fixed TXT or K field decodes by the row's match. -/
theorem decode_of_fixedMask {w : Word} {base : Nat} (hbase : base < 256) (h : w &&& 0xFFFFFCFF = BitVec.ofNat 32 base)
    (hbd : (w >>> 8) &&& 3 ≠ 3) :
    ∃ bd, decode w = decodeOp (commandFields base 0 (depthCode bd)) bd := by
  obtain ⟨bd, hcode⟩ := exists_depthCode_of_bd_ne hbd
  have hw : commandWord base 0 (depthCode bd) = w := by
    rw [commandWord_eq_add, hcode, ← h, and_fixedMask_add]
  exact ⟨bd, hw ▸ decode_commandWord hbase (by omega) bd⟩

/-- A word that matches a row with a free TXT field decodes by the row's match and some TXT. -/
theorem decode_of_freeMask {w : Word} {base : Nat} (hbase : base < 64) (h : w &&& 0xFFFFFC3F = BitVec.ofNat 32 base)
    (hbd : (w >>> 8) &&& 3 ≠ 3) :
    ∃ txt bd, decode w = decodeOp (commandFields base txt (depthCode bd)) bd := by
  obtain ⟨bd, hcode⟩ := exists_depthCode_of_bd_ne hbd
  have hkind := (fit_rawFields w).kind
  have hw : commandWord base (rawFields w).kind (depthCode bd) = w := by
    rw [commandWord_eq_add, hcode, ← h, and_freeMask_add]
  have hdecode := decode_commandWord (base := base) (txt := (rawFields w).kind) (by omega) (by omega) bd
  exact ⟨_, bd, by rwa [hw] at hdecode⟩

/-- A word with BD other than 3 that matches a row decodes to a command of that row (30 R101). -/
theorem exists_decode_of_match {w : Word} {i : Instr} (h : w &&& (opcodeRow i).2 = (opcodeRow i).1) (hbd : (w >>> 8) &&& 3 ≠ 3) :
    ∃ j, decode w = .ok j ∧ opcodeRow j = opcodeRow i := by
  cases i with
  | fht4 | fht8 | fht16 | iht4Add | iht8Add | iht16Add =>
    obtain ⟨txt, bd, hd⟩ := decode_of_freeMask (by decide) h hbd
    exact ⟨_, hd, rfl⟩
  | _ =>
    obtain ⟨bd, hd⟩ := decode_of_fixedMask (by decide) h hbd
    exact ⟨_, hd, rfl⟩

/-- Settles O4: a word that decodes is an instruction's word, which matches its row; and a word that matches a row is the row's match with
some BD and, where the row has it free, some TXT. -/
theorem decoderFollowsOpcodeMap : Obligations.DecoderFollowsOpcodeMap := by
  refine ⟨fun w i hd => ?_, fun w i => exists_decode_of_match⟩
  rw [← encode_of_decode_ok hd]
  exact encode_and_mask i

end Sys2Proof.Machine
end

-- ==== Proofs: the start of a command and its refusal ====
section
/-! The four host writes that start a command (spec 30 R104, 70 R311), and what a refused command does: an illegal word, and the
descriptor's checks in their order (30 R97, R100, 48 R255, R259, 60 R281, R282). -/

namespace Sys2Proof.Machine

/-! The start -/

/-- A write of the word `w` to the CMD of an idle engine (10 R34, 48 R255). -/
theorem step_writeCmd_of_idle {s : State} {w : Word} {e : Bool} {rest : List HostEvent} (hi : s.busy = false)
    (hh : s.host = { act := .writeReg .cmd w.toNat, early := e } :: rest) :
    step s = .next (start w { s with host := rest }) := by
  have hi' : State.busy { s with host := rest } = false := hi
  simp [step_of_idle hi hh, hostAct, writeReg, hi']

/-- A run of k + 1 steps whose first step answers. -/
theorem run_succ {s t : State} {k : Nat} (h : step s = .next t) : Host.Core.run core (k + 1) s = Host.Core.run core k t := by
  have h' : core.step s = .next t := h
  simp only [Host.Core.run, h']

/-- Settles O11: SRC, DST and STRIDE are written on an idle engine, and the write of CMD latches them. -/
theorem launchStartsCommand : Obligations.LaunchStartsCommand := by
  intro i src dst stride s rest hi hsrc hdst _ hh
  refine Eq.trans (run_succ (step_writeSrc_of_idle hi hsrc hh)) ?_
  refine Eq.trans (run_succ (step_writeDst_of_idle hi hdst rfl)) ?_
  exact run_two (step_writeStride_of_idle hi rfl) (step_writeCmd_of_idle hi rfl)

/-! The refusal -/

theorem updateStatus_set (w u : Word) : updateStatus w 0 u = w ||| u := by
  have hkeep : w &&& ~~~(0 : Word) = w := BitVec.and_allOnes
  rw [updateStatus, hkeep]

/-- A refused command sets its fault bit and completes, and nothing else changes (60 R280 to R282). -/
theorem refuse_eq (f : FaultBit) (s : State) :
    refuse f s = { s with status := doneStatus (s.status ||| bitWord f.code), raced := [] } := by
  rw [refuse, raise, updateStatus_set, complete, updateStatus_done]

theorem refuse_cfg_eq (s : State) : refuse .cfg s = { s with status := doneStatus (s.status ||| 4), raced := [] } := refuse_eq .cfg s

theorem refuse_mem_eq (s : State) : refuse .mem s = { s with status := doneStatus (s.status ||| 8), raced := [] } := refuse_eq .mem s

theorem exec_of_check_eq_some {i : Instr} {s : State} {f : FaultBit} (h : (shapeOf i).check s.plat s.latch = some f) :
    exec i s = .next (refuse f s) := by
  obtain ⟨c, hexec⟩ := exec_eq_runCommand i s
  rw [hexec, runCommand_refused h]

/-- A busy engine on a word that does not decode completes at once, before any action of the host (48 R255, R259). -/
theorem step_of_decode_error {s : State} {c : Illegal} (hb : s.busy = true) (hd : decode s.latch.cmd = .error c) :
    step s = .next (refuse .cfg s) := by
  have hrefused : s.runningShape = none := by simp [State.runningShape, hb, hd]
  rcases step_cases s with ⟨-, hidle, -⟩ | ⟨-, hs⟩ | ⟨e, rest, -, hearly, -⟩
  · simp [hb] at hidle
  · rw [hs, engineStep, hd]
  · simp [hb, hrefused] at hearly

/-- Settles O13: the decoder accepts no illegal word. -/
theorem illegalWordRaisesCfg : Obligations.IllegalWordRaisesCfg := by
  intro s hb hillegal
  cases hd : decode s.latch.cmd with
  | ok i =>
    have hlegal := (decoderAcceptsLegalWords s.latch.cmd).1 ⟨i, hd⟩
    simp [hillegal] at hlegal
  | error c =>
    rw [step_of_decode_error hb hd, refuse_cfg_eq]

/-! The checks of the descriptor -/

theorem Shape.strideOk_eq_false {sh : Shape} {d : Descriptor} :
    sh.strideOk d = false ↔ sh.family ≠ .kernel ∧ d.stride.toNat < sh.n := by
  unfold Shape.strideOk
  cases sh.family <;> simp

theorem Shape.alignOk_eq_false {sh : Shape} {d : Descriptor} :
    sh.alignOk d = false ↔ d.src % sh.srcSize ≠ 0 ∨ d.dst % sh.dstSize ≠ 0 := by
  simp only [Shape.alignOk, Bool.and_eq_false_iff, decide_eq_false_iff_not, ne_eq]

/-- When an access is admitted (20 R71). -/
theorem Platform.admits_iff {p : Platform} {a n : Nat} :
    Platform.admits p a n = true ↔
      a + n ≤ 2 ^ p.addrW ∧ ∃ r ∈ p.regions, r.base ≤ a ∧ a + n ≤ r.base + r.len ∧ n ∈ r.sizes := by
  simp [Platform.admits, Platform.memValid, Region.admits, and_assoc]

theorem Shape.admitOk_iff {sh : Shape} {p : Platform} {d : Descriptor} :
    sh.admitOk p d = true ↔
      ∀ e, (e ∈ sh.readElems d ∨ e ∈ sh.dstElems d) → Platform.admits p e.addr e.size = true := by
  simp only [Shape.admitOk, List.all_eq_true, List.mem_append]

theorem Shape.check_of_strideOk_eq_false {sh : Shape} {p : Platform} {d : Descriptor} (h : sh.strideOk d = false) :
    sh.check p d = some .cfg := by simp [Shape.check, h]

theorem Shape.check_of_alignOk_eq_false {sh : Shape} {p : Platform} {d : Descriptor} (hs : sh.strideOk d = true)
    (h : sh.alignOk d = false) :
    sh.check p d = some .cfg := by simp [Shape.check, hs, h]

theorem Shape.check_of_admitOk_eq_false {sh : Shape} {p : Platform} {d : Descriptor} (hs : sh.strideOk d = true)
    (ha : sh.alignOk d = true) (h : sh.admitOk p d = false) : sh.check p d = some .mem := by simp [Shape.check, hs, ha, h]

/-- Settles O12: each branch is the check that decides. -/
theorem descriptorChecksInOrder : Obligations.DescriptorChecksInOrder := by
  intro i s
  simp only [← Platform.admits_iff, ← Shape.admitOk_iff]
  split
  · next hstride => rw [exec_of_check_eq_some (Shape.check_of_strideOk_eq_false (Shape.strideOk_eq_false.2 hstride)), refuse_cfg_eq]
  · next hstride =>
    have hs : (shapeOf i).strideOk s.latch = true := by rwa [← Bool.not_eq_false, Shape.strideOk_eq_false]
    split
    · next halign => rw [exec_of_check_eq_some (Shape.check_of_alignOk_eq_false hs (Shape.alignOk_eq_false.2 halign)), refuse_cfg_eq]
    · next halign =>
      have ha : (shapeOf i).alignOk s.latch = true := by rwa [← Bool.not_eq_false, Shape.alignOk_eq_false]
      refine ⟨fun ⟨e, he, hout⟩ => ?_, fun hadmit => Shape.check_eq_none.2 ⟨hs, ha, hadmit⟩⟩
      have hadmit : (shapeOf i).admitOk s.plat s.latch = false :=
        Bool.eq_false_iff.2 fun h => hout (Shape.admitOk_iff.1 h e he)
      rw [exec_of_check_eq_some (Shape.check_of_admitOk_eq_false hs ha hadmit), refuse_mem_eq]

end Sys2Proof.Machine
end

-- ==== Proofs: the round-shift ====
section
/-! The round-shift `rs` in one equation (spec 40 R124). The accumulator of every depth is wide enough for the rule's six values. -/

namespace Sys2Proof.Machine

theorem rs_eq_ite (B : Widths) (v : Int) :
    rs B v = if fitsS v B.aw = true ∧ fitsS (v + 8192) B.aw = true then some ((v + 8192) / 16384) else none := by
  split
  · next hfits =>
    obtain ⟨hv, hsum⟩ := hfits
    exact rs_eq_some.2 ⟨hv, hsum, rfl⟩
  · next hfits =>
    refine Option.eq_none_iff_forall_ne_some.2 fun w hw => hfits ?_
    obtain ⟨hv, hsum, -⟩ := rs_eq_some.1 hw
    exact ⟨hv, hsum⟩

/-- The accumulator has 32 bits or more at every depth (47 R240). -/
theorem fitsS_aw_of_bounds (bd : BitDepth) {v : Int} (hlo : -2147483648 ≤ v) (hhi : v ≤ 2147483647) :
    fitsS v (widths bd).aw = true := by
  cases bd <;> simp only [fitsS_iff, widths] <;> omega

/-- Where the sum fits 32 bits, the round-shift answers at every depth. -/
theorem rs_widths (bd : BitDepth) {v : Int} (hlo : -2147483648 ≤ v) (hhi : v + 8192 ≤ 2147483647) :
    rs (widths bd) v = some ((v + 8192) / 16384) :=
  rs_eq_some.2 ⟨fitsS_aw_of_bounds bd hlo (by omega), fitsS_aw_of_bounds bd (by omega) hhi, rfl⟩

/-- The round-shift is odd off the ties (40 R124). -/
theorem rs_neg_iff {B : Widths} {v p q : Int} (hp : rs B v = some p) (hq : rs B (-v) = some q) :
    q = -p ↔ v % 16384 ≠ 8192 := by
  obtain ⟨-, -, rfl⟩ := rs_eq_some.1 hp
  obtain ⟨-, -, rfl⟩ := rs_eq_some.1 hq
  omega

/-- Settles O28. -/
theorem roundShift : Obligations.RoundShift := by
  refine ⟨rs_eq_ite, fun bd => ?_, fun B v p q => rs_neg_iff⟩
  refine ⟨?_, ?_, ?_, ?_, ?_, ?_⟩ <;> rw [rs_widths bd (by decide) (by decide)] <;> rfl

end Sys2Proof.Machine
end

-- ==== Proofs: the coefficient ROMs ====
section
/-! The ROM words that the kernels read, word by word (spec 40 R120, R121). -/

namespace Sys2Proof.Machine

theorem C_bounds {k : Nat} (h1 : 1 ≤ k) (h31 : k ≤ 31) : 0 < C k ∧ C k < 16384 := by
  interval_cases k <;> decide

theorem C_succ_lt {k : Nat} (h1 : 1 ≤ k) (h30 : k ≤ 30) : C (k + 1) < C k := by
  interval_cases k <;> decide

/-- C[k] and C[32 - k] are a cosine and a sine of one angle, scaled by 2^14 and rounded. -/
theorem C_sq_add_sq {k : Nat} (h1 : 1 ≤ k) (h31 : k ≤ 31) : |C k * C k + C (32 - k) * C (32 - k) - 2 ^ 28| < 2 ^ 15 := by
  rw [abs_lt]
  interval_cases k <;> decide

theorem S_bounds {k : Nat} (h1 : 1 ≤ k) (h4 : k ≤ 4) : 0 < S k ∧ S k < 16384 := by
  interval_cases k <;> decide

/-- Settles O29. -/
theorem romTables : Obligations.RomTables :=
  ⟨fun _ => C_bounds, fun _ => C_succ_lt, fun _ => C_sq_add_sq, rfl, fun _ => S_bounds, rfl⟩

end Sys2Proof.Machine
end

-- ==== Proofs: the kernels of the zero vector ====
section
/-! A kernel of the zero vector answers the zero vector (spec 40 R130, 41 R153, 43 R176): each value that its rule writes down is a
sum of products of zeros, and zero passes every check and is kept by every shift; the ADST kernels test for the zero vector first.
Since a kernel reads its inputs only (`kernelsReadTheirInputsOnly`), the register file may be taken to be all zero. -/

namespace Sys2Proof.Machine

@[simp] theorem fitsS_zero (n : Nat) : fitsS 0 n = true := by
  have hp : (1 : Int) ≤ 2 ^ (n - 1) := one_le_pow₀ (by norm_num)
  rw [fitsS_iff]
  omega

@[simp] theorem low_zero (B : Widths) : low B 0 = some 0 := low_eq_some.2 ⟨fitsS_zero _, rfl⟩

@[simp] theorem acc_zero (B : Widths) : acc B 0 = some 0 := acc_eq_some.2 ⟨fitsS_zero _, rfl⟩

@[simp] theorem rs_widths_zero (bd : BitDepth) : rs (widths bd) 0 = some 0 := rs_widths bd (by decide) (by decide)

@[simp] theorem rsLow_widths_zero (bd : BitDepth) : rsLow (widths bd) 0 = some 0 :=
  rsLow_eq_some.2 ⟨rs_widths_zero bd, fitsS_zero _⟩

@[simp] theorem asr_zero (n : Nat) : asr 0 n = 0 := Int.zero_ediv _

@[simp] theorem ix_zeros (n : Nat) : ix (zeros n) = fun _ => 0 := by
  funext k
  by_cases hk : k < n <;> simp [ix, zeros, hk]

@[simp] theorem span_zero (a n : Nat) : span a n (fun _ => some 0) = List.replicate n (some 0) := by simp [span]

@[simp] theorem allZero_zero (n : Nat) : allZero n (fun _ => 0) = true := by simp [allZero]

/-- A stage of zeros that pass their checks is a vector of zeros. -/
theorem allSome_eq_zeros {n : Nat} {xs : List (Option Int)} (hn : xs.length = n) (h : ∀ x ∈ xs, x = some 0) :
    allSome xs = some (zeros n) := by
  subst hn
  induction xs with
  | nil => rfl
  | cons x xs ih =>
    obtain ⟨rfl, hxs⟩ := List.forall_mem_cons.1 h
    simp only [allSome, ih hxs]
    rfl

theorem fdct4_zero (bd : BitDepth) : fdct4 (widths bd) (fun _ => 0) = some (zeros 4) := by
  unfold fdct4
  repeat refine Option.bind_eq_some_iff.2 ⟨0, by simp, ?_⟩
  rfl

theorem fdct8_zero (bd : BitDepth) : fdct8 (widths bd) (fun _ => 0) = some (zeros 8) := by
  unfold fdct8
  repeat refine Option.bind_eq_some_iff.2 ⟨0, by simp, ?_⟩
  rfl

theorem fdct16Even_zero (bd : BitDepth) : fdct16Even (widths bd) (fun _ => 0) = some (zeros 8) := by
  unfold fdct16Even
  repeat refine Option.bind_eq_some_iff.2 ⟨0, by simp, ?_⟩
  rfl

theorem fdct16Odd_zero (bd : BitDepth) : fdct16Odd (widths bd) (fun _ => 0) = some (zeros 8) := by
  unfold fdct16Odd
  repeat refine Option.bind_eq_some_iff.2 ⟨0, by simp, ?_⟩
  rfl

theorem fdct16_zero (bd : BitDepth) : fdct16 (widths bd) (fun _ => 0) = some (zeros 16) := by
  refine Option.bind_eq_some_iff.2 ⟨zeros 8, allSome_eq_zeros rfl (by simp), ?_⟩
  refine Option.bind_eq_some_iff.2 ⟨zeros 8, allSome_eq_zeros rfl (by simp), ?_⟩
  refine Option.bind_eq_some_iff.2 ⟨zeros 8, by rw [ix_zeros, fdct16Even_zero], ?_⟩
  refine Option.bind_eq_some_iff.2 ⟨zeros 8, by rw [ix_zeros, fdct16Odd_zero], ?_⟩
  rfl

theorem fdct32_zero (bd : BitDepth) : fdct32 (widths bd) (fun _ => 0) = some (zeros 32) := by
  unfold fdct32
  repeat refine Option.bind_eq_some_iff.2 ⟨zeros 32, allSome_eq_zeros rfl (by simp), ?_⟩
  exact allSome_eq_zeros rfl (by simp)

theorem fadst4_zero (B : Widths) : fadst4 B (fun _ => 0) = some (zeros 4) := if_pos (allZero_zero 4)

theorem fadst8_zero (B : Widths) : fadst8 B (fun _ => 0) = some (zeros 8) := if_pos (allZero_zero 8)

theorem fadst16_zero (B : Widths) : fadst16 B (fun _ => 0) = some (zeros 16) := if_pos (allZero_zero 16)

theorem fwht4_zero (B : Widths) : fwht4 B (fun _ => 0) = some (zeros 4) := by
  unfold fwht4
  repeat refine Option.bind_eq_some_iff.2 ⟨0, by simp, ?_⟩
  rfl

theorem idct4_zero (bd : BitDepth) : idct4 (widths bd) (fun _ => 0) = some (zeros 4) := by
  unfold idct4
  repeat refine Option.bind_eq_some_iff.2 ⟨0, by simp, ?_⟩
  rfl

theorem idct8_zero (bd : BitDepth) : idct8 (widths bd) (fun _ => 0) = some (zeros 8) := by
  unfold idct8
  repeat refine Option.bind_eq_some_iff.2 ⟨0, by simp, ?_⟩
  rfl

theorem idct16_zero (bd : BitDepth) : idct16 (widths bd) (fun _ => 0) = some (zeros 16) := by
  unfold idct16
  repeat refine Option.bind_eq_some_iff.2 ⟨zeros 16, allSome_eq_zeros rfl (by simp), ?_⟩
  exact allSome_eq_zeros rfl (by simp)

theorem idct32_zero (bd : BitDepth) : idct32 (widths bd) (fun _ => 0) = some (zeros 32) := by
  unfold idct32
  repeat refine Option.bind_eq_some_iff.2 ⟨zeros 32, allSome_eq_zeros rfl (by simp), ?_⟩
  exact allSome_eq_zeros rfl (by simp)

theorem iadst4_zero (B : Widths) : iadst4 B (fun _ => 0) = some (zeros 4) := if_pos (allZero_zero 4)

theorem iadst8_zero (B : Widths) : iadst8 B (fun _ => 0) = some (zeros 8) := if_pos (allZero_zero 8)

theorem iadst16_zero (B : Widths) : iadst16 B (fun _ => 0) = some (zeros 16) := if_pos (allZero_zero 16)

theorem iwht4_zero (B : Widths) : iwht4 B (fun _ => 0) = some (zeros 4) := by
  unfold iwht4
  repeat refine Option.bind_eq_some_iff.2 ⟨0, by simp, ?_⟩
  rfl

/-- Settles O34, kernel by kernel on the register file that is zero everywhere. -/
theorem kernelsOfZero : Obligations.KernelsOfZero := by
  intro k hk bd X hX
  rw [kernelsReadTheirInputsOnly k hk (widths bd) X (fun _ => 0) hX]
  simp only [List.mem_cons, List.not_mem_nil, or_false] at hk
  rcases hk with rfl | rfl | rfl | rfl | rfl | rfl | rfl | rfl | rfl | rfl | rfl | rfl | rfl | rfl | rfl | rfl
  exacts [fdct4_zero bd, fdct8_zero bd, fdct16_zero bd, fdct32_zero bd, fadst4_zero (widths bd), fadst8_zero (widths bd),
    fadst16_zero (widths bd), fwht4_zero (widths bd), idct4_zero bd, idct8_zero bd, idct16_zero bd, idct32_zero bd,
    iadst4_zero (widths bd), iadst8_zero (widths bd), iadst16_zero (widths bd), iwht4_zero (widths bd)]

end Sys2Proof.Machine
end

-- ==== Proofs: what a checked computation answers ====
section
/-! A checked computation answers one value or none: what each check lets through, and how the steps of a rule follow each other (spec 40
R124 to R130). The class checks drop out of such a statement, so that it says which integers a rule computes. -/

namespace Sys2Proof.Machine

/-- A checked computation answers, if at all, with the value `v`. -/
def AnswersOnly {α : Type} (o : Option α) (v : α) : Prop := ∀ w, o = some w → w = v

theorem answersOnly_some_iff {α : Type} {v w : α} : AnswersOnly (some v) w ↔ v = w := by simp [AnswersOnly]

theorem answersOnly_some {α : Type} (v : α) : AnswersOnly (some v) v := answersOnly_some_iff.2 rfl

theorem AnswersOnly.bind {α β : Type} {o : Option α} {f : α → Option β} {a : α} {b : β} (ho : AnswersOnly o a)
    (hf : AnswersOnly (f a) b) : AnswersOnly (o >>= f) b := fun w h => by
  obtain ⟨x, hx, hw⟩ := Option.bind_eq_some_iff.1 h
  obtain rfl := ho x hx
  exact hf w hw

theorem answersOnly_acc (B : Widths) (x : Int) : AnswersOnly (acc B x) x := fun _ h => (acc_eq_some.1 h).2.symm

theorem answersOnly_low (B : Widths) (x : Int) : AnswersOnly (low B x) x := fun _ h => (low_eq_some.1 h).2.symm

theorem answersOnly_rs (B : Widths) (x : Int) : AnswersOnly (rs B x) ((x + 8192) / 16384) := fun _ h =>
  (rs_eq_some.1 h).2.2

theorem answersOnly_rsLow (B : Widths) (x : Int) : AnswersOnly (rsLow B x) ((x + 8192) / 16384) := fun _ h =>
  answersOnly_rs B x _ (rsLow_eq_some.1 h).1

theorem answersOnly_pure {α : Type} {v w : α} (h : v = w) : AnswersOnly (pure v : Option α) w :=
  answersOnly_some_iff.2 h

/-- The all-zero test of 40 R130 before a kernel, where the kernel's values on zeros are zeros. -/
theorem answersOnly_allZero {n : Nat} {X : Nat → Int} {o : Option (List Int)} {y : List Int}
    (hzero : (∀ i, i < n → X i = 0) → zeros n = y) (ho : AnswersOnly o y) :
    AnswersOnly (if allZero n X then some (zeros n) else o) y := by
  split
  next h => exact hzero (by simpa [allZero] using h) ▸ answersOnly_some _
  next => exact ho

end Sys2Proof.Machine
end

-- ==== Proofs: the 4-point kernels ====
section
/-! What the 4-point kernels answer, rule by rule (spec 41 R150, R160, R166, 43 R175, R185, R190), and that the two lifting transforms
undo each other. -/

namespace Sys2Proof.Machine

theorem fadst4_values (B : Widths) (X : Nat → Int) : AnswersOnly (fadst4 B X) [
    (5283 * X 0 + 9929 * X 1 + 13377 * X 2 + 15212 * X 3 + 8192) / 16384,
    (13377 * (X 0 + X 1 - X 3) + 8192) / 16384,
    (15212 * X 0 - 5283 * X 1 + 9929 * X 3 - 13377 * X 2 + 8192) / 16384,
    (9929 * X 0 - 15212 * X 1 - 5283 * X 3 + 13377 * X 2 + 8192) / 16384] := by
  refine answersOnly_allZero (fun hX => by simp [hX, zeros]) ?_
  iterate 12 refine (answersOnly_acc B _).bind ?_
  iterate 4 refine (answersOnly_rs B _).bind ?_
  refine answersOnly_pure ?_
  simp only [S]
  ring_nf

theorem fwht4_values (B : Widths) (X : Nat → Int) {e : Int} (he : e = ((X 0 + X 1) - (X 3 - X 2)) / 2) :
    AnswersOnly (fwht4 B X) [X 0 + X 1 + X 2 - e, e - X 2, X 3 - X 2 - X 1 + e, e - X 1] := by
  subst he
  unfold fwht4
  iterate 8 refine (answersOnly_acc B _).bind ?_
  refine answersOnly_pure ?_
  simp only [asr_eq, pow_one]
  ring_nf

theorem idct4_values (B : Widths) (X : Nat → Int) {p q r t : Int}
    (hp : p = ((X 0 + X 2) * 11585 + 8192) / 16384) (hq : q = ((X 0 - X 2) * 11585 + 8192) / 16384)
    (hr : r = (X 1 * 6270 - X 3 * 15137 + 8192) / 16384) (ht : t = (X 1 * 15137 + X 3 * 6270 + 8192) / 16384) :
    AnswersOnly (idct4 B X) [p + t, q + r, q - r, p - t] := by
  subst hp hq hr ht
  unfold idct4
  iterate 4 refine (answersOnly_rsLow B _).bind ?_
  iterate 4 refine (answersOnly_low B _).bind ?_
  exact answersOnly_pure rfl

theorem iadst4_values (B : Widths) (X : Nat → Int) : AnswersOnly (iadst4 B X) [
    (5283 * X 0 + 15212 * X 2 + 9929 * X 3 + 13377 * X 1 + 8192) / 16384,
    (9929 * X 0 - 5283 * X 2 - 15212 * X 3 + 13377 * X 1 + 8192) / 16384,
    (13377 * (X 0 - X 2 + X 3) + 8192) / 16384,
    (15212 * X 0 + 9929 * X 2 - 5283 * X 3 - 13377 * X 1 + 8192) / 16384] := by
  refine answersOnly_allZero (fun hX => by simp [hX, zeros]) ?_
  iterate 7 refine (answersOnly_acc B _).bind ?_
  refine (answersOnly_low B _).bind ?_
  iterate 4 refine (answersOnly_acc B _).bind ?_
  iterate 4 refine (answersOnly_rsLow B _).bind ?_
  refine answersOnly_pure ?_
  simp only [S]
  ring_nf

theorem iwht4_values (B : Widths) (X : Nat → Int) {e : Int} (he : e = ((X 0 + X 1) - (X 2 - X 3)) / 2) :
    AnswersOnly (iwht4 B X) [X 0 + X 1 + X 3 - e, e - X 3, e - X 1, X 2 - X 3 - X 1 + e] := by
  subst he
  unfold iwht4
  iterate 8 refine (answersOnly_acc B _).bind ?_
  iterate 4 refine (answersOnly_low B _).bind ?_
  refine answersOnly_pure ?_
  simp only [asr_eq, pow_one]
  ring_nf

/-- Settles O31, kernel by kernel. -/
theorem fourPointKernelValues : Obligations.FourPointKernelValues :=
  ⟨fun B X => fadst4_values B X, fun B X y _ hy he => fwht4_values B X he y hy,
    fun B X y _ _ _ _ hy hp hq hr ht => idct4_values B X hp hq hr ht y hy, fun B X => iadst4_values B X,
    fun B X y _ hy he => iwht4_values B X he y hy⟩

/-- A value of 32 bits passes the accumulator's check at every depth (47 R240). -/
theorem acc_widths (bd : BitDepth) {v : Int} (hlo : -2147483648 ≤ v) (hhi : v ≤ 2147483647) : acc (widths bd) v = some v :=
  acc_eq_some.2 ⟨fitsS_aw_of_bounds bd hlo hhi, rfl⟩

/-- Settles O30: the sums stay within 2^17 and the products within 2^31, so that every check passes. -/
theorem fdct4OnElements : Obligations.Fdct4OnElements := by
  intro bd X hX
  obtain ⟨h0, h1, h2, h3⟩ : (-32768 ≤ X 0 ∧ X 0 ≤ 32768) ∧ (-32768 ≤ X 1 ∧ X 1 ≤ 32768) ∧
      (-32768 ≤ X 2 ∧ X 2 ≤ 32768) ∧ (-32768 ≤ X 3 ∧ X 3 ≤ 32768) :=
    ⟨hX 0 (by decide), hX 1 (by decide), hX 2 (by decide), hX 3 (by decide)⟩
  simp only [fdct4, C]
  iterate 4 refine Option.bind_eq_some_iff.2 ⟨_, acc_widths bd (by omega) (by omega), ?_⟩
  iterate 4 refine Option.bind_eq_some_iff.2 ⟨_, rs_widths bd (by omega) (by omega), ?_⟩
  rfl

theorem fitsS_mono {v : Int} {m n : Nat} (hmn : m ≤ n) (h : fitsS v m = true) : fitsS v n = true := by
  have hpow : (2 : Int) ^ (m - 1) ≤ 2 ^ (n - 1) := pow_le_pow_right₀ (by norm_num) (by omega)
  rw [fitsS_iff] at *
  omega

theorem acc_of_fitsS {B : Widths} {v w : Int} (hw : fitsS w B.aw = true) (hv : v = w) : acc B v = some w :=
  acc_eq_some.2 ⟨hv ▸ hw, hv⟩

/-- What FWHT4 answers and the four checks that IWHT4 makes again (41 R166). -/
theorem fwht4_eq_some {B : Widths} {X : Nat → Int} {y : List Int} (h : fwht4 B X = some y) :
    ∃ a d e, a = X 0 + X 1 ∧ d = X 3 - X 2 ∧ e = asr (a - d) 1 ∧ y = [a - (e - X 2), e - X 2, d + (e - X 1), e - X 1] ∧
      fitsS a B.aw = true ∧ fitsS d B.aw = true ∧ fitsS (a - d) B.aw = true ∧ fitsS e B.aw = true := by
  simp only [fwht4, Option.bind_eq_bind, Option.bind_eq_some_iff, acc_eq_some] at h
  obtain ⟨_, ⟨ha, rfl⟩, _, ⟨hd, rfl⟩, _, ⟨hm, rfl⟩, _, ⟨he, rfl⟩, _, ⟨-, rfl⟩, _, ⟨-, rfl⟩, _, ⟨-, rfl⟩, _, ⟨-, rfl⟩, hy⟩ := h
  exact ⟨_, _, _, rfl, rfl, rfl, (Option.some.inj hy).symm, ha, hd, hm, he⟩

/-- Settles O32: IWHT4 meets the values `a`, `d`, `a - d` and `e` of FWHT4 again, whose checks have passed, and from them takes the
samples back, which fit an element. -/
theorem whtKernelsAreInverse : Obligations.WhtKernelsAreInverse := by
  intro B X y hw hX hy
  obtain ⟨a, d, e, ha, hd, he, rfl, hfa, hfd, hfm, hfe⟩ := fwht4_eq_some hy
  have hwide : ∀ i, i < 4 → fitsS (X i) B.aw = true := fun i hi => fitsS_mono hw (hX i hi)
  simp only [iwht4, ix, List.getD_cons_zero, List.getD_cons_succ]
  refine Option.bind_eq_some_iff.2 ⟨a, acc_of_fitsS hfa (by ring), ?_⟩
  refine Option.bind_eq_some_iff.2 ⟨d, acc_of_fitsS hfd (by ring), ?_⟩
  refine Option.bind_eq_some_iff.2 ⟨a - d, acc_of_fitsS hfm rfl, ?_⟩
  refine Option.bind_eq_some_iff.2 ⟨e, acc_of_fitsS hfe he.symm, ?_⟩
  refine Option.bind_eq_some_iff.2 ⟨X 1, acc_of_fitsS (hwide 1 (by decide)) (by ring), ?_⟩
  refine Option.bind_eq_some_iff.2 ⟨X 2, acc_of_fitsS (hwide 2 (by decide)) (by ring), ?_⟩
  refine Option.bind_eq_some_iff.2 ⟨X 0, acc_of_fitsS (hwide 0 (by decide)) (by rw [ha]; ring), ?_⟩
  refine Option.bind_eq_some_iff.2 ⟨X 3, acc_of_fitsS (hwide 3 (by decide)) (by rw [hd]; ring), ?_⟩
  iterate 4 refine Option.bind_eq_some_iff.2 ⟨_, low_eq_some.2 ⟨hX _ (by decide), rfl⟩, ?_⟩
  rfl

end Sys2Proof.Machine
end

-- ==== Proofs: checked stages and signal-flow graphs ====
section
/-! How a checked computation follows a signal-flow graph of Machine/Flow.lean (spec 40 R123): entry by entry within a stage, then
stage by stage. A rotation is rounded once, so an entry and its node round the same integer as soon as both are written as one sum of ROM words
times registers; the proofs below bring both sides to that form. -/

namespace Sys2Proof.Machine

@[simp] theorem ix_cons_zero (x : Int) (v : List Int) : ix (x :: v) 0 = x := rfl

@[simp] theorem ix_cons_succ (x : Int) (v : List Int) (k : Nat) : ix (x :: v) (k + 1) = ix v k := rfl

theorem ix_map_range (X : Nat → Int) {n i : Nat} (hi : i < n) : ix ((List.range n).map X) i = X i := by
  simp [ix, List.getD, hi]

@[simp] theorem value_copy (u : Nat → Int) (i : Nat) : (Node.copy i).value u = u i := rfl

@[simp] theorem value_add (u : Nat → Int) (i j : Nat) : (Node.add i j).value u = u i + u j := rfl

@[simp] theorem value_sub (u : Nat → Int) (i j : Nat) : (Node.sub i j).value u = u i - u j := rfl

@[simp] theorem value_neg (u : Nat → Int) (i : Nat) : (Node.neg i).value u = -u i := rfl

@[simp] theorem value_rot (u : Nat → Int) (ts : List (Int × Nat)) :
    (Node.rot ts).value u = ((ts.map fun t => signedRom t.1 * u t.2).sum + 8192) / 16384 := rfl

section
variable {check rot : Int → Option Int} {u : Nat → Int} {i j : Nat}

theorem agreesWith_add (hc : ∀ x, AnswersOnly (check x) x) : AgreesWith u (check (u i + u j)) (.add i j) := hc _

/-- The difference is written as a sum, the form the rotations are compared in. -/
theorem agreesWith_sub (hc : ∀ x, AnswersOnly (check x) x) : AgreesWith u (check (u i + -u j)) (.sub i j) := hc _

theorem agreesWith_rot (hr : ∀ x, AnswersOnly (rot x) ((x + 8192) / 16384)) {x : Int} {ts : List (Int × Nat)}
    (h : x = (ts.map fun t => signedRom t.1 * u t.2).sum) : AgreesWith u (rot x) (.rot ts) := h ▸ hr x

end

theorem answersOnly_allSome {os : List (Option Int)} {l : List Int} (h : List.Forall₂ AnswersOnly os l) :
    AnswersOnly (allSome os) l := by
  induction h with
  | nil => exact answersOnly_some []
  | @cons o x os l ho _ ih =>
    intro w hw
    rw [allSome_eq_mapSome, mapSome_cons, ← allSome_eq_mapSome] at hw
    exact (ho.bind (ih.bind (answersOnly_some (x :: l)))) w hw

theorem answersOnly_mapSome {f : Int → Option Int} {g : Int → Int} (h : ∀ x, AnswersOnly (f x) (g x)) (l : List Int) :
    AnswersOnly (mapSome f l) (l.map g) := by
  induction l with
  | nil => exact answersOnly_some []
  | cons x l ih =>
    rw [mapSome_cons]
    exact (h x).bind (ih.bind (answersOnly_some _))

theorem answersOnly_span {a n : Nat} {f : Nat → Option Int} {g : Nat → Int} (h : ∀ k, AnswersOnly (f k) (g k)) :
    AnswersOnly (allSome (span a n f)) ((List.range n).map fun k => g (a + k)) :=
  answersOnly_allSome (List.forall₂_map_left_iff.2 (List.forall₂_map_right_iff.2 (List.forall₂_same.2 fun k _ => h (a + k))))

/-- A stage whose checked values agree with the nodes answers the values of the nodes. -/
theorem answersOnly_stage {u : Nat → Int} {os : List (Option Int)} {ws : List Node} (h : List.Forall₂ (AgreesWith u) os ws) :
    AnswersOnly (allSome os) (ws.map (Node.value u)) := fun _ => allSome_agrees h

/-- A stage that agrees with the first nodes of a graph, before a computation that follows the rest of the graph. -/
theorem answersOnly_flow_cons {os : List (Option Int)} {f : List Int → Option (List Int)} {ws : List Node} {g : Flow}
    {v : List Int} (hf : ∀ w, AnswersOnly (f w) (flowOutput g w)) (h : List.Forall₂ (AgreesWith (ix v)) os ws) :
    AnswersOnly (allSome os >>= f) (flowOutput (ws :: g) v) := (answersOnly_stage h).bind (hf _)

/-- On every register file the kernel answers, if at all, with the outputs of the graph. -/
def Follows (k : Kernel) (g : Flow) : Prop := ∀ (B : Widths) (v : List Int), AnswersOnly (k B (ix v)) (flowOutput g v)

/-- A kernel that reads the first `n` registers only may be followed on those. -/
theorem Follows.answersOnly {n : Nat} {k : Kernel} {g : Flow} (hg : Follows k g) (hk : ReadsFirst n k) (B : Widths)
    (X : Nat → Int) : AnswersOnly (k B X) (flowOutput g ((List.range n).map X)) := by
  rw [hk B X (ix ((List.range n).map X)) fun i hi => (ix_map_range X hi).symm]
  exact hg B _

end Sys2Proof.Machine
end

-- ==== Proofs: the 8-, 16- and 32-point kernels ====
section
/-! The larger kernels follow their graphs (spec 41 R151, R152, R161, R162, 42 R170, 43 R178, R180, R186, R187, 44 R195). Where the model
writes a kernel as stages of vectors, each stage is held against the stage of the graph; where it writes single values, the checks are
taken off in the order of the rule and the outputs compared as expressions in the inputs. -/

namespace Sys2Proof.Machine

theorem fdct8_follows : Follows fdct8 fdct8Flow := by
  intro B v
  unfold fdct8
  iterate 12 refine (answersOnly_acc B _).bind ?_
  iterate 6 refine (answersOnly_rs B _).bind ?_
  iterate 4 refine (answersOnly_acc B _).bind ?_
  iterate 4 refine (answersOnly_rs B _).bind ?_
  refine answersOnly_pure ?_
  simp [flowOutput, fdct8Flow, rot2, signedRom, sub_eq_add_neg, add_assoc, mul_add, mul_comm, neg_add, -neg_add_rev]

theorem fdct16_follows : Follows fdct16 fdct16Flow := by
  intro B v
  simp only [fdct16, fdct16Even, fdct16Odd, bind_assoc, pure_bind]
  iterate 2 refine (answersOnly_span fun k => answersOnly_acc B _).bind ?_
  -- the even half
  iterate 12 refine (answersOnly_acc B _).bind ?_
  iterate 6 refine (answersOnly_rs B _).bind ?_
  iterate 4 refine (answersOnly_acc B _).bind ?_
  iterate 4 refine (answersOnly_rs B _).bind ?_
  -- the odd half
  iterate 4 refine (answersOnly_rs B _).bind ?_
  iterate 8 refine (answersOnly_acc B _).bind ?_
  iterate 4 refine (answersOnly_rs B _).bind ?_
  iterate 8 refine (answersOnly_acc B _).bind ?_
  iterate 8 refine (answersOnly_rs B _).bind ?_
  refine answersOnly_pure ?_
  simp [flowOutput, fdct16Flow, rot2, signedRom, List.range_succ, sub_eq_add_neg, add_assoc, mul_add, mul_comm, neg_add,
    -neg_add_rev]

theorem idct8_follows : Follows idct8 idct8Flow := by
  intro B v
  unfold idct8
  iterate 8 refine (answersOnly_rsLow B _).bind ?_
  iterate 8 refine (answersOnly_low B _).bind ?_
  iterate 2 refine (answersOnly_rsLow B _).bind ?_
  iterate 8 refine (answersOnly_low B _).bind ?_
  refine answersOnly_pure ?_
  simp [flowOutput, idct8Flow, rot2, signedRom, sub_eq_add_neg, add_assoc, mul_add, mul_comm, neg_add, -neg_add_rev]

/-- The seven stages before the last, each with the rest of the kernel behind it, then stage 8. -/
theorem fdct32_follows : Follows fdct32 fdct32Flow := by
  intro B v
  iterate 7 refine answersOnly_flow_cons (fun _ => ?_) ?_
  refine answersOnly_stage ?_
  all_goals simp [span, List.range_succ, copies, rot2, signedRom, agreesWith_copy, agreesWith_add (answersOnly_acc B),
    agreesWith_sub (answersOnly_acc B), agreesWith_rs, sub_eq_add_neg, mul_add, mul_comm]

/-- As for `fdct32_follows`, with the checks of an inverse kernel. -/
theorem idct32_follows : Follows idct32 idct32Flow := by
  intro B v
  iterate 7 refine answersOnly_flow_cons (fun _ => ?_) ?_
  refine answersOnly_stage ?_
  all_goals simp [span, List.range_succ, copies, rot2, signedRom, agreesWith_copy, agreesWith_add (answersOnly_low B),
    agreesWith_sub (answersOnly_low B), agreesWith_rsLow, sub_eq_add_neg, mul_add, mul_comm]

theorem idct16_follows : Follows idct16 idct16Flow := by
  intro B v
  -- the input order is the first stage of the graph
  have hin : idct16Stage2 B (fun i => ix v (idct16In i)) =
      idct16Stage2 B (ix ((idct16Flow.headD []).map (Node.value (ix v)))) := rfl
  rw [idct16, hin]
  change AnswersOnly _ (flowOutput idct16Flow.tail ((idct16Flow.headD []).map (Node.value (ix v))))
  generalize (idct16Flow.headD []).map (Node.value (ix v)) = w
  iterate 5 refine answersOnly_flow_cons (fun _ => ?_) ?_
  refine answersOnly_stage ?_
  all_goals simp [span, List.range_succ, copies, rot2, signedRom, agreesWith_copy, agreesWith_add (answersOnly_low B),
    agreesWith_sub (answersOnly_low B), agreesWith_rsLow, sub_eq_add_neg, mul_add, mul_comm]

/-! The graphs of the ADST, for the checks of the forward and of the inverse kernel at once. -/

theorem adst8Graph_follows {B : Widths} {keep rot : Int → Option Int} (hk : ∀ x, AnswersOnly (keep x) x)
    (hr : ∀ x, AnswersOnly (rot x) ((x + 8192) / 16384)) (v : List Int) :
    AnswersOnly (adst8Graph B keep rot (ix v)) (flowOutput adst8Flow v) := by
  unfold adst8Graph
  iterate 8 refine (answersOnly_acc B _).bind ?_
  iterate 8 refine (hr _).bind ?_
  iterate 4 refine (answersOnly_acc B _).bind ?_
  iterate 4 refine (hk _).bind ?_
  iterate 4 refine (hr _).bind ?_
  iterate 4 refine (answersOnly_acc B _).bind ?_
  iterate 4 refine (hr _).bind ?_
  iterate 4 refine (hk _).bind ?_
  refine answersOnly_pure ?_
  simp [flowOutput, adst8Flow, rot2, signedRom, sub_eq_add_neg, add_assoc, mul_add, neg_add, -neg_add_rev]

/-- The graph of the zero vector, which the kernels answer without computing it (40 R130). -/
theorem adst8_of_zeros {v : List Int} (hv : ∀ i, i < 8 → ix v i = 0) : zeros 8 = flowOutput adst8Flow v := by
  simp [zeros, flowOutput, adst8Flow, rot2, hv]

theorem fadst8_follows : Follows fadst8 adst8Flow := fun B v =>
  answersOnly_allZero adst8_of_zeros (adst8Graph_follows (answersOnly_acc B) (answersOnly_rs B) v)

theorem iadst8_follows : Follows iadst8 adst8Flow := fun B v =>
  answersOnly_allZero adst8_of_zeros (adst8Graph_follows (answersOnly_low B) (answersOnly_rsLow B) v)

/-! The product sums of the 16-point ADST are not rounded where they are formed, so that a stage of the graph spans two stages of the
model: the product sums, and their sums and differences rounded. -/

theorem adst16Stage1_answers (B : Widths) (u : Nat → Int) : AnswersOnly (adst16Stage1 B u) [
    u 0 * C 1 + u 1 * C 31, u 0 * C 31 - u 1 * C 1, u 2 * C 5 + u 3 * C 27, u 2 * C 27 - u 3 * C 5,
    u 4 * C 9 + u 5 * C 23, u 4 * C 23 - u 5 * C 9, u 6 * C 13 + u 7 * C 19, u 6 * C 19 - u 7 * C 13,
    u 8 * C 17 + u 9 * C 15, u 8 * C 15 - u 9 * C 17, u 10 * C 21 + u 11 * C 11, u 10 * C 11 - u 11 * C 21,
    u 12 * C 25 + u 13 * C 7, u 12 * C 7 - u 13 * C 25, u 14 * C 29 + u 15 * C 3, u 14 * C 3 - u 15 * C 29] :=
  answersOnly_allSome (by simp [answersOnly_acc])

theorem adst16Stage2_answers (B : Widths) (u : Nat → Int) : AnswersOnly (adst16Stage2 B u) [
    u 0, u 1, u 2, u 3, u 4, u 5, u 6, u 7,
    u 8 * C 4 + u 9 * C 28, u 8 * C 28 - u 9 * C 4, u 10 * C 20 + u 11 * C 12, u 10 * C 12 - u 11 * C 20,
    u 13 * C 4 - u 12 * C 28, u 12 * C 4 + u 13 * C 28, u 15 * C 20 - u 14 * C 12, u 14 * C 20 + u 15 * C 12] :=
  answersOnly_allSome (by simp [span, List.range_succ, answersOnly_some, answersOnly_acc])

theorem adst16Stage3_answers (B : Widths) (u : Nat → Int) : AnswersOnly (adst16Stage3 B u) [
    u 0, u 1, u 2, u 3, u 4 * C 8 + u 5 * C 24, u 4 * C 24 - u 5 * C 8, u 7 * C 8 - u 6 * C 24, u 6 * C 8 + u 7 * C 24,
    u 8, u 9, u 10, u 11, u 12 * C 8 + u 13 * C 24, u 12 * C 24 - u 13 * C 8, u 15 * C 8 - u 14 * C 24, u 14 * C 8 + u 15 * C 24] :=
  answersOnly_allSome (by simp [span, List.range_succ, answersOnly_some, answersOnly_acc])

theorem adst16Stage4_answers (B : Widths) {rot : Int → Option Int} (hr : ∀ x, AnswersOnly (rot x) ((x + 8192) / 16384))
    (u : Nat → Int) : AnswersOnly (adst16Stage4 B rot u) ([
      -C 16 * (u 2 + u 3), C 16 * (u 2 - u 3), C 16 * (u 6 + u 7), C 16 * (u 7 - u 6),
      C 16 * (u 10 + u 11), C 16 * (u 11 - u 10), -C 16 * (u 14 + u 15), C 16 * (u 14 - u 15)].map fun x => (x + 8192) / 16384) :=
  (answersOnly_allSome (by simp [answersOnly_acc])).bind (answersOnly_mapSome hr _)

theorem adst16Graph_follows {B : Widths} {keep rot : Int → Option Int} (hk : ∀ x, AnswersOnly (keep x) x)
    (hr : ∀ x, AnswersOnly (rot x) ((x + 8192) / 16384)) (v : List Int) :
    AnswersOnly (adst16Graph B keep rot (ix v)) (flowOutput adst16Flow v) := by
  -- the input shuffle is the first stage of the graph
  have hin : adst16Stage1 B (fun i => ix v (adst16In i)) =
      adst16Stage1 B (ix ((adst16Flow.headD []).map (Node.value (ix v)))) := rfl
  rw [adst16Graph, hin]
  change AnswersOnly _ (flowOutput adst16Flow.tail ((adst16Flow.headD []).map (Node.value (ix v))))
  generalize (adst16Flow.headD []).map (Node.value (ix v)) = w
  refine (adst16Stage1_answers B _).bind (answersOnly_flow_cons (fun w => ?_) ?_)
  refine (adst16Stage2_answers B _).bind (answersOnly_flow_cons (fun w => ?_) ?_)
  refine (adst16Stage3_answers B _).bind (answersOnly_flow_cons (fun w => ?_) ?_)
  refine (adst16Stage4_answers B hr _).bind (answersOnly_allSome ?_)
  · simp [flowOutput, rot2, signedRom, answersOnly_some_iff, hk, sub_eq_add_neg, add_assoc, mul_add, -neg_add_rev]
  all_goals simp [span, List.range_succ, signedRom, agreesWith_add hk, agreesWith_sub hk, agreesWith_rot hr,
    sub_eq_add_neg, add_assoc, mul_comm, neg_add, -neg_add_rev]

/-- The graph of the zero vector, as for the 8-point kernels. -/
theorem adst16_of_zeros {v : List Int} (hv : ∀ i, i < 16 → ix v i = 0) : zeros 16 = flowOutput adst16Flow v := by
  simp [zeros, flowOutput, adst16Flow, rot2, hv]

theorem fadst16_follows : Follows fadst16 adst16Flow := fun B v =>
  answersOnly_allZero adst16_of_zeros (adst16Graph_follows (answersOnly_acc B) (answersOnly_rs B) v)

theorem iadst16_follows : Follows iadst16 adst16Flow := fun B v =>
  answersOnly_allZero adst16_of_zeros (adst16Graph_follows (answersOnly_low B) (answersOnly_rsLow B) v)

/-- Settles O60, kernel by kernel. -/
theorem largerKernelValues : Obligations.LargerKernelValues := by
  intro k hk B X y
  simp only [List.mem_cons, List.not_mem_nil, or_false] at hk
  rcases hk with rfl | rfl | rfl | rfl | rfl | rfl | rfl | rfl | rfl | rfl
  exacts [fdct8_follows.answersOnly readsFirst_fdct8 B X y, fdct16_follows.answersOnly readsFirst_fdct16 B X y,
    fdct32_follows.answersOnly readsFirst_fdct32 B X y, fadst8_follows.answersOnly readsFirst_fadst8 B X y,
    fadst16_follows.answersOnly readsFirst_fadst16 B X y, idct8_follows.answersOnly readsFirst_idct8 B X y,
    idct16_follows.answersOnly readsFirst_idct16 B X y, idct32_follows.answersOnly readsFirst_idct32 B X y,
    iadst8_follows.answersOnly readsFirst_iadst8 B X y, iadst16_follows.answersOnly readsFirst_iadst16 B X y]

end Sys2Proof.Machine
end

-- ==== Proofs: the inverse DCT of a DC impulse ====
section
/-! An inverse DCT of a DC impulse (spec 43 R175, R178, R180, 44 R195, 46 R231 b). The impulse is copied up to the rotation of X[0] by
C[16], which rounds it once. From there on every add-sub pairs a register that holds the result with one that holds 0, so that each stage
doubles the number of registers that hold it, until all outputs do. The other rotations meet zeros only. -/

namespace Sys2Proof.Machine

/-- The registers of a stage whose first `m` hold `c` and whose others hold 0. A DC impulse is `leading 1 v`. -/
def leading (m : Nat) (c : Int) (k : Nat) : Int := if k < m then c else 0

/-- `leading m c` as a vector of `n` registers. -/
def leadingVec (n m : Nat) (c : Int) : List Int := (List.range n).map (leading m c)

theorem ix_leadingVec {n m : Nat} (hm : m ≤ n) (c : Int) : ix (leadingVec n m c) = leading m c := by
  funext k
  rcases Nat.lt_or_ge k n with hk | hk
  · exact ix_map_range _ hk
  · rw [ix_beyond (by simpa [leadingVec] using hk), leading, if_neg (by omega)]

theorem leadingVec_self (n : Nat) (c : Int) : leadingVec n n c = List.replicate n c :=
  List.eq_replicate_iff.2 ⟨by simp [leadingVec], by simp +contextual [leadingVec, leading]⟩

/-- A stage whose checks pass, each with the entry of `leading m c`. -/
theorem allSome_leading {n m : Nat} {c : Int} {os : List (Option Int)}
    (hos : os = (List.range n).map fun k => some (leading m c k)) : allSome os = some (leadingVec n m c) := by
  have hspan : os = span 0 n fun k => some (leading m c k) := by simpa [span] using hos
  rw [hspan, allSome_span]
  refine ⟨by simp [leadingVec], fun j hj => ?_⟩
  rw [Nat.zero_add, leadingVec, ix_map_range _ hj]

/-- Such a stage before the computation that reads its registers. -/
theorem leading_bind (n m : Nat) (c : Int) {os : List (Option Int)} {f : List Int → Option (List Int)} {y : List Int}
    (hf : f (leadingVec n m c) = some y) (hos : os = (List.range n).map fun k => some (leading m c k)) :
    allSome os >>= f = some y :=
  Option.bind_eq_some_iff.2 ⟨_, allSome_leading hos, hf⟩

/-- The value of every output: the rotation of `v` by C[16] = 11585. -/
def dcLevel (v : Int) : Int := (v * 11585 + 8192) / 16384

/-- The rotation does not increase the magnitude. -/
theorem fitsS_dcLevel {v : Int} {n : Nat} (hv : fitsS v n = true) : fitsS (dcLevel v) n = true := by
  rw [fitsS_iff] at *
  unfold dcLevel
  omega

section
variable {bd : BitDepth} {v : Int}

theorem low_dcLevel (hv : fitsS v (widths bd).ew = true) : low (widths bd) (dcLevel v) = some (dcLevel v) :=
  low_eq_some.2 ⟨fitsS_dcLevel hv, rfl⟩

/-- An element times a ROM word leaves the accumulator room for the rounding constant (47 R240). -/
theorem rsLow_dcLevel (hv : fitsS v (widths bd).ew = true) : rsLow (widths bd) (v * C 16) = some (dcLevel v) := by
  refine rsLow_eq_some.2 ⟨rs_eq_some.2 ⟨?_, ?_, rfl⟩, fitsS_dcLevel hv⟩ <;>
    cases bd <;> simp only [fitsS_iff, widths, C] at * <;> omega

theorem idct4_impulse (hv : fitsS v (widths bd).ew = true) :
    idct4 (widths bd) (leading 1 v) = some (List.replicate 4 (dcLevel v)) := by
  unfold idct4
  iterate 2 refine Option.bind_eq_some_iff.2 ⟨dcLevel v, by simp [leading, rsLow_dcLevel hv], ?_⟩
  iterate 2 refine Option.bind_eq_some_iff.2 ⟨0, by simp [leading], ?_⟩
  iterate 4 refine Option.bind_eq_some_iff.2 ⟨dcLevel v, by simp [low_dcLevel hv], ?_⟩
  rfl

theorem idct8_impulse (hv : fitsS v (widths bd).ew = true) :
    idct8 (widths bd) (leading 1 v) = some (List.replicate 8 (dcLevel v)) := by
  unfold idct8
  -- stage 1
  iterate 4 refine Option.bind_eq_some_iff.2 ⟨0, by simp [leading], ?_⟩
  -- stage 2
  iterate 2 refine Option.bind_eq_some_iff.2 ⟨dcLevel v, by simp [leading, rsLow_dcLevel hv], ?_⟩
  iterate 6 refine Option.bind_eq_some_iff.2 ⟨0, by simp [leading], ?_⟩
  -- stage 3
  iterate 4 refine Option.bind_eq_some_iff.2 ⟨dcLevel v, by simp [low_dcLevel hv], ?_⟩
  iterate 2 refine Option.bind_eq_some_iff.2 ⟨0, by simp, ?_⟩
  -- stage 4
  iterate 8 refine Option.bind_eq_some_iff.2 ⟨dcLevel v, by simp [low_dcLevel hv], ?_⟩
  rfl

/-- Stages 2 and 3 keep the impulse, stage 4 rotates it, stages 5 to 7 double the registers that hold the result. -/
theorem idct16_impulse (hv : fitsS v (widths bd).ew = true) :
    idct16 (widths bd) (leading 1 v) = some (List.replicate 16 (dcLevel v)) := by
  -- the input order leaves X[0] in its place
  have hin : idct16Stage2 (widths bd) (fun i => leading 1 v (idct16In i)) = idct16Stage2 (widths bd) (leading 1 v) := rfl
  rw [idct16, hin, ← leadingVec_self]
  iterate 2 refine leading_bind 16 1 v ?_ ?_
  refine leading_bind 16 2 (dcLevel v) ?_ ?_
  refine leading_bind 16 4 (dcLevel v) ?_ ?_
  refine leading_bind 16 8 (dcLevel v) ?_ ?_
  refine allSome_leading ?_
  all_goals simp [ix_leadingVec, leading, span, List.range_succ, rsLow_dcLevel hv, low_dcLevel hv]

/-- Stages 1 to 3 keep the impulse, stage 4 rotates it, stages 5 to 8 double the registers that hold the result. -/
theorem idct32_impulse (hv : fitsS v (widths bd).ew = true) :
    idct32 (widths bd) (leading 1 v) = some (List.replicate 32 (dcLevel v)) := by
  rw [idct32, ← leadingVec_self]
  iterate 3 refine leading_bind 32 1 v ?_ ?_
  refine leading_bind 32 2 (dcLevel v) ?_ ?_
  refine leading_bind 32 4 (dcLevel v) ?_ ?_
  refine leading_bind 32 8 (dcLevel v) ?_ ?_
  refine leading_bind 32 16 (dcLevel v) ?_ ?_
  refine allSome_leading ?_
  all_goals simp [ix_leadingVec, leading, span, List.range_succ, rsLow_dcLevel hv, low_dcLevel hv]

end

/-- Below `n` a register file that is 0 but for register 0 is a DC impulse. -/
theorem eq_leading_one {n : Nat} {X : Nat → Int} (hX : ∀ i, 0 < i → i < n → X i = 0) (i : Nat) (hi : i < n) :
    X i = leading 1 (X 0) i := by
  rcases Nat.eq_zero_or_pos i with rfl | hpos
  · rfl
  · rw [hX i hpos hi, leading, if_neg (by omega)]

/-- Settles O36, kernel by kernel on the impulse that the kernel cannot tell from its register file. -/
theorem inverseDctOfDcImpulse : Obligations.InverseDctOfDcImpulse := by
  intro k hk bd X hv hX
  have himpulse := eq_leading_one hX
  simp only [List.mem_cons, List.not_mem_nil, or_false] at hk
  rcases hk with rfl | rfl | rfl | rfl
  · exact (readsFirst_idct4 _ _ _ himpulse).trans (idct4_impulse hv)
  · exact (readsFirst_idct8 _ _ _ himpulse).trans (idct8_impulse hv)
  · exact (readsFirst_idct16 _ _ _ himpulse).trans (idct16_impulse hv)
  · exact (readsFirst_idct32 _ _ _ himpulse).trans (idct32_impulse hv)

end Sys2Proof.Machine
end

-- ==== Proofs: what a block command leaves behind ====
section
/-! The two outcomes of a block command from what its computation answers (spec 45 R200, 46 R220, R224, 60 R283). A forward command stores
the output block of the rule, which is one at most; an inverse command stores the pixels that its residual gives. -/

namespace Sys2Proof.Machine

/-- The rule of 45 R200 is a function of its input block: two runs on one input have one output block. -/
theorem ForwardRun.output_unique {n : Nat} {pre : Int} {adj : Bool} {chk : Nat} {mid fin : Int → Int} {col row : Kernel}
    {B : Widths} {ib T T' ob ob' : Nat → Nat → Int} (h : ForwardRun n pre adj chk mid fin col row B ib T ob)
    (h' : ForwardRun n pre adj chk mid fin col row B ib T' ob') {r c : Nat} (hr : r < n) (hc : c < n) :
    ob r c = ob' r c := by
  have hT : ∀ j, j < n → T r j = T' r j := fun j hj => by
    obtain ⟨y, hy, hcol⟩ := h.columns j hj
    obtain ⟨y', hy', hcol'⟩ := h'.columns j hj
    obtain rfl : y = y' := Option.some.inj (hy.symm.trans hy')
    obtain ⟨-, -, -, hmid, -⟩ := hcol r hr
    obtain ⟨-, -, -, hmid', -⟩ := hcol' r hr
    rw [hmid, hmid']
  obtain ⟨y, hy, hrow⟩ := h.rows r hr
  obtain ⟨y', hy', hrow'⟩ := h'.rows r hr
  rw [vec_congr hT] at hy
  obtain rfl : y = y' := Option.some.inj (hy.symm.trans hy')
  obtain ⟨-, hfin, -⟩ := hrow c hc
  obtain ⟨-, hfin', -⟩ := hrow' c hc
  rw [hfin, hfin']

/-- After the STORE of a dense block of coefficients that fit, its reader sees them (20 R65, R66). -/
theorem coefAt_storeElems {bd : BitDepth} {base n : Nat} {ob : List Int} {m : Memory} (hm : m.wf = true)
    (hl : ob.length = n * n) {r c : Nat} (hr : r < n) (hc : c < n) (hfit : fitsS (ix ob (r * n + c)) (widths bd).ew = true) :
    coefAt bd (storeElems (blockElems base n (coefSize bd) n) ob m) base (r * n + c) = ix ob (r * n + c) :=
  coefAt_of_readN (readN_store_block (Nat.le_refl n) hm hl hr hc) hfit

/-- A forward command whose computation on residual samples is the two passes of 45 R200 does what the rule says. -/
theorem forwardEffect_of_fwd2d {i : Instr} {bd : BitDepth} {p : FwdParams} {col row : Kernel} {f : Computation} (hn : 0 < p.n)
    (hcol : ∀ X, Answers p.n (col (widths bd) X)) (hrow : ∀ X, Answers p.n (row (widths bd) X))
    (hshape : shapeOf i = { family := .forward, n := p.n, bd := bd })
    (hexec : ∀ s, exec i s = .next (runCommand (shapeOf i) f s))
    (hf : ∀ s : State, f ((shapeOf i).loadSrc s.latch s.mem) ((shapeOf i).loadDst s.latch s.mem) =
      fwd2d p col row (widths bd) (Shape.loadSrc { family := .forward, n := p.n, bd := bd } s.latch s.mem) []) :
    ForwardEffect i bd p.n (ForwardRun p.n p.pre p.adj (p.width (widths bd)) p.mid p.fin col row (widths bd)) := by
  intro s ha
  have hruns := forwardRun_iff (p := p) (bd := bd) (s := s) hn hcol hrow
  refine ⟨fun T ob hrun => ?_, fun hnone => ?_⟩
  · obtain ⟨v, hv⟩ := Option.isSome_iff_exists.1 (hruns.1 ⟨T, ob, hrun⟩)
    obtain ⟨hclean, hmem⟩ := cleanNext_of_some ha ((hf s).trans hv)
    obtain ⟨hlen, T', hrun'⟩ := (fwd2d_eq_some hn hcol hrow).1 hv
    have hrun' := hrun'.congr hn fun r hr c hc => elemAt_loadSrc_forward hr hc
    refine ⟨_, hexec s, hclean, fun r hr c hc => ?_⟩
    obtain ⟨y, -, hout⟩ := hrun'.rows r hr
    obtain ⟨-, -, hfit⟩ := hout c hc
    rw [hmem, hshape, hrun.output_unique hrun' hr hc]
    exact coefAt_storeElems ha.memory hlen hr hc hfit
  · have hf' : fwd2d p col row (widths bd) (Shape.loadSrc { family := .forward, n := p.n, bd := bd } s.latch s.mem) [] = none :=
      Option.not_isSome_iff_eq_none.1 fun h => hnone (hruns.2 h)
    exact ⟨_, hexec s, rangeNext_of_none ha ((hf s).trans hf')⟩

/-- A pixel fits its container (47 R240). -/
theorem maxPix_lt (bd : BitDepth) : maxPix bd < 2 ^ pixW bd := by cases bd <;> decide

theorem maxPix_nonneg (bd : BitDepth) : 0 ≤ maxPix bd := by cases bd <;> decide

/-- After the STORE of a block of reconstructed pixels, its reader sees them (20 R65, R66, 46 R224). -/
theorem pixAt_storeElems {bd : BitDepth} {d : Descriptor} {n : Nat} {m : Memory} (hm : m.wf = true) (hpitch : n ≤ d.stride.toNat)
    (pixel residual : Nat → Nat → Int) {r c : Nat} (hr : r < n) (hc : c < n) :
    pixAt bd (storeElems (blockElems d.dst d.stride.toNat (pixSize bd) n)
      ((List.range n).flatMap fun r => (List.range n).map fun c => reconstruct bd (pixel r c) (residual r c)) m) d r c =
        clamp (pixel r c + residual r c) 0 (maxPix bd) := by
  obtain ⟨hlo, hhi⟩ := clamp_bounds (pixel r c + residual r c) (maxPix_nonneg bd)
  rw [flatMap_range_map, pixAt, readN_store_block hpitch hm (by simp) hr hc, ix_eq_getElem (by simpa using index_lt hr hc)]
  simp only [List.getElem_map, List.getElem_range, index_div hc, index_mod hc, reconstruct, pixSize_mul_eight]
  exact encS_nonneg hlo (hhi.trans_lt (maxPix_lt bd))

/-- An inverse command, on coefficients on which the checks of 46 R220 pass with residual `res`, adds `res` to the pixels. -/
theorem exec_of_inverseRun {i : Instr} {bd : BitDepth} {n : Nat} {prep round : Int → Int} {col row : Kernel} {s : State}
    {T res : Nat → Nat → Int} (hcol : ∀ X, Answers n (col (widths bd) X))
    (hshape : shapeOf i = { family := .inverse, n := n, bd := bd })
    (hexec : exec i s = .next (runCommand (shapeOf i) (inv2d n prep round col row bd) s)) (ha : Admitted i s)
    (hrun : InverseRun n prep round col row (widths bd) (fun r c => coefAt bd s.mem s.latch.src (r * n + c)) T res) :
    ∃ t, exec i s = .next t ∧ CleanNext i s t ∧ ∀ r, r < n → ∀ c, c < n →
      pixAt bd t.mem s.latch r c = clamp (pixAt bd s.mem s.latch r c + res r c) 0 (maxPix bd) := by
  have hrun' := hrun.congr fun r hr c hc => (elemAt_loadSrc_inverse (n := n) (bd := bd) (s := s) hr hc).symm
  have hpitch : n ≤ s.latch.stride.toNat := by
    obtain ⟨hstride, -, -⟩ := Shape.check_eq_none.1 ha.passes
    simpa [hshape, Shape.strideOk] using hstride
  have hfits : ∀ r, r < n → ∀ c, c < n → fitsS (elemAt n (Shape.loadSrc { family := .inverse, n := n, bd := bd } s.latch s.mem) r c)
      (widths bd).ew = true := fun r hr c hc => elemAt_loadSrc_inverse (s := s) hr hc ▸ fitsS_coefAt ..
  obtain ⟨hclean, hmem⟩ := cleanNext_of_some ha (f := inv2d n prep round col row bd)
    (hshape ▸ (inv2d_eq_some hcol hfits).2 ⟨T, res, hrun', rfl⟩)
  refine ⟨_, hexec, hclean, fun r hr c hc => ?_⟩
  rw [hmem, ← elemAt_loadDst_inverse (s := s) hr hc, hshape]
  exact pixAt_storeElems ha.memory hpitch _ res hr hc

end Sys2Proof.Machine
end

-- ==== Proofs: the forward 2-D commands ====
section
/-! FHT4, FHT8, FHT16 and FHT32 (spec 45 R204 to R209): the parameters of each as the integers of its rule, and the effect of the two
passes under them. -/

namespace Sys2Proof.Machine

theorem colAdst_iff (tx : TxType) : colAdst tx = true ↔ tx = .adstDct ∨ tx = .adstAdst := by cases tx <;> decide

theorem rowAdst_iff (tx : TxType) : rowAdst tx = true ↔ tx = .dctAdst ∨ tx = .adstAdst := by cases tx <;> decide

/-- A rounding bias that is 1 more under a condition. -/
theorem add_asNum (v : Int) (p : Prop) [Decidable p] : v + asNum (decide p) = if p then v + 1 else v := by
  by_cases hp : p <;> simp [asNum, hp]

/-- The final step of FHT4 (45 R204, log 19). -/
theorem fht4Params_fin : fht4Params.fin = fun t => (t + 1) / 4 := rfl

/-- The halving toward zero of FHT8 (45 R205). -/
theorem fht8Params_fin : fht8Params.fin = fun t => if t < 0 then (t + 1) / 2 else t / 2 := by
  funext t
  simp only [fht8Params, asr_eq, add_asNum, pow_one]
  split <;> rfl

/-- The boundary rounding of FHT16 (45 R206, R208). -/
theorem fht16Params_mid (tx : TxType) : (fht16Params tx).mid =
    fun t => if tx = .dctDct then (t + 1) / 4 else if t < 0 then (t + 2) / 4 else (t + 1) / 4 := by
  funext t
  simp only [fht16Params, asr_eq, add_asNum]
  split
  · rfl
  · split <;> norm_num [add_assoc]

/-- The boundary rounding of FHT32 (45 R207). -/
theorem fht32Params_mid : fht32Params.mid = fun t => if 0 < t then (t + 2) / 4 else (t + 1) / 4 := by
  funext t
  simp only [fht32Params, asr_eq, add_asNum]
  split <;> norm_num [add_assoc]

/-- The final rounding of FHT32 (45 R207). -/
theorem fht32Params_fin : fht32Params.fin = fun t => if t < 0 then (t + 2) / 4 else (t + 1) / 4 := by
  funext t
  simp only [fht32Params, asr_eq, add_asNum]
  split <;> norm_num [add_assoc]

/-- Settles O40: the two passes of 45 R200 under the parameters of FHT4 and the kernels that TXT selects. -/
theorem fht4Command : Obligations.Fht4Command := by
  intro tx bd
  have h := forwardEffect_of_fwd2d (i := .fht4 tx bd) (bd := bd) (p := fht4Params) (by decide)
    (fwdKernel4_answers (colAdst tx) _) (fwdKernel4_answers (rowAdst tx) _) rfl (fun _ => rfl) (fun _ => rfl)
  simp only [fwdKernel4, colAdst_iff, rowAdst_iff, fht4Params_fin] at h
  exact h

/-- Settles O41: the two passes under the parameters of FHT8. -/
theorem fht8Command : Obligations.Fht8Command := by
  intro tx bd
  have h := forwardEffect_of_fwd2d (i := .fht8 tx bd) (bd := bd) (p := fht8Params) (by decide)
    (fwdKernel8_answers (colAdst tx) _) (fwdKernel8_answers (rowAdst tx) _) rfl (fun _ => rfl) (fun _ => rfl)
  simp only [fwdKernel8, colAdst_iff, rowAdst_iff, fht8Params_fin] at h
  exact h

/-- Settles O42: the two passes under the parameters of FHT16, whose boundary rounding TXT selects. -/
theorem fht16Command : Obligations.Fht16Command := by
  intro tx bd
  have h := forwardEffect_of_fwd2d (i := .fht16 tx bd) (bd := bd) (p := fht16Params tx) (show 0 < 16 by decide)
    (fwdKernel16_answers (colAdst tx) _) (fwdKernel16_answers (rowAdst tx) _) rfl (fun _ => rfl) (fun _ => rfl)
  simp only [fwdKernel16, colAdst_iff, rowAdst_iff, fht16Params_mid] at h
  exact h

/-- Settles O43: the two passes under the parameters of FHT32, checked at the accumulator's width. -/
theorem fht32Command : Obligations.Fht32Command := by
  intro bd
  have h := forwardEffect_of_fwd2d (i := .fht32 bd) (bd := bd) (p := fht32Params) (by decide)
    (fdct32_answers _) (fdct32_answers _) rfl (fun _ => rfl) (fun _ => rfl)
  simp only [fht32Params_mid, fht32Params_fin] at h
  exact h

end Sys2Proof.Machine
end

-- ==== Proofs: the Walsh-Hadamard block commands ====
section
/-! FWHT4X4 and the way back (spec 45 R210, 46 R230, R231 c). FWHT4X4 leaves out the checks of 45 R200 that cannot fail, so that it
computes what the two passes compute under its parameters. IWHT4X4.ADD undoes it pass by pass: the first shift takes the factor 4 off
the coefficients, the row pass gives T back and the column pass the samples. -/

namespace Sys2Proof.Machine

/-- FWHT4X4 as parameters of 45 R200: no pre-scale, no boundary rounding, the second pass times 4. -/
def fwht4x4Params : FwdParams where
  n    := 4
  pre  := 1
  adj  := false
  wide := false
  mid  := fun t => t
  fin  := fun t => t * 4

/-- A check on a checked value lets the same values through as the first. -/
theorem low_bind_low (B : Widths) (t : Int) : ((low B t).bind fun t => low B t) = low B t := by
  cases h : low B t with
  | none => rfl
  | some v =>
    obtain ⟨-, rfl⟩ := low_eq_some.1 h
    exact h

/-- A value fits where its multiple by 4 does. -/
theorem low_bind_low_mul_four (B : Widths) (t : Int) : ((low B t).bind fun t => low B (t * 4)) = low B (t * 4) := by
  cases h : low B t with
  | some v =>
    obtain ⟨-, rfl⟩ := low_eq_some.1 h
    rfl
  | none =>
    have h4 : low B (t * 4) = none := by
      rw [low_eq_none, ← Bool.not_eq_true, fitsS_iff] at h ⊢
      omega
    rw [h4, Option.bind_none]

theorem mapSome_congr {α β : Type} {f g : α → Option β} {as : List α} (h : ∀ a ∈ as, f a = g a) :
    mapSome f as = mapSome g as := by
  induction as with
  | nil => rfl
  | cons a as ih =>
    obtain ⟨ha, has⟩ := List.forall_mem_cons.1 h
    rw [mapSome_cons, mapSome_cons, ha, ih has]

/-- A column of FWHT4X4: samples that fit an element pass the checks before the kernel. -/
theorem fwdColumn_fwht4x4 {B : Widths} {ib : List Int} {i : Nat} (hfit : ∀ j, j < 4 → fitsS (elemAt 4 ib j i) B.ew = true) :
    fwdColumn fwht4x4Params fwht4 B ib i = (fwht4 B fun j => elemAt 4 ib j i) >>= fun y => mapSome (low B) y := by
  have hload : allSome (span 0 4 fun j => low B (elemAt 4 ib j i * 1)) = some ((List.range 4).map fun j => elemAt 4 ib j i) :=
    allSome_span.2 ⟨by simp, fun j hj => by
      rw [Nat.zero_add, mul_one, ix_map_range _ hj]
      exact low_eq_some.2 ⟨hfit j hj, rfl⟩⟩
  have hread : fwht4 B (ix ((List.range 4).map fun j => elemAt 4 ib j i)) = fwht4 B fun j => elemAt 4 ib j i :=
    readsFirst_fwht4 _ _ _ fun j hj => ix_map_range _ hj
  show (allSome (span 0 4 fun j => low B (elemAt 4 ib j i * 1)) >>= fun x => fwht4 B (ix x) >>= fun y =>
    mapSome (fun t => (low B t).bind fun t => low B t) y) = _
  rw [hload, Option.bind_eq_bind, Option.bind_some, hread]
  simp only [low_bind_low]

/-- The rows of FWHT4X4. -/
theorem fwdRow_fwht4x4 (B : Widths) (tc : List (List Int)) : fwdRow fwht4x4Params fwht4 B tc = fun i =>
    (fwht4 B fun j => ix (tc.getD j []) i) >>= fun y => mapSome (fun t => low B (t * 4)) y := by
  funext i
  show ((fwht4 B fun j => ix (tc.getD j []) i) >>= fun y => mapSome (fun t => (low B t).bind fun t => low B (t * 4)) y) = _
  simp only [low_bind_low_mul_four]

/-- FWHT4X4 computes the two passes of 45 R200 on samples that fit an element. -/
theorem fwht4x4Computation_eq_fwd2d {B : Widths} {ib : List Int} (pb : List Int)
    (hfit : ∀ r, r < 4 → ∀ c, c < 4 → fitsS (elemAt 4 ib r c) B.ew = true) :
    fwht4x4Computation B ib pb = fwd2d fwht4x4Params fwht4 fwht4 B ib [] := by
  have hcolumns : mapSome (fwdColumn fwht4x4Params fwht4 B ib) (List.range 4) = mapSome (fun i =>
      (fwht4 B fun j => elemAt 4 ib j i) >>= fun y => mapSome (low B) y) (List.range 4) :=
    mapSome_congr fun i hi => fwdColumn_fwht4x4 fun j hj => hfit j hj i (List.mem_range.1 hi)
  show _ = mapSome (fwdColumn fwht4x4Params fwht4 B ib) (List.range 4) >>= fun tc =>
    mapSome (fwdRow fwht4x4Params fwht4 B tc) (List.range 4) >>= fun ob => return ob.flatten
  rw [hcolumns]
  simp only [fwdRow_fwht4x4]
  rfl

/-- A residual sample fits an element at every depth (45 R201). -/
theorem fitsS_ew_resAt (bd : BitDepth) (s : State) (r c : Nat) : fitsS (resAt s r c) (widths bd).ew = true :=
  fitsS_mono (by cases bd <;> decide) (fitsS_resAt s r c)

/-- Settles O44: residual samples fit an element, so that the two passes compute what FWHT4X4 computes. -/
theorem fwht4x4Command : Obligations.Fwht4x4Command := fun bd =>
  forwardEffect_of_fwd2d (p := fwht4x4Params) (by decide) (fwht4_answers _) (fwht4_answers _) rfl (fun _ => rfl) fun s =>
    fwht4x4Computation_eq_fwd2d _ fun r hr c hc => elemAt_loadSrc_forward (bd := bd) (s := s) hr hc ▸ fitsS_ew_resAt bd s r c

/-- A command that completes with RANGE leaves the bit set (60 R283). -/
theorem RangeNext.faultSet {i : Instr} {s t : State} (h : RangeNext i s t) : t.faultSet .range = true := by
  rw [h.frame]
  simp [State.faultSet, doneStatus, FaultBit.code]

/-- IWHT4 on the outputs of FWHT4 at the registers of a vector. -/
theorem iwht4_of_fwht4 {bd : BitDepth} {f g : Nat → Int} {y : List Int} (hf : ∀ j, j < 4 → fitsS (f j) (widths bd).ew = true)
    (hy : fwht4 (widths bd) (vec 4 f) = some y) (hg : ∀ j, j < 4 → g j = ix y j) :
    iwht4 (widths bd) (vec 4 g) = some ((List.range 4).map f) := by
  have hback := whtKernelsAreInverse (widths bd) (vec 4 f) y (by cases bd <;> decide)
    (fun j hj => by rw [vec, if_pos hj]; exact hf j hj) hy
  rw [ix_eq_vec (fwht4_answers _ _ y hy) fun j hj => (hg j hj).symm] at hback
  exact hback

/-- The two passes of IWHT4X4.ADD on the output block of a run of FWHT4X4: the rows give T back, the columns the input block. -/
theorem inverseRun_of_forwardRun {bd : BitDepth} {ib T ob : Nat → Nat → Int}
    (h : ForwardRun 4 1 false (widths bd).ew (fun t => t) (fun t => t * 4) fwht4 fwht4 (widths bd) ib T ob) :
    InverseRun 4 (fun v => asr v 2) id iwht4 iwht4 (widths bd) ob T ib := by
  refine ⟨fun r hr => ?_, fun c hc => ?_⟩
  · obtain ⟨y, hy, hrow⟩ := h.rows r hr
    have hT : ∀ j, j < 4 → fitsS (T r j) (widths bd).ew = true := fun j hj => by
      obtain ⟨z, -, hcol⟩ := h.columns j hj
      obtain ⟨-, -, -, -, hfit⟩ := hcol r hr
      exact hfit
    refine ⟨_, iwht4_of_fwht4 hT hy fun j hj => ?_, fun j hj => (ix_map_range _ hj).symm⟩
    obtain ⟨-, hfin, -⟩ := hrow j hj
    rw [hfin, asr_eq]
    omega
  · obtain ⟨y, hy, hcol⟩ := h.columns c hc
    have hpre : ∀ j, preScaled 1 false ib c j = ib j c := fun j => by simp [preScaled]
    have hib : ∀ j, j < 4 → fitsS (preScaled 1 false ib c j) (widths bd).ew = true := fun j hj => by
      obtain ⟨-, hfit, -⟩ := hcol j hj
      exact hfit
    refine ⟨_, iwht4_of_fwht4 hib hy fun j hj => ?_, fun j hj => ?_⟩
    · obtain ⟨-, -, -, hmid, -⟩ := hcol j hj
      exact hmid
    · rw [ix_map_range _ hj, hpre, id]

/-- Settles O56: with no RANGE the block stored is the output of a run of 45 R210, on which IWHT4X4.ADD runs with the residual that
was read. -/
theorem whtRoundTripIsExact : Obligations.WhtRoundTripIsExact := by
  intro bd s t u hs hexec hrange hmem hsrc hu
  obtain ⟨hpass, hfail⟩ := fwht4x4Command bd s hs
  by_cases hrun : ∃ T ob, ForwardRun 4 1 false (widths bd).ew (fun t => t) (fun t => t * 4) fwht4 fwht4 (widths bd)
      (resAt s) T ob
  · obtain ⟨T, ob, hrun⟩ := hrun
    obtain ⟨t', hexec', -, hcoef⟩ := hpass T ob hrun
    obtain rfl : t = t' := Host.Outcome.next.inj (hexec.symm.trans hexec')
    refine exec_of_inverseRun (T := T) (iwht4_answers _) rfl rfl hu ?_
    refine (inverseRun_of_forwardRun hrun).congr fun r hr c hc => ?_
    rw [hmem, hsrc, hcoef r hr c hc]
  · obtain ⟨t', hexec', hnext⟩ := hfail hrun
    obtain rfl : t = t' := Host.Outcome.next.inj (hexec.symm.trans hexec')
    exact absurd hnext.faultSet (by simp [hrange])

end Sys2Proof.Machine
end

-- ==== Proofs: the inverse 2-D commands ====
section
/-! IHT4.ADD, IHT8.ADD, IHT16.ADD and IHT32.ADD (spec 46 R220 to R228): the effect of the two passes under the kernels and the final
shift of each. -/

namespace Sys2Proof.Machine

/-- Every coefficient of IB fits an element, whatever the bytes (46 R222). -/
theorem fitsS_loadSrc_inverse {n : Nat} (bd : BitDepth) (s : State) {r : Nat} (hr : r < n) {c : Nat} (hc : c < n) :
    fitsS (elemAt n (Shape.loadSrc { family := .inverse, n := n, bd := bd } s.latch s.mem) r c) (widths bd).ew = true := by
  rw [elemAt_loadSrc_inverse hr hc]
  exact fitsS_coefAt ..

/-- An inverse command whose computation is the two passes of 46 R220 does what the rule says. -/
theorem inverseEffect_of_inv2d {i : Instr} {bd : BitDepth} {n : Nat} {prep round : Int → Int} {col row : Kernel}
    (hcol : ∀ X, Answers n (col (widths bd) X)) (hshape : shapeOf i = { family := .inverse, n := n, bd := bd })
    (hexec : ∀ s, exec i s = .next (runCommand (shapeOf i) (inv2d n prep round col row bd) s)) :
    InverseEffect i bd n (InverseRun n prep round col row (widths bd)) := by
  intro s ha
  refine ⟨fun T res hrun => exec_of_inverseRun hcol hshape (hexec s) ha hrun, fun hnone => ⟨_, hexec s, rangeNext_of_none ha ?_⟩⟩
  -- an answer would be a run of the rule
  refine Option.eq_none_iff_forall_ne_some.2 fun ob hob => hnone ?_
  rw [hshape] at hob
  obtain ⟨T, res, hrun, -⟩ := (inv2d_eq_some hcol fun r hr c hc => fitsS_loadSrc_inverse bd s hr hc).1 hob
  exact ⟨T, res, hrun.congr fun r hr c hc => elemAt_loadSrc_inverse hr hc⟩

theorem invKernel4_answers (adst : Bool) (B : Widths) (X : Nat → Int) : Answers 4 (invKernel4 adst B X) := by
  cases adst
  · exact idct4_answers B X
  · exact iadst4_answers B X

theorem invKernel8_answers (adst : Bool) (B : Widths) (X : Nat → Int) : Answers 8 (invKernel8 adst B X) := by
  cases adst
  · exact idct8_answers B X
  · exact iadst8_answers B X

theorem invKernel16_answers (adst : Bool) (B : Widths) (X : Nat → Int) : Answers 16 (invKernel16 adst B X) := by
  cases adst
  · exact idct16_answers B X
  · exact iadst16_answers B X

/-- The final round-shift of each size (46 R223). -/
theorem rnd_finalShift_4 (v : Int) : rnd v (finalShift 4) = (v + 8) / 16 := rfl
theorem rnd_finalShift_8 (v : Int) : rnd v (finalShift 8) = (v + 16) / 32 := rfl
theorem rnd_finalShift_16 (v : Int) : rnd v (finalShift 16) = (v + 32) / 64 := rfl
theorem rnd_finalShift_32 (v : Int) : rnd v (finalShift 32) = (v + 32) / 64 := rfl

/-- Settles O45: the two passes of 46 R220 under the kernels that TXT selects and the final shift by 4. -/
theorem iht4AddCommand : Obligations.Iht4AddCommand := by
  intro tx bd
  have h := inverseEffect_of_inv2d (i := .iht4Add tx bd) (invKernel4_answers (colAdst tx) _) rfl (fun _ => rfl)
  simp only [invKernel4, colAdst_iff, rowAdst_iff, rnd_finalShift_4] at h
  exact h

/-- Settles O46: the two passes with the final shift by 5. -/
theorem iht8AddCommand : Obligations.Iht8AddCommand := by
  intro tx bd
  have h := inverseEffect_of_inv2d (i := .iht8Add tx bd) (invKernel8_answers (colAdst tx) _) rfl (fun _ => rfl)
  simp only [invKernel8, colAdst_iff, rowAdst_iff, rnd_finalShift_8] at h
  exact h

/-- Settles O47: the two passes with the final shift by 6. -/
theorem iht16AddCommand : Obligations.Iht16AddCommand := by
  intro tx bd
  have h := inverseEffect_of_inv2d (i := .iht16Add tx bd) (invKernel16_answers (colAdst tx) _) rfl (fun _ => rfl)
  simp only [invKernel16, colAdst_iff, rowAdst_iff, rnd_finalShift_16] at h
  exact h

/-- Settles O48: the two passes of IDCT32 with the final shift by 6. -/
theorem iht32AddCommand : Obligations.Iht32AddCommand := by
  intro bd
  have h := inverseEffect_of_inv2d (i := .iht32Add bd) (idct32_answers _) rfl (fun _ => rfl)
  simp only [rnd_finalShift_32] at h
  exact h

end Sys2Proof.Machine
end

-- ==== Proofs: IWHT4X4.ADD raises no RANGE ====
section
/-! The bounds of the inverse Walsh-Hadamard block (spec 46 R230). Each output of IWHT4 is half a signed sum of its four inputs, so a
pass needs one bit more than its inputs: the first shift by 2 leaves EW - 2 bits, the rows need EW - 1 and the columns EW. -/

namespace Sys2Proof.Machine

theorem vec_of_lt {n j : Nat} (f : Nat → Int) (hj : j < n) : vec n f j = f j := if_pos hj

/-- IWHT4 on values of `k + 1` bits answers with values of `k + 2` bits; its lifting values need one bit more (43 R190). -/
theorem iwht4_of_fitsS {B : Widths} {k : Nat} {X : Nat → Int} (hew : k + 2 ≤ B.ew) (haw : k + 3 ≤ B.aw)
    (hX : ∀ j, j < 4 → fitsS (X j) (k + 1) = true) :
    ∃ y, iwht4 B X = some y ∧ ∀ j, j < 4 → fitsS (ix y j) (k + 2) = true := by
  have hacc {v : Int} (hlo : -(4 * 2 ^ k) ≤ v) (hhi : v ≤ 4 * 2 ^ k - 1) : acc B v = some v :=
    acc_eq_some.2 ⟨fitsS_mono haw (fitsS_iff.2 (by simp only [Nat.add_one_sub_one, pow_succ]; omega)), rfl⟩
  have hfits {v : Int} (hlo : -(2 * 2 ^ k) ≤ v) (hhi : v ≤ 2 * 2 ^ k - 1) : fitsS v (k + 2) = true :=
    fitsS_iff.2 (by simp only [Nat.add_one_sub_one, pow_succ]; omega)
  have hlow {v : Int} (hlo : -(2 * 2 ^ k) ≤ v) (hhi : v ≤ 2 * 2 ^ k - 1) : low B v = some v :=
    low_eq_some.2 ⟨fitsS_mono hew (hfits hlo hhi), rfl⟩
  have h0 := fitsS_iff.1 (hX 0 (by decide))
  have h1 := fitsS_iff.1 (hX 1 (by decide))
  have h2 := fitsS_iff.1 (hX 2 (by decide))
  have h3 := fitsS_iff.1 (hX 3 (by decide))
  simp only [Nat.add_one_sub_one] at h0 h1 h2 h3
  -- the lifting value that every output is formed from
  obtain ⟨e, he⟩ : ∃ e, e = (X 0 + X 1 - (X 2 - X 3)) / 2 := ⟨_, rfl⟩
  have hasr : asr (X 0 + X 1 - (X 2 - X 3)) 1 = e := he.symm
  refine ⟨[X 0 + X 1 - (e - X 3), e - X 3, e - X 1, X 2 - X 3 + (e - X 1)], ?_, ?_⟩
  · unfold iwht4
    iterate 3 refine Option.bind_eq_some_iff.2 ⟨_, hacc (by omega) (by omega), ?_⟩
    rw [hasr]
    iterate 5 refine Option.bind_eq_some_iff.2 ⟨_, hacc (by omega) (by omega), ?_⟩
    iterate 4 refine Option.bind_eq_some_iff.2 ⟨_, hlow (by omega) (by omega), ?_⟩
    rfl
  · intro j hj
    interval_cases j <;> refine hfits ?_ ?_ <;> simp only [ix_cons_zero, ix_cons_succ] <;> omega

/-- On coefficients that fit an element every check of the two passes of 46 R230 passes. -/
theorem exists_inverseRun_iwht4 {bd : BitDepth} {ib : Nat → Nat → Int} (hib : ∀ r c, fitsS (ib r c) (widths bd).ew = true) :
    ∃ T res, InverseRun 4 (fun v => v / 4) (fun v => v) iwht4 iwht4 (widths bd) ib T res := by
  obtain ⟨k, hew, haw⟩ : ∃ k, (widths bd).ew = k + 3 ∧ k + 4 ≤ (widths bd).aw := by
    cases bd
    exacts [⟨13, rfl, by decide⟩, ⟨29, rfl, by decide⟩, ⟨29, rfl, by decide⟩]
  have hvec {f : Nat → Int} {m : Nat} (hf : ∀ j, j < 4 → fitsS (f j) m = true) :
      ∀ j, j < 4 → fitsS (vec 4 f j) m = true := fun j hj => vec_of_lt f hj ▸ hf j hj
  have hshift (r c : Nat) : fitsS (ib r c / 4) (k + 1) = true := by
    have h := hib r c
    rw [hew, fitsS_iff] at h
    simp only [fitsS_iff, Nat.add_one_sub_one, pow_succ] at h ⊢
    omega
  choose! y hy hyfits using fun r (_ : r < 4) =>
    iwht4_of_fitsS (B := widths bd) (by omega) (by omega) (hvec fun j _ => hshift r j)
  choose! z hz _ using fun c (hc : c < 4) =>
    iwht4_of_fitsS (B := widths bd) (k := k + 1) (by omega) haw (hvec fun j hj => hyfits j hj c hc)
  exact ⟨fun r c => ix (y r) c, fun r c => ix (z c) r, fun r hr => ⟨_, hy r hr, fun _ _ => rfl⟩,
    fun c hc => ⟨_, hz c hc, fun _ _ => rfl⟩⟩

/-- Settles O49: the run exists by the bounds, and the command adds its residual. -/
theorem iwht4x4AddCommand : Obligations.Iwht4x4AddCommand := by
  intro bd s ha
  obtain ⟨T, res, hrun⟩ := exists_inverseRun_iwht4 (bd := bd) (ib := fun r c => coefAt bd s.mem s.latch.src (r * 4 + c))
    fun _ _ => fitsS_coefAt ..
  exact ⟨T, res, hrun, exec_of_inverseRun (iwht4_answers _) rfl rfl ha hrun⟩

end Sys2Proof.Machine
end

-- ==== Proofs: the pixels that a command stores ====
section
/-! Every pixel stored without RANGE is a clamped value (spec 46 R224, 48 R263), whatever PB held, and a value in the range of the
pixels is its own pattern (20 R65). -/

namespace Sys2Proof.Machine

/-- A computation that answers, if at all, with a whole block of pixels in range. -/
def AnswersPixels (bd : BitDepth) (n : Nat) (f : Computation) : Prop :=
  ∀ ib pb ob, pb.length = n * n → f ib pb = some ob → ob.length = n * n ∧ ∀ v ∈ ob, 0 ≤ v ∧ v ≤ maxPix bd

theorem reconstruct_bounds (bd : BitDepth) (pixel residual : Int) :
    0 ≤ reconstruct bd pixel residual ∧ reconstruct bd pixel residual ≤ maxPix bd :=
  clamp_bounds _ (maxPix_nonneg bd)

theorem answersPixels_inv2d {bd : BitDepth} {n : Nat} {prep round : Int → Int} {col row : Kernel} :
    AnswersPixels bd n (inv2d n prep round col row bd) := by
  intro ib pb ob _ h
  obtain ⟨t, -, h⟩ := bind_some_iff.1 h
  obtain ⟨rc, -, h⟩ := bind_some_iff.1 h
  obtain rfl := Option.some.inj h
  refine ⟨by simp [flatMap_range_map], fun v hv => ?_⟩
  obtain ⟨r, -, hv⟩ := List.mem_flatMap.1 hv
  obtain ⟨c, -, rfl⟩ := List.mem_map.1 hv
  exact reconstruct_bounds ..

theorem answersPixels_idc {bd : BitDepth} {n : Nat} : AnswersPixels bd n (idcComputation n bd) := by
  intro ib pb ob hpb h
  obtain ⟨a1, -, h⟩ := bind_some_iff.1 h
  obtain rfl := Option.some.inj h
  refine ⟨by rw [List.length_map, hpb], fun v hv => ?_⟩
  obtain ⟨p, -, rfl⟩ := List.mem_map.1 hv
  exact reconstruct_bounds ..

/-- Every command that reads its destination has one computation, and it answers with pixels in range. -/
theorem exists_answersPixels {i : Instr} (hreads : (shapeOf i).readsDst = true) :
    ∃ f, (∀ s, exec i s = .next (runCommand (shapeOf i) f s)) ∧ AnswersPixels (shapeOf i).bd (shapeOf i).n f := by
  cases i with
  | iht4Add tx bd => exact ⟨_, fun _ => rfl, answersPixels_inv2d⟩
  | iht8Add tx bd => exact ⟨_, fun _ => rfl, answersPixels_inv2d⟩
  | iht16Add tx bd => exact ⟨_, fun _ => rfl, answersPixels_inv2d⟩
  | iht32Add bd => exact ⟨_, fun _ => rfl, answersPixels_inv2d⟩
  | iwht4x4Add bd => exact ⟨_, fun _ => rfl, answersPixels_inv2d⟩
  | idc4Add bd => exact ⟨_, fun _ => rfl, answersPixels_idc⟩
  | idc8Add bd => exact ⟨_, fun _ => rfl, answersPixels_idc⟩
  | idc16Add bd => exact ⟨_, fun _ => rfl, answersPixels_idc⟩
  | idc32Add bd => exact ⟨_, fun _ => rfl, answersPixels_idc⟩
  -- the kernel commands and the forward commands read no destination
  | _ => cases hreads

/-- A command that reads its destination writes a block of pixels with the pitch STRIDE (20 R70). -/
theorem Shape.dstElems_of_readsDst {sh : Shape} (h : sh.readsDst = true) (d : Descriptor) :
    sh.dstElems d = blockElems d.dst d.stride.toNat (pixSize sh.bd) sh.n := by
  obtain ⟨family, n, bd⟩ := sh
  cases family
  case inverse | inverseDc => rfl
  all_goals cases h

/-- PB holds the whole block. -/
theorem Shape.length_loadDst {sh : Shape} (h : sh.readsDst = true) (d : Descriptor) (m : Memory) :
    (sh.loadDst d m).length = sh.n * sh.n := by
  rw [Shape.loadDst, if_pos h, List.length_map, Shape.dstElems_of_readsDst h, length_blockElems]

/-- An admitted command that reads its destination has a pitch of N or more (20 R69). -/
theorem Shape.le_stride_of_readsDst {sh : Shape} (h : sh.readsDst = true) {p : Platform} {d : Descriptor}
    (hc : sh.check p d = none) : sh.n ≤ d.stride.toNat := by
  obtain ⟨hstride, -, -⟩ := Shape.check_eq_none.1 hc
  obtain ⟨family, n, bd⟩ := sh
  cases family
  case inverse | inverseDc => simpa [Shape.strideOk] using hstride
  all_goals cases h

/-- After the STORE of a block of pixels in range, its reader sees pixels in range (20 R65). -/
theorem pixAt_bounds_storeElems {bd : BitDepth} {d : Descriptor} {n : Nat} {m : Memory} {ob : List Int} (hm : m.wf = true)
    (hpitch : n ≤ d.stride.toNat) (hl : ob.length = n * n) (hob : ∀ v ∈ ob, 0 ≤ v ∧ v ≤ maxPix bd) {r c : Nat} (hr : r < n)
    (hc : c < n) :
    0 ≤ pixAt bd (storeElems (blockElems d.dst d.stride.toNat (pixSize bd) n) ob m) d r c ∧
      pixAt bd (storeElems (blockElems d.dst d.stride.toNat (pixSize bd) n) ob m) d r c ≤ maxPix bd := by
  have hk : r * n + c < ob.length := hl ▸ index_lt hr hc
  obtain ⟨hlo, hhi⟩ := hob _ (List.getElem_mem hk)
  rw [pixAt, readN_store_block hpitch hm hl hr hc, ix_eq_getElem hk, pixSize_mul_eight,
    encS_nonneg hlo (hhi.trans_lt (maxPix_lt bd))]
  exact ⟨hlo, hhi⟩

/-- Settles O52: the command completes with RANGE, or it stores what its computation answers. -/
theorem storedPixelsInRange : Obligations.StoredPixelsInRange := by
  intro i s hreads ha
  obtain ⟨f, hexec, hpixels⟩ := exists_answersPixels hreads
  refine ⟨_, hexec s, ?_⟩
  cases hf : f ((shapeOf i).loadSrc s.latch s.mem) ((shapeOf i).loadDst s.latch s.mem) with
  | none => exact .inl (rangeNext_of_none ha hf)
  | some ob =>
    obtain ⟨hclean, hmem⟩ := cleanNext_of_some ha hf
    obtain ⟨hl, hob⟩ := hpixels _ _ ob (Shape.length_loadDst hreads _ _) hf
    refine .inr ⟨hclean, fun r hr c hc => ?_⟩
    rw [hmem, Shape.dstElems_of_readsDst hreads]
    exact pixAt_bounds_storeElems ha.memory (Shape.le_stride_of_readsDst hreads ha.passes) hl hob hr hc

end Sys2Proof.Machine
end

-- ==== Proofs: the inverse DC-only commands as full inverse transforms ====
section
/-! IDCn.ADD against IHTn.ADD DCT_DCT on a block that is zero but for its first coefficient (spec 46 R231 b, 48 R263). An inverse DCT
answers a DC impulse with equal outputs: the row pass leaves them in row 0 of T, so that every column is an impulse again, and the two
rotations are the two round-shifts of the DC-only command. -/

namespace Sys2Proof.Machine

/-- The kernel `k` of size `n` answers a DC impulse of an element with `n` equal outputs (43 R175 to R180, 44 R195). -/
def FlatOnImpulse (n : Nat) (k : Kernel) (bd : BitDepth) : Prop :=
  ∀ f : Nat → Int, fitsS (f 0) (widths bd).ew = true → (∀ j, 0 < j → j < n → f j = 0) →
    k (widths bd) (vec n f) = some (List.replicate n (dcLevel (f 0)))

/-- The four inverse DCT kernels do (`inverseDctOfDcImpulse`). -/
theorem flatOnImpulse_of_mem {n : Nat} {k : Kernel} (hn : 0 < n) (bd : BitDepth)
    (hk : (n, k) ∈ [(4, idct4), (8, idct8), (16, idct16), (32, idct32)]) : FlatOnImpulse n k bd := by
  intro f hfit hzero
  have h0 : vec n f 0 = f 0 := vec_of_lt f hn
  have h := inverseDctOfDcImpulse (n, k) hk bd (vec n f) (by rwa [h0]) fun j hpos hj => by
    rw [vec_of_lt f hj, hzero j hpos hj]
  rwa [h0] at h

theorem ix_replicate {n : Nat} (v : Int) {j : Nat} (hj : j < n) : ix (List.replicate n v) j = v := by
  simp [ix, List.getD, hj]

@[simp] theorem dcLevel_zero : dcLevel 0 = 0 := by decide

/-- The two passes of 46 R220 on a block that is zero but for its first coefficient: every output is the impulse rotated twice. -/
theorem inverseRun_of_impulse {n : Nat} {k : Kernel} {bd : BitDepth} {ib : Nat → Nat → Int} (final : Int → Int)
    (hk : FlatOnImpulse n k bd) (hfit : fitsS (ib 0 0) (widths bd).ew = true)
    (hzero : ∀ r, r < n → ∀ c, c < n → 0 < r ∨ 0 < c → ib r c = 0) :
    InverseRun n id final k k (widths bd) ib (fun r _ => dcLevel (ib r 0)) fun _ _ => final (dcLevel (dcLevel (ib 0 0))) := by
  refine ⟨fun r hr => ⟨_, hk _ ?_ fun j hpos hj => hzero r hr j hj (.inr hpos), fun j hj => (ix_replicate _ hj).symm⟩,
    fun c hc => ⟨_, hk _ (fitsS_dcLevel hfit) fun j hpos hj => ?_, fun j hj => by rw [ix_replicate _ hj]⟩⟩
  · rcases Nat.eq_zero_or_pos r with rfl | hpos
    · exact hfit
    · rw [hzero r hr 0 (by omega) (.inl hpos)]
      exact fitsS_zero _
  · rw [hzero j hj 0 (by omega) (.inl hpos), dcLevel_zero]

/-- A round-shift by the final shift does not increase the magnitude. -/
theorem fitsS_rnd_finalShift {v : Int} {m : Nat} (n : Nat) (hv : fitsS v m = true) : fitsS (rnd v (finalShift n)) m = true := by
  have hpow : (1 : Int) ≤ 2 ^ (m - 1) := one_le_pow₀ (by norm_num)
  rw [fitsS_iff] at *
  unfold finalShift
  split <;> simp only [rnd, asr_eq] <;> omega

/-- The constant of the inverse DC-only command: no check of 48 R263 fails on a coefficient that fits an element. -/
theorem idcConstant_eq_some {bd : BitDepth} {v : Int} (n : Nat) (hv : fitsS v (widths bd).ew = true) :
    idcConstant n (widths bd) v = some (rnd (dcLevel (dcLevel v)) (finalShift n)) := by
  have hlevel : fitsS (dcLevel v) (widths bd).ew = true := fitsS_dcLevel hv
  refine Option.bind_eq_some_iff.2 ⟨v, low_eq_some.2 ⟨hv, rfl⟩, ?_⟩
  refine Option.bind_eq_some_iff.2 ⟨dcLevel v, rsLow_dcLevel hv, ?_⟩
  refine Option.bind_eq_some_iff.2 ⟨dcLevel (dcLevel v), rsLow_dcLevel hlevel, ?_⟩
  exact acc_eq_some.2 ⟨fitsS_mono (by cases bd <;> decide) (fitsS_rnd_finalShift n (fitsS_dcLevel hlevel)), rfl⟩

/-- A block taken pixel by pixel, row by row. -/
theorem map_eq_flatMap_elemAt {n : Nat} {pb : List Int} (hl : pb.length = n * n) (f : Int → Int) :
    pb.map f = (List.range n).flatMap fun r => (List.range n).map fun c => f (elemAt n pb r c) := by
  rw [flatMap_range_map]
  refine List.ext_getElem (by simp [hl]) fun k hk _ => ?_
  simp only [List.getElem_map, List.getElem_range, elemAt, Nat.div_add_mod']
  rw [ix_eq_getElem (by simpa using hk)]

/-- The two commands compute the same pixels. -/
theorem inv2d_eq_idcComputation {n : Nat} {k : Kernel} {bd : BitDepth} {ib ib' pb : List Int} (hn : 0 < n)
    (hk : FlatOnImpulse n k bd) (hlen : ∀ X, Answers n (k (widths bd) X))
    (hfits : ∀ r, r < n → ∀ c, c < n → fitsS (elemAt n ib r c) (widths bd).ew = true)
    (hzero : ∀ r, r < n → ∀ c, c < n → 0 < r ∨ 0 < c → elemAt n ib r c = 0) (hib : ix ib' 0 = elemAt n ib 0 0)
    (hpb : pb.length = n * n) :
    ∃ ob, inv2d n id (fun v => rnd v (finalShift n)) k k bd ib pb = some ob ∧ idcComputation n bd ib' pb = some ob := by
  have hfit := hfits 0 hn 0 hn
  refine ⟨pb.map fun p => reconstruct bd p (rnd (dcLevel (dcLevel (elemAt n ib 0 0))) (finalShift n)), ?_, ?_⟩
  · exact (inv2d_eq_some hlen hfits).2 ⟨_, _, inverseRun_of_impulse _ hk hfit hzero, map_eq_flatMap_elemAt hpb _⟩
  · exact Option.bind_eq_some_iff.2 ⟨_, by rw [hib, idcConstant_eq_some n hfit], rfl⟩

/-- A descriptor that passes for IHTn.ADD passes for IDCn.ADD, whose one coefficient is the first of the block (20 R70). -/
theorem Shape.check_inverseDc_of_inverse {n : Nat} {bd : BitDepth} {p : Platform} {d : Descriptor} (hn : 0 < n)
    (h : Shape.check { family := .inverse, n := n, bd := bd } p d = none) :
    Shape.check { family := .inverseDc, n := n, bd := bd } p d = none := by
  obtain ⟨hstride, halign, hadmit⟩ := Shape.check_eq_none.1 h
  refine Shape.check_eq_none.2 ⟨hstride, halign, Shape.admitOk_iff.2 fun e he => Shape.admitOk_iff.1 hadmit e ?_⟩
  rcases he with he | he
  · rcases List.mem_append.1 he with hsrc | hdst
    · obtain rfl := List.mem_singleton.1 hsrc
      have hfirst := getElem_blockElems (base := d.src) (pitch := n) (size := coefSize bd) hn hn
        (by rw [length_blockElems]; exact index_lt hn hn)
      refine .inl (List.mem_append_left _ (List.mem_of_getElem (hfirst.trans ?_)))
      simp [Shape.srcSize]
    · exact .inr hdst
  · exact .inr he

/-- IB of an inverse DC-only command. -/
theorem ix_loadSrc_inverseDc {n : Nat} {bd : BitDepth} {s : State} :
    ix (Shape.loadSrc { family := .inverseDc, n := n, bd := bd } s.latch s.mem) 0 = coefAt bd s.mem s.latch.src 0 := by
  rw [coefAt, ← coefSize_mul_eight]
  rfl

/-- An inverse 2-D command with the kernel `k` twice and the DC-only command of its size have the same outcome on an impulse. -/
theorem exec_eq_of_impulse {i j : Instr} {n : Nat} {k : Kernel} {bd : BitDepth} {s : State} (hn : 0 < n)
    (hk : FlatOnImpulse n k bd) (hlen : ∀ X, Answers n (k (widths bd) X))
    (hi : shapeOf i = { family := .inverse, n := n, bd := bd }) (hj : shapeOf j = { family := .inverseDc, n := n, bd := bd })
    (hexeci : exec i s = .next (runCommand (shapeOf i) (inv2d n id (fun v => rnd v (finalShift n)) k k bd) s))
    (hexecj : exec j s = .next (runCommand (shapeOf j) (idcComputation n bd) s)) (ha : Admitted i s)
    (hzero : ∀ m, 0 < m → m < n * n → coefAt bd s.mem s.latch.src m = 0) : exec i s = exec j s := by
  have hpasses := ha.passes
  rw [hi] at hexeci hpasses
  rw [hj] at hexecj
  obtain ⟨ob, hfull, hdc⟩ := inv2d_eq_idcComputation hn hk hlen (fun r hr c hc => fitsS_loadSrc_inverse bd s hr hc)
    (fun r hr c hc hpos => by
      rw [elemAt_loadSrc_inverse hr hc]
      exact hzero _ (by rcases hpos with h | h <;> positivity) (index_lt hr hc))
    (ib' := Shape.loadSrc { family := .inverseDc, n := n, bd := bd } s.latch s.mem)
    (by rw [ix_loadSrc_inverseDc, elemAt_loadSrc_inverse hn hn, Nat.zero_mul])
    (Shape.length_loadDst (sh := { family := .inverse, n := n, bd := bd }) rfl s.latch s.mem)
  rw [hexeci, hexecj, runCommand_some hpasses ha.unraced hfull,
    runCommand_some (Shape.check_inverseDc_of_inverse hn hpasses) ha.unraced hdc]
  rfl

/-- Settles O55, size by size. -/
theorem dcOnlyInverseIsFullInverse : Obligations.DcOnlyInverseIsFullInverse := by
  intro bd s
  refine ⟨fun ha hz => ?_, fun ha hz => ?_, fun ha hz => ?_, fun ha hz => ?_⟩
  · exact exec_eq_of_impulse (by decide) (flatOnImpulse_of_mem (by decide) bd (by simp)) (idct4_answers _) rfl rfl rfl rfl ha hz
  · exact exec_eq_of_impulse (by decide) (flatOnImpulse_of_mem (by decide) bd (by simp)) (idct8_answers _) rfl rfl rfl rfl ha hz
  · exact exec_eq_of_impulse (by decide) (flatOnImpulse_of_mem (by decide) bd (by simp)) (idct16_answers _) rfl rfl rfl rfl ha hz
  · exact exec_eq_of_impulse (by decide) (flatOnImpulse_of_mem (by decide) bd (by simp)) (idct32_answers _) rfl rfl rfl rfl ha hz

end Sys2Proof.Machine
end

-- ==== Proofs: what a kernel answers under narrow bounds it answers under wide ones ====
section
/-! The bounds of a datapath enter a rule through its class checks alone (spec 40 R126 to R129), and a check that passes at one width
passes at every larger one. So an answer under the bounds of BD = 8 is the answer under those of every depth (47 R240, R242 b). -/

namespace Sys2Proof.Machine

/-- What `o` answers `o'` answers too; `o'` may answer where `o` fails a check. -/
def AnswersToo {α : Type} (o o' : Option α) : Prop := ∀ w, o = some w → o' = some w

@[simp] theorem answersToo_refl {α : Type} (o : Option α) : AnswersToo o o := fun _ h => h

theorem AnswersToo.bind {α β : Type} {o o' : Option α} {f f' : α → Option β} (ho : AnswersToo o o')
    (hf : ∀ a, AnswersToo (f a) (f' a)) : AnswersToo (o >>= f) (o' >>= f') := fun w h => by
  obtain ⟨a, ha, hw⟩ := bind_some_iff.1 h
  exact bind_some_iff.2 ⟨a, ho a ha, hf a w hw⟩

theorem AnswersToo.ite {α : Type} {c : Prop} [Decidable c] {a a' b b' : Option α} (ha : AnswersToo a a')
    (hb : AnswersToo b b') : AnswersToo (if c then a else b) (if c then a' else b') := by
  split <;> assumption

theorem answersToo_mapSome {α β : Type} {f f' : α → Option β} (h : ∀ a, AnswersToo (f a) (f' a)) (as : List α) :
    AnswersToo (mapSome f as) (mapSome f' as) := fun _ hbs =>
  mapSome_eq_some.2 ((mapSome_eq_some.1 hbs).imp fun a b => h a b)

theorem answersToo_allSome {os os' : List (Option Int)} (h : List.Forall₂ AnswersToo os os') :
    AnswersToo (allSome os) (allSome os') := by
  induction h with
  | nil => exact answersToo_refl _
  | cons ho _ ih =>
    simp only [allSome_eq_mapSome, mapSome_cons] at ih ⊢
    exact ho.bind fun _ => ih.bind fun _ => answersToo_refl _

/-- A stage before the computation that reads its registers. -/
theorem answersToo_stage {os os' : List (Option Int)} {f f' : List Int → Option (List Int)} (hf : ∀ v, AnswersToo (f v) (f' v))
    (h : List.Forall₂ AnswersToo os os') : AnswersToo (allSome os >>= f) (allSome os' >>= f') :=
  (answersToo_allSome h).bind hf

theorem answersToo_span {f f' : Nat → Option Int} (h : ∀ k, AnswersToo (f k) (f' k)) (a n : Nat) :
    AnswersToo (allSome (span a n f)) (allSome (span a n f')) :=
  answersToo_allSome (List.forall₂_map_left_iff.2 (List.forall₂_map_right_iff.2 (List.forall₂_same.2 fun k _ => h (a + k))))

/-- Bounds `B'` at least as wide as `B` in both classes. -/
structure Wider (B B' : Widths) : Prop where
  element     : B.ew ≤ B'.ew
  accumulator : B.aw ≤ B'.aw

/-- No depth is narrower than BD = 8 (47 R240). -/
theorem wider_widths (bd : BitDepth) : Wider (widths .b8) (widths bd) := by
  cases bd <;> exact ⟨by decide, by decide⟩

section
variable {B B' : Widths} (h : Wider B B')
include h

theorem Wider.low (v : Int) : AnswersToo (low B v) (low B' v) := fun _ hw => by
  obtain ⟨hfit, rfl⟩ := low_eq_some.1 hw
  exact low_eq_some.2 ⟨fitsS_mono h.element hfit, rfl⟩

theorem Wider.acc (v : Int) : AnswersToo (acc B v) (acc B' v) := fun _ hw => by
  obtain ⟨hfit, rfl⟩ := acc_eq_some.1 hw
  exact acc_eq_some.2 ⟨fitsS_mono h.accumulator hfit, rfl⟩

theorem Wider.rs (v : Int) : AnswersToo (rs B v) (rs B' v) := fun _ hw => by
  obtain ⟨hv, hsum, rfl⟩ := rs_eq_some.1 hw
  exact rs_eq_some.2 ⟨fitsS_mono h.accumulator hv, fitsS_mono h.accumulator hsum, rfl⟩

theorem Wider.rsLow (v : Int) : AnswersToo (rsLow B v) (rsLow B' v) := fun w hw => by
  obtain ⟨hrs, hfit⟩ := rsLow_eq_some.1 hw
  exact rsLow_eq_some.2 ⟨h.rs v w hrs, fitsS_mono h.element hfit⟩

end

/-- Wider bounds keep every answer of the kernel. -/
def KeepsAnswers (k : Kernel) : Prop := ∀ B B', Wider B B' → ∀ X, AnswersToo (k B X) (k B' X)

theorem fdct4_keepsAnswers : KeepsAnswers fdct4 := fun B B' h X => by
  unfold fdct4
  iterate 4 refine (h.acc _).bind fun _ => ?_
  iterate 4 refine (h.rs _).bind fun _ => ?_
  exact answersToo_refl _

theorem fdct8_keepsAnswers : KeepsAnswers fdct8 := fun B B' h X => by
  unfold fdct8
  iterate 12 refine (h.acc _).bind fun _ => ?_
  iterate 6 refine (h.rs _).bind fun _ => ?_
  iterate 4 refine (h.acc _).bind fun _ => ?_
  iterate 4 refine (h.rs _).bind fun _ => ?_
  exact answersToo_refl _

theorem fdct16Even_keepsAnswers : KeepsAnswers fdct16Even := fun B B' h e => by
  unfold fdct16Even
  iterate 12 refine (h.acc _).bind fun _ => ?_
  iterate 6 refine (h.rs _).bind fun _ => ?_
  iterate 4 refine (h.acc _).bind fun _ => ?_
  iterate 4 refine (h.rs _).bind fun _ => ?_
  exact answersToo_refl _

theorem fdct16Odd_keepsAnswers : KeepsAnswers fdct16Odd := fun B B' h d => by
  unfold fdct16Odd
  iterate 4 refine (h.rs _).bind fun _ => ?_
  iterate 8 refine (h.acc _).bind fun _ => ?_
  iterate 4 refine (h.rs _).bind fun _ => ?_
  iterate 8 refine (h.acc _).bind fun _ => ?_
  iterate 8 refine (h.rs _).bind fun _ => ?_
  exact answersToo_refl _

theorem fdct16_keepsAnswers : KeepsAnswers fdct16 := fun B B' h X => by
  unfold fdct16
  refine (answersToo_span (fun _ => h.acc _) _ _).bind fun e => ?_
  refine (answersToo_span (fun _ => h.acc _) _ _).bind fun d => ?_
  refine (fdct16Even_keepsAnswers B B' h _).bind fun y => ?_
  refine (fdct16Odd_keepsAnswers B B' h _).bind fun z => ?_
  exact answersToo_refl _

/-- Stage by stage, and within a stage entry by entry; so too for the other staged kernels. -/
theorem fdct32_keepsAnswers : KeepsAnswers fdct32 := fun B B' h X => by
  iterate 7 refine answersToo_stage (fun _ => ?_) ?_
  refine answersToo_allSome ?_
  all_goals simp [span, List.range_succ, h.acc, h.rs]

theorem fwht4_keepsAnswers : KeepsAnswers fwht4 := fun B B' h X => by
  unfold fwht4
  iterate 8 refine (h.acc _).bind fun _ => ?_
  exact answersToo_refl _

theorem fadst4_keepsAnswers : KeepsAnswers fadst4 := fun B B' h X => by
  refine (answersToo_refl _).ite ?_
  iterate 12 refine (h.acc _).bind fun _ => ?_
  iterate 4 refine (h.rs _).bind fun _ => ?_
  exact answersToo_refl _

theorem idct4_keepsAnswers : KeepsAnswers idct4 := fun B B' h X => by
  unfold idct4
  iterate 4 refine (h.rsLow _).bind fun _ => ?_
  iterate 4 refine (h.low _).bind fun _ => ?_
  exact answersToo_refl _

theorem idct8_keepsAnswers : KeepsAnswers idct8 := fun B B' h X => by
  unfold idct8
  iterate 8 refine (h.rsLow _).bind fun _ => ?_
  iterate 8 refine (h.low _).bind fun _ => ?_
  iterate 2 refine (h.rsLow _).bind fun _ => ?_
  iterate 8 refine (h.low _).bind fun _ => ?_
  exact answersToo_refl _

theorem idct16_keepsAnswers : KeepsAnswers idct16 := fun B B' h X => by
  iterate 5 refine answersToo_stage (fun _ => ?_) ?_
  refine answersToo_allSome ?_
  all_goals simp [span, List.range_succ, h.low, h.rsLow]

theorem idct32_keepsAnswers : KeepsAnswers idct32 := fun B B' h X => by
  iterate 7 refine answersToo_stage (fun _ => ?_) ?_
  refine answersToo_allSome ?_
  all_goals simp [span, List.range_succ, h.low, h.rsLow]

theorem iwht4_keepsAnswers : KeepsAnswers iwht4 := fun B B' h X => by
  unfold iwht4
  iterate 8 refine (h.acc _).bind fun _ => ?_
  iterate 4 refine (h.low _).bind fun _ => ?_
  exact answersToo_refl _

theorem iadst4_keepsAnswers : KeepsAnswers iadst4 := fun B B' h X => by
  refine (answersToo_refl _).ite ?_
  iterate 7 refine (h.acc _).bind fun _ => ?_
  refine (h.low _).bind fun _ => ?_
  iterate 4 refine (h.acc _).bind fun _ => ?_
  iterate 4 refine (h.rsLow _).bind fun _ => ?_
  exact answersToo_refl _

/-! The graphs of the ADST, for the checks of the forward and of the inverse kernel at once. -/

section
variable {B B' : Widths} (h : Wider B B') {keep keep' rot rot' : Int → Option Int} (hk : ∀ x, AnswersToo (keep x) (keep' x))
  (hr : ∀ x, AnswersToo (rot x) (rot' x)) (X : Nat → Int)
include h hk hr

theorem adst8Graph_answersToo : AnswersToo (adst8Graph B keep rot X) (adst8Graph B' keep' rot' X) := by
  unfold adst8Graph
  iterate 8 refine (h.acc _).bind fun _ => ?_
  iterate 8 refine (hr _).bind fun _ => ?_
  iterate 4 refine (h.acc _).bind fun _ => ?_
  iterate 4 refine (hk _).bind fun _ => ?_
  iterate 4 refine (hr _).bind fun _ => ?_
  iterate 4 refine (h.acc _).bind fun _ => ?_
  iterate 4 refine (hr _).bind fun _ => ?_
  iterate 4 refine (hk _).bind fun _ => ?_
  exact answersToo_refl _

/-- Product sums and their rounded sums in turn; stage 4 rounds its products one by one. -/
theorem adst16Graph_answersToo : AnswersToo (adst16Graph B keep rot X) (adst16Graph B' keep' rot' X) := by
  iterate 6 refine answersToo_stage (fun _ => ?_) ?_
  refine AnswersToo.bind (answersToo_stage (answersToo_mapSome hr) ?_) fun _ => answersToo_allSome ?_
  all_goals simp [span, List.range_succ, h.acc, hk, hr]

end

theorem fadst8_keepsAnswers : KeepsAnswers fadst8 := fun _ _ h X =>
  (answersToo_refl _).ite (adst8Graph_answersToo h h.acc h.rs X)

theorem iadst8_keepsAnswers : KeepsAnswers iadst8 := fun _ _ h X =>
  (answersToo_refl _).ite (adst8Graph_answersToo h h.low h.rsLow X)

theorem fadst16_keepsAnswers : KeepsAnswers fadst16 := fun _ _ h X =>
  (answersToo_refl _).ite (adst16Graph_answersToo h h.acc h.rs X)

theorem iadst16_keepsAnswers : KeepsAnswers iadst16 := fun _ _ h X =>
  (answersToo_refl _).ite (adst16Graph_answersToo h h.low h.rsLow X)

/-- Settles O35, kernel by kernel. -/
theorem kernelsSameAtEveryDepth : Obligations.KernelsSameAtEveryDepth := by
  intro k hk bd X y
  have hkeeps : KeepsAnswers k := by
    simp only [List.mem_cons, List.not_mem_nil, or_false] at hk
    rcases hk with rfl | rfl | rfl | rfl | rfl | rfl | rfl | rfl | rfl | rfl | rfl | rfl | rfl | rfl | rfl | rfl
    exacts [fdct4_keepsAnswers, fdct8_keepsAnswers, fdct16_keepsAnswers, fdct32_keepsAnswers, fadst4_keepsAnswers,
      fadst8_keepsAnswers, fadst16_keepsAnswers, fwht4_keepsAnswers, idct4_keepsAnswers, idct8_keepsAnswers,
      idct16_keepsAnswers, idct32_keepsAnswers, iadst4_keepsAnswers, iadst8_keepsAnswers, iadst16_keepsAnswers,
      iwht4_keepsAnswers]
  exact hkeeps _ _ (wider_widths bd) X y

end Sys2Proof.Machine
end

-- ==== Proofs: the forward block commands at every depth ====
section
/-! A forward block command whose computation answers at BD = 8 answers with the same integers at every depth (spec 45 R211 d, 47 R242 a):
the residual samples are 16 bits wide at every depth (20 R65), the computation's checks only widen, and integers that fit the narrow
element are read back from the wide one. -/

namespace Sys2Proof.Machine

theorem AnswersToo.map {α β : Type} {o o' : Option α} (ho : AnswersToo o o') (f : α → β) :
    AnswersToo (o.map f) (o'.map f) := fun w h => by
  obtain ⟨a, ha, hw⟩ := Option.map_eq_some_iff.1 h
  exact Option.map_eq_some_iff.2 ⟨a, ho a ha, hw⟩

/-- Wider bounds keep every answer of the computation. -/
def KeepsOutput (f : Widths → Computation) : Prop := ∀ B B', Wider B B' → ∀ ib pb, AnswersToo (f B ib pb) (f B' ib pb)

/-- The computation answers, if at all, with integers that fit an element. -/
def AnswersElements (f : Widths → Computation) : Prop :=
  ∀ B ib pb ob, f B ib pb = some ob → ∀ v ∈ ob, fitsS v B.ew = true

theorem mem_of_mapSome {α β : Type} {f : α → Option β} {as : List α} {bs : List β} (h : mapSome f as = some bs) {b : β}
    (hb : b ∈ bs) : ∃ a, f a = some b := by
  obtain ⟨k, hk, rfl⟩ := List.mem_iff_get.1 hb
  obtain ⟨hlen, hget⟩ := List.forall₂_iff_get.1 (mapSome_eq_some.1 h)
  exact ⟨_, hget k (by omega) k.isLt⟩

/-- Rows of values that fit, laid out row by row. -/
theorem fitsS_of_mem_flatten_rows {n : Nat} {f : Nat → Option (List Int)} {w : Nat}
    (hf : ∀ i y, f i = some y → ∀ v ∈ y, fitsS v w = true) {ob : List Int}
    (h : (mapSome f (List.range n) >>= fun rows => return rows.flatten) = some ob) : ∀ v ∈ ob, fitsS v w = true := by
  intro v hv
  obtain ⟨rows, hrows, hflat⟩ := bind_some_iff.1 h
  obtain rfl : rows.flatten = ob := Option.some.inj hflat
  obtain ⟨y, hy, hv⟩ := List.mem_flatten.1 hv
  obtain ⟨i, hi⟩ := mem_of_mapSome hrows hy
  exact hf i y hi v hv

/-! The two passes of 45 R200 -/

theorem Wider.chk {B B' : Widths} (h : Wider B B') (p : FwdParams) (v : Int) : AnswersToo (p.chk B v) (p.chk B' v) :=
  (h.acc v).ite (h.low v)

theorem keepsOutput_fwd2d {p : FwdParams} {col row : Kernel} (hcol : KeepsAnswers col) (hrow : KeepsAnswers row) :
    KeepsOutput (fwd2d p col row) := by
  intro B B' h ib pb
  refine (answersToo_mapSome (fun i => ?_) _).bind fun tc => (answersToo_mapSome (fun i => ?_) _).bind fun ob =>
    answersToo_refl _
  · refine (answersToo_span (fun j => h.chk p _) _ _).bind fun x => ?_
    refine (((h.chk p _).map _).ite (answersToo_refl _)).bind fun x => ?_
    refine (hcol B B' h _).bind fun y => ?_
    exact answersToo_mapSome (fun t => (h.chk p _).bind fun t => h.chk p _) y
  · refine (hrow B B' h _).bind fun y => ?_
    exact answersToo_mapSome (fun t => (h.chk p _).bind fun t => h.low _) y

theorem answersElements_fwd2d {p : FwdParams} {col row : Kernel} : AnswersElements (fwd2d p col row) := by
  intro B ib pb ob h
  obtain ⟨tc, -, h⟩ := bind_some_iff.1 h
  refine fitsS_of_mem_flatten_rows (fun i z hz v hv => ?_) h
  obtain ⟨y, -, hz⟩ := bind_some_iff.1 hz
  obtain ⟨t, ht⟩ := mem_of_mapSome hz hv
  obtain ⟨a, -, ha⟩ := bind_some_iff.1 ht
  obtain ⟨hfit, rfl⟩ := low_eq_some.1 ha
  exact hfit

/-! FWHT4X4 (45 R210) -/

theorem keepsOutput_fwht4x4 : KeepsOutput fwht4x4Computation := by
  intro B B' h ib pb
  refine (answersToo_mapSome (fun i => ?_) _).bind fun tc => (answersToo_mapSome (fun i => ?_) _).bind fun ob =>
    answersToo_refl _
  · exact (fwht4_keepsAnswers B B' h _).bind (answersToo_mapSome h.low)
  · exact (fwht4_keepsAnswers B B' h _).bind (answersToo_mapSome fun t => h.low _)

theorem answersElements_fwht4x4 : AnswersElements fwht4x4Computation := by
  intro B ib pb ob h
  obtain ⟨tc, -, h⟩ := bind_some_iff.1 h
  refine fitsS_of_mem_flatten_rows (fun i z hz v hv => ?_) h
  obtain ⟨y, -, hz⟩ := bind_some_iff.1 hz
  obtain ⟨t, ht⟩ := mem_of_mapSome hz hv
  obtain ⟨hfit, rfl⟩ := low_eq_some.1 ht
  exact hfit

/-! FDCn (48 R262) -/

theorem sumChecked_cons (B : Widths) (s v : Int) (vs : List Int) :
    sumChecked B s (v :: vs) = acc B (s + v) >>= fun s' => sumChecked B s' vs := by
  rw [sumChecked]
  cases acc B (s + v) <;> rfl

theorem sumChecked_answersToo {B B' : Widths} (h : Wider B B') (vs : List Int) (s : Int) :
    AnswersToo (sumChecked B s vs) (sumChecked B' s vs) := by
  induction vs generalizing s with
  | nil => exact answersToo_refl _
  | cons v vs ih =>
    rw [sumChecked_cons, sumChecked_cons]
    exact (h.acc _).bind ih

theorem keepsOutput_fdc (dcs : Int → Int) : KeepsOutput (fdcComputation dcs) := fun B B' h ib pb => by
  refine (sumChecked_answersToo h ib 0).bind fun s => ?_
  exact (h.low _).bind fun v => answersToo_refl _

theorem answersElements_fdc (dcs : Int → Int) : AnswersElements (fdcComputation dcs) := by
  intro B ib pb ob h
  obtain ⟨s, -, h⟩ := bind_some_iff.1 h
  obtain ⟨v, hv, h⟩ := bind_some_iff.1 h
  obtain rfl : [v] = ob := Option.some.inj h
  obtain ⟨hfit, rfl⟩ := low_eq_some.1 hv
  simpa using hfit

/-! From the computation to the command -/

/-- `cmd bd` is at each depth the command of the computation `f` that turns residual samples into a dense block of `m` by `m`
coefficients at DST; one coefficient is a block of size 1 (20 R70). -/
structure ForwardBlock (cmd : BitDepth → Instr) (m : Nat) (f : Widths → Computation) : Prop where
  meaning  : ∀ bd s, exec (cmd bd) s = .next (runCommand (shapeOf (cmd bd)) (f (widths bd)) s)
  source   : ∀ bd d mem, (shapeOf (cmd bd)).loadSrc d mem = (shapeOf (cmd .b8)).loadSrc d mem
  unread   : ∀ bd d mem, (shapeOf (cmd bd)).loadDst d mem = []
  dense    : ∀ bd d, (shapeOf (cmd bd)).dstElems d = blockElems d.dst m (coefSize bd) m
  fills    : ∀ B, Fills (m * m) (f B)
  keeps    : KeepsOutput f
  elements : AnswersElements f

theorem forwardBlock_fwd2d {cmd : BitDepth → Instr} {p : FwdParams} {col row : Kernel} (hn : 0 < p.n)
    (hcol : ∀ B X, Answers p.n (col B X)) (hrow : ∀ B X, Answers p.n (row B X)) (hkcol : KeepsAnswers col)
    (hkrow : KeepsAnswers row) (hshape : ∀ bd, shapeOf (cmd bd) = { family := .forward, n := p.n, bd := bd })
    (hexec : ∀ bd s, exec (cmd bd) s = .next (runCommand (shapeOf (cmd bd)) (fwd2d p col row (widths bd)) s)) :
    ForwardBlock cmd p.n (fwd2d p col row) where
  meaning  := hexec
  source   := fun bd d mem => by rw [hshape, hshape]; rfl
  unread   := fun bd d mem => by rw [hshape]; rfl
  dense    := fun bd d => by rw [hshape]; rfl
  fills    := fun B => fills_fwd2d hn (hcol B) (hrow B)
  keeps    := keepsOutput_fwd2d hkcol hkrow
  elements := answersElements_fwd2d

theorem forwardBlock_fwht4x4 : ForwardBlock .fwht4x4 4 fwht4x4Computation :=
  ⟨fun _ _ => rfl, fun _ _ _ => rfl, fun _ _ _ => rfl, fun _ _ => rfl, fills_fwht4x4, keepsOutput_fwht4x4,
    answersElements_fwht4x4⟩

theorem forwardBlock_fdc {cmd : BitDepth → Instr} {n : Nat} {dcs : Int → Int}
    (hshape : ∀ bd, shapeOf (cmd bd) = { family := .forwardDc, n := n, bd := bd })
    (hexec : ∀ bd s, exec (cmd bd) s = .next (runCommand (shapeOf (cmd bd)) (fdcComputation dcs (widths bd)) s)) :
    ForwardBlock cmd 1 (fdcComputation dcs) where
  meaning  := hexec
  source   := fun bd d mem => by rw [hshape, hshape]; rfl
  unread   := fun bd d mem => by rw [hshape]; rfl
  dense    := fun bd d => by rw [hshape]; rfl
  fills    := fills_fdc dcs
  keeps    := keepsOutput_fdc dcs
  elements := answersElements_fdc dcs

/-- After the STORE of a dense block of coefficients that fit, coefficient number `j` is entry `j` of the block (20 R66). -/
theorem coefAt_storeElems_dense {bd : BitDepth} {base m : Nat} {ob : List Int} {mem : Memory} (hmem : mem.wf = true)
    (hl : ob.length = m * m) (hfit : ∀ v ∈ ob, fitsS v (widths bd).ew = true) {j : Nat} (hj : j < m * m) :
    coefAt bd (storeElems (blockElems base m (coefSize bd) m) ob mem) base j = ix ob j := by
  have hm : 0 < m := Nat.pos_of_ne_zero fun h0 => by simp [h0] at hj
  have hrow : j / m < m := Nat.div_lt_of_lt_mul hj
  have hcol : j % m < m := Nat.mod_lt j hm
  rw [← Nat.div_add_mod' j m]
  refine coefAt_storeElems hmem hl hrow hcol (hfit _ ?_)
  rw [Nat.div_add_mod', ix_eq_getElem (by omega)]
  exact List.getElem_mem _

/-- A run without RANGE at BD = 8 is a run of the computation that answers, and it answers alike at every depth. -/
theorem ForwardBlock.same_at_every_depth {cmd : BitDepth → Instr} {m : Nat} {f : Widths → Computation} (h : ForwardBlock cmd m f)
    (bd : BitDepth) (s t : State) (ha : Admitted (cmd .b8) s) (ha' : Admitted (cmd bd) s) (ht : exec (cmd .b8) s = .next t)
    (hrange : t.faultSet .range = false) :
    ∃ u, exec (cmd bd) s = .next u ∧ CleanNext (cmd bd) s u ∧
      ∀ j, j < m * m → coefAt bd u.mem s.latch.dst j = coefAt .b8 t.mem s.latch.dst j := by
  obtain rfl : _ = t := Host.Outcome.next.inj ((h.meaning .b8 s).symm.trans ht)
  cases hf : f (widths .b8) ((shapeOf (cmd .b8)).loadSrc s.latch s.mem) ((shapeOf (cmd .b8)).loadDst s.latch s.mem) with
  | none => simp [(rangeNext_of_none ha hf).faultSet] at hrange
  | some ob =>
    have hf' : f (widths bd) ((shapeOf (cmd bd)).loadSrc s.latch s.mem) ((shapeOf (cmd bd)).loadDst s.latch s.mem) = some ob := by
      rw [h.source, h.unread, ← h.unread .b8 s.latch s.mem]
      exact h.keeps _ _ (wider_widths bd) _ _ ob hf
    obtain ⟨-, hmem⟩ := cleanNext_of_some ha hf
    obtain ⟨hclean, hmem'⟩ := cleanNext_of_some ha' hf'
    refine ⟨_, h.meaning bd s, hclean, fun j hj => ?_⟩
    have hlen : ob.length = m * m := h.fills _ _ _ ob hf
    rw [hmem, hmem', h.dense, h.dense, coefAt_storeElems_dense ha.memory hlen (h.elements _ _ _ ob hf) hj,
      coefAt_storeElems_dense ha.memory hlen (h.elements _ _ _ ob hf') hj]

theorem fwdKernel4_keepsAnswers (adst : Bool) : KeepsAnswers (fwdKernel4 adst) := by
  cases adst
  · exact fdct4_keepsAnswers
  · exact fadst4_keepsAnswers

theorem fwdKernel8_keepsAnswers (adst : Bool) : KeepsAnswers (fwdKernel8 adst) := by
  cases adst
  · exact fdct8_keepsAnswers
  · exact fadst8_keepsAnswers

theorem fwdKernel16_keepsAnswers (adst : Bool) : KeepsAnswers (fwdKernel16 adst) := by
  cases adst
  · exact fdct16_keepsAnswers
  · exact fadst16_keepsAnswers

theorem forwardBlock_fht4 (tx : TxType) :
    ForwardBlock (.fht4 tx) 4 (fwd2d fht4Params (fwdKernel4 (colAdst tx)) (fwdKernel4 (rowAdst tx))) :=
  forwardBlock_fwd2d (p := fht4Params) (by decide) (fwdKernel4_answers _) (fwdKernel4_answers _) (fwdKernel4_keepsAnswers _)
    (fwdKernel4_keepsAnswers _) (fun _ => rfl) fun _ _ => rfl

theorem forwardBlock_fht8 (tx : TxType) :
    ForwardBlock (.fht8 tx) 8 (fwd2d fht8Params (fwdKernel8 (colAdst tx)) (fwdKernel8 (rowAdst tx))) :=
  forwardBlock_fwd2d (p := fht8Params) (by decide) (fwdKernel8_answers _) (fwdKernel8_answers _) (fwdKernel8_keepsAnswers _)
    (fwdKernel8_keepsAnswers _) (fun _ => rfl) fun _ _ => rfl

theorem forwardBlock_fht16 (tx : TxType) :
    ForwardBlock (.fht16 tx) 16 (fwd2d (fht16Params tx) (fwdKernel16 (colAdst tx)) (fwdKernel16 (rowAdst tx))) :=
  forwardBlock_fwd2d (p := fht16Params tx) (show 0 < 16 by decide) (fwdKernel16_answers _) (fwdKernel16_answers _)
    (fwdKernel16_keepsAnswers _) (fwdKernel16_keepsAnswers _) (fun _ => rfl) fun _ _ => rfl

theorem forwardBlock_fht32 : ForwardBlock .fht32 32 (fwd2d fht32Params fdct32 fdct32) :=
  forwardBlock_fwd2d (p := fht32Params) (by decide) fdct32_answers fdct32_answers fdct32_keepsAnswers fdct32_keepsAnswers
    (fun _ => rfl) fun _ _ => rfl

theorem forwardBlock_fdc4 : ForwardBlock .fdc4 1 (fdcComputation fun v => v * 2) :=
  forwardBlock_fdc (fun _ => rfl) fun _ _ => rfl

theorem forwardBlock_fdc8 : ForwardBlock .fdc8 1 (fdcComputation fun v => v) :=
  forwardBlock_fdc (fun _ => rfl) fun _ _ => rfl

theorem forwardBlock_fdc16 : ForwardBlock .fdc16 1 (fdcComputation fun v => asr v 1) :=
  forwardBlock_fdc (fun _ => rfl) fun _ _ => rfl

theorem forwardBlock_fdc32 : ForwardBlock .fdc32 1 (fdcComputation fun v => asr v 3) :=
  forwardBlock_fdc (fun _ => rfl) fun _ _ => rfl

/-- Settles O57, command by command. -/
theorem forwardSameAtEveryDepth : Obligations.ForwardSameAtEveryDepth := by
  intro tx bd k hk
  simp only [List.mem_cons, List.not_mem_nil, or_false] at hk
  rcases hk with rfl | rfl | rfl | rfl | rfl | rfl | rfl | rfl | rfl
  exacts [(forwardBlock_fht4 tx).same_at_every_depth bd, (forwardBlock_fht8 tx).same_at_every_depth bd,
    (forwardBlock_fht16 tx).same_at_every_depth bd, forwardBlock_fht32.same_at_every_depth bd,
    forwardBlock_fwht4x4.same_at_every_depth bd, forwardBlock_fdc4.same_at_every_depth bd,
    forwardBlock_fdc8.same_at_every_depth bd, forwardBlock_fdc16.same_at_every_depth bd,
    forwardBlock_fdc32.same_at_every_depth bd]

end Sys2Proof.Machine
end

-- ==== Proofs: range safety by bounds ====
section
/-! How far a computation can leave the range of its inputs, and where no check can fail for that reason (spec 47 R245, R246 a): a bound
on the inputs of a kernel gives a bound on its outputs, pass after pass, and a bound on the samples of a block one on their sum. -/

namespace Sys2Proof.Machine

theorem fitsS_of_abs_le {v b : Int} {n : Nat} (hv : |v| ≤ b) (hb : b ≤ 2 ^ (n - 1) - 1) : fitsS v n = true := by
  rw [abs_le] at hv
  rw [fitsS_iff]
  omega

theorem acc_of_abs_le {B : Widths} {v b : Int} (hv : |v| ≤ b) (hb : b ≤ 2 ^ (B.aw - 1) - 1) : acc B v = some v :=
  acc_eq_some.2 ⟨fitsS_of_abs_le hv hb, rfl⟩

theorem rs_of_abs_le {B : Widths} {v b : Int} (hv : |v| ≤ b) (hb : b + 8192 ≤ 2 ^ (B.aw - 1) - 1) :
    rs B v = some ((v + 8192) / 16384) := by
  refine rs_eq_some.2 ⟨fitsS_of_abs_le hv (by omega), fitsS_of_abs_le (b := b + 8192) ?_ hb, rfl⟩
  rw [abs_le] at *
  omega

theorem abs_rounded_le {v b : Int} (hv : |v| ≤ b) : |(v + 8192) / 16384| ≤ (b + 8192) / 16384 := by
  rw [abs_le] at *
  omega

/-- On `n` inputs of magnitude `m` or less every check of the kernel passes, and its outputs have magnitude `m'` or less. -/
def Bounded (n : Nat) (k : Kernel) (B : Widths) (m m' : Int) : Prop :=
  ∀ X : Nat → Int, (∀ j, j < n → |X j| ≤ m) → ∃ y, k B X = some y ∧ ∀ j, j < n → |ix y j| ≤ m'

/-- The largest gain of the two 4-point kernels is that of the first output of FDCT4: four inputs times C[16] = 11585. -/
def gain4 (m : Int) : Int := (46340 * m + 8192) / 16384

theorem fdct4_bounded {B : Widths} {m : Int} (hm : 46340 * m + 8192 ≤ 2 ^ (B.aw - 1) - 1) : Bounded 4 fdct4 B m (gain4 m) := by
  intro X hX
  obtain ⟨h0, h1, h2, h3⟩ : |X 0| ≤ m ∧ |X 1| ≤ m ∧ |X 2| ≤ m ∧ |X 3| ≤ m :=
    ⟨hX 0 (by decide), hX 1 (by decide), hX 2 (by decide), hX 3 (by decide)⟩
  rw [abs_le] at h0 h1 h2 h3
  refine ⟨?outputs, ?answers, fun j hj => ?bounded⟩
  case answers =>
    simp only [fdct4, C]
    iterate 4 refine Option.bind_eq_some_iff.2 ⟨_, acc_of_abs_le (b := 46340 * m) (abs_le.2 (by omega)) (by omega), ?_⟩
    iterate 4 refine Option.bind_eq_some_iff.2 ⟨_, rs_of_abs_le (b := 46340 * m) (abs_le.2 (by omega)) hm, ?_⟩
    rfl
  case bounded => interval_cases j <;> exact abs_rounded_le (abs_le.2 (by omega))

theorem fadst4_bounded {B : Widths} {m : Int} (hm : 46340 * m + 8192 ≤ 2 ^ (B.aw - 1) - 1) : Bounded 4 fadst4 B m (gain4 m) := by
  intro X hX
  obtain ⟨h0, h1, h2, h3⟩ : |X 0| ≤ m ∧ |X 1| ≤ m ∧ |X 2| ≤ m ∧ |X 3| ≤ m :=
    ⟨hX 0 (by decide), hX 1 (by decide), hX 2 (by decide), hX 3 (by decide)⟩
  rw [abs_le] at h0 h1 h2 h3
  by_cases hz : allZero 4 X = true
  · refine ⟨zeros 4, if_pos hz, fun j _ => ?_⟩
    rw [ix_zeros, abs_zero, gain4]
    omega
  · rw [fadst4, if_neg hz]
    refine ⟨?outputs, ?answers, fun j hj => ?bounded⟩
    case answers =>
      simp only [S]
      iterate 12 refine Option.bind_eq_some_iff.2 ⟨_, acc_of_abs_le (b := 46340 * m) (abs_le.2 (by omega)) (by omega), ?_⟩
      iterate 4 refine Option.bind_eq_some_iff.2 ⟨_, rs_of_abs_le (b := 46340 * m) (abs_le.2 (by omega)) hm, ?_⟩
      rfl
    case bounded => interval_cases j <;> exact abs_rounded_le (abs_le.2 (by omega))

/-- Each output of FWHT4 is half a signed sum of the four inputs, rounded. -/
theorem fwht4_bounded {B : Widths} {m : Int} (hm : 4 * m ≤ 2 ^ (B.aw - 1) - 1) : Bounded 4 fwht4 B m (2 * m) := by
  intro X hX
  obtain ⟨h0, h1, h2, h3⟩ : |X 0| ≤ m ∧ |X 1| ≤ m ∧ |X 2| ≤ m ∧ |X 3| ≤ m :=
    ⟨hX 0 (by decide), hX 1 (by decide), hX 2 (by decide), hX 3 (by decide)⟩
  rw [abs_le] at h0 h1 h2 h3
  -- the lifting value that every output is formed from
  obtain ⟨e, he⟩ : ∃ e, e = (X 0 + X 1 - (X 3 - X 2)) / 2 := ⟨_, rfl⟩
  have hasr : asr (X 0 + X 1 - (X 3 - X 2)) 1 = e := he.symm
  refine ⟨[X 0 + X 1 - (e - X 2), e - X 2, X 3 - X 2 + (e - X 1), e - X 1], ?_, ?_⟩
  · unfold fwht4
    iterate 3 refine Option.bind_eq_some_iff.2 ⟨_, acc_of_abs_le (b := 4 * m) (abs_le.2 (by omega)) hm, ?_⟩
    rw [hasr]
    iterate 5 refine Option.bind_eq_some_iff.2 ⟨_, acc_of_abs_le (b := 4 * m) (abs_le.2 (by omega)) hm, ?_⟩
    rfl
  · intro j hj
    interval_cases j <;> simp only [ix_cons_zero, ix_cons_succ, abs_le] <;> omega

/-- If the bounds stay below the class of the pipeline pass after pass, every check of 45 R200 passes; no rounding at the boundary. -/
theorem exists_forwardRun_of_bounded {n chk : Nat} {pre : Int} {adj : Bool} {fin : Int → Int} {col row : Kernel} {B : Widths}
    {ib : Nat → Nat → Int} {m0 m1 m2 : Int}
    (hpre : ∀ i, i < n → ∀ j, j < n → |ib j i * pre| ≤ m0 ∧ |preScaled pre adj ib i j| ≤ m0)
    (hcol : Bounded n col B m0 m1) (hrow : Bounded n row B m1 m2) (h0 : m0 ≤ 2 ^ (chk - 1) - 1) (h1 : m1 ≤ 2 ^ (chk - 1) - 1)
    (h2 : m2 ≤ 2 ^ (chk - 1) - 1) (hfin : ∀ v, |v| ≤ m2 → fitsS (fin v) B.ew = true) :
    ∃ T ob, ForwardRun n pre adj chk (fun t => t) fin col row B ib T ob := by
  choose! y hy hyb using fun i (hi : i < n) => hcol (vec n (preScaled pre adj ib i)) fun j hj => by
    rw [vec_of_lt _ hj]
    exact (hpre i hi j hj).2
  choose! z hz hzb using fun i (hi : i < n) => hrow (vec n fun c => ix (y c) i) fun j hj => by
    rw [vec_of_lt _ hj]
    exact hyb j hj i hi
  refine ⟨fun r c => ix (y c) r, fun r c => fin (ix (z r) c), fun i hi => ⟨y i, hy i hi, fun j hj => ?_⟩,
    fun i hi => ⟨z i, hz i hi, fun j hj => ?_⟩⟩
  · obtain ⟨hsample, hscaled⟩ := hpre i hi j hj
    have hout : fitsS (ix (y i) j) chk = true := fitsS_of_abs_le (hyb i hi j hj) h1
    exact ⟨fitsS_of_abs_le hsample h0, fitsS_of_abs_le hscaled h0, hout, rfl, hout⟩
  · exact ⟨fitsS_of_abs_le (hzb i hi j hj) h2, rfl, hfin _ (hzb i hi j hj)⟩

theorem abs_resAt_le {bd : BitDepth} {n : Nat} {s : State} (h : legalResidual bd n s) {r c : Nat} (hr : r < n) (hc : c < n) :
    |resAt s r c| ≤ maxPix bd := abs_le.2 (h r hr c hc)

/-- FHT4 scales a sample by 16, adjusts it by 1 at most, and each pass gains at most `gain4` (45 R204). -/
theorem exists_forwardRun_fht4 {bd : BitDepth} {s : State} (h : legalResidual bd 4 s) (adstCol adstRow : Prop)
    [Decidable adstCol] [Decidable adstRow] :
    ∃ T ob, ForwardRun 4 16 true (widths bd).ew (fun t => t) (fun t => (t + 1) / 4) (if adstCol then fadst4 else fdct4)
      (if adstRow then fadst4 else fdct4) (widths bd) (resAt s) T ob := by
  have hkernel {m : Int} (hm : 46340 * m + 8192 ≤ 2 ^ ((widths bd).aw - 1) - 1) (c : Prop) [Decidable c] :
      Bounded 4 (if c then fadst4 else fdct4) (widths bd) m (gain4 m) := by
    split
    · exact fadst4_bounded hm
    · exact fdct4_bounded hm
  have hfin : gain4 (gain4 (16 * maxPix bd + 1)) ≤ 2 ^ ((widths bd).ew - 1) - 1 := by cases bd <;> decide
  refine exists_forwardRun_of_bounded (m0 := 16 * maxPix bd + 1) (fun i hi j hj => ?_) (hkernel (by cases bd <;> decide) adstCol)
    (hkernel (by cases bd <;> decide) adstRow) (by cases bd <;> decide) (by cases bd <;> decide) hfin fun v hv => ?_
  · have hsample := abs_resAt_le h hj hi
    have hfirst := abs_resAt_le h (show 0 < 4 by decide) (show 0 < 4 by decide)
    rw [abs_le] at hsample hfirst
    unfold preScaled
    split <;> simp only [abs_le] <;> omega
  · refine fitsS_of_abs_le (b := gain4 (gain4 (16 * maxPix bd + 1))) ?_ hfin
    rw [abs_le] at *
    omega

/-- Each pass of FWHT4X4 doubles the bound, and the last step multiplies by 4 (45 R210). -/
theorem exists_forwardRun_fwht4x4 {bd : BitDepth} {s : State} (h : legalResidual bd 4 s) :
    ∃ T ob, ForwardRun 4 1 false (widths bd).ew (fun t => t) (fun t => t * 4) fwht4 fwht4 (widths bd) (resAt s) T ob := by
  refine exists_forwardRun_of_bounded (m0 := maxPix bd) (fun i hi j hj => ?_) (fwht4_bounded (by cases bd <;> decide))
    (fwht4_bounded (by cases bd <;> decide)) (by cases bd <;> decide) (by cases bd <;> decide) (by cases bd <;> decide) fun v hv => ?_
  · simpa [preScaled] using abs_resAt_le h hj hi
  · refine fitsS_of_abs_le (b := 16 * maxPix bd) ?_ (by cases bd <;> decide)
    rw [abs_le] at *
    omega

/-- A running sum whose terms leave the accumulator room (48 R262). -/
theorem sumChecked_of_abs_le {B : Widths} {m : Int} : ∀ {vs : List Int} {s b : Int}, (∀ v ∈ vs, |v| ≤ m) → |s| ≤ b →
    b + vs.length * m ≤ 2 ^ (B.aw - 1) - 1 → ∃ t, sumChecked B s vs = some t ∧ |t| ≤ b + vs.length * m
  | [], s, b, _, hs, _ => ⟨s, rfl, by simpa using hs⟩
  | v :: vs, s, b, hvs, hs, hb => by
    obtain ⟨hv, hvs⟩ := List.forall_mem_cons.1 hvs
    have hm : 0 ≤ m := (abs_nonneg v).trans hv
    have hlen : 0 ≤ (vs.length : Int) * m := by positivity
    have hsplit : b + ((v :: vs).length : Int) * m = b + m + vs.length * m := by
      push_cast [List.length_cons]
      ring
    rw [hsplit] at hb ⊢
    have hsum : |s + v| ≤ b + m := (abs_add_le s v).trans (add_le_add hs hv)
    rw [sumChecked_cons, acc_of_abs_le hsum (by omega)]
    exact sumChecked_of_abs_le hvs hsum hb

/-- IB of a forward DC-only command holds the residual samples and nothing else (20 R66). -/
theorem abs_le_of_mem_loadSrc {bd : BitDepth} {n : Nat} {s : State} (h : legalResidual bd n s) :
    ∀ v ∈ Shape.loadSrc { family := .forwardDc, n := n, bd := bd } s.latch s.mem, |v| ≤ maxPix bd := by
  intro v hv
  obtain ⟨e, he, rfl⟩ := List.mem_map.1 hv
  obtain ⟨r, hr, he⟩ := List.mem_flatMap.1 he
  obtain ⟨c, hc, rfl⟩ := List.mem_map.1 he
  exact abs_resAt_le h (List.mem_range.1 hr) (List.mem_range.1 hc)

/-- A forward DC-only command on a legal block, where the scaled sum of `n * n` samples is no larger than 128 samples, which fit an
element. -/
theorem cleanNext_fdc {i : Instr} {n : Nat} {bd : BitDepth} {dcs : Int → Int} {s : State}
    (hshape : shapeOf i = { family := .forwardDc, n := n, bd := bd })
    (hexec : exec i s = .next (runCommand (shapeOf i) (fdcComputation dcs (widths bd)) s)) (ha : Admitted i s)
    (h : legalResidual bd n s) (hacc : ((n * n : Nat) : Int) * maxPix bd ≤ 2 ^ ((widths bd).aw - 1) - 1)
    (hdcs : ∀ v, |v| ≤ ((n * n : Nat) : Int) * maxPix bd → |dcs v| ≤ 128 * maxPix bd) :
    ∃ t, exec i s = .next t ∧ CleanNext i s t := by
  have hlen : (Shape.loadSrc { family := .forwardDc, n := n, bd := bd } s.latch s.mem).length = n * n := by
    rw [Shape.loadSrc, List.length_map]
    exact length_blockElems ..
  obtain ⟨sum, hsum, hbound⟩ := sumChecked_of_abs_le (B := widths bd) (s := 0) (b := 0) (abs_le_of_mem_loadSrc h) (by simp)
    (by rwa [hlen, zero_add])
  rw [hlen, zero_add] at hbound
  have hfit : fitsS (dcs sum) (widths bd).ew = true := fitsS_of_abs_le (hdcs sum hbound) (by cases bd <;> decide)
  obtain ⟨hclean, -⟩ := cleanNext_of_some ha (f := fdcComputation dcs (widths bd)) (ob := [dcs sum]) (by
    rw [hshape]
    exact bind_some_iff.2 ⟨sum, hsum, bind_some_iff.2 ⟨dcs sum, low_eq_some.2 ⟨hfit, rfl⟩, rfl⟩⟩)
  exact ⟨_, hexec, hclean⟩

/-- Settles O58: FHT4 and FWHT4X4 have a run of their rule by the bounds, and the scaled sum of each FDCn is at most that of 128 samples. -/
theorem legalBlocksRaiseNoRange : Obligations.LegalBlocksRaiseNoRange := by
  intro tx bd s k hk ha hlegal
  simp only [List.mem_cons, List.not_mem_nil, or_false] at hk
  rcases hk with rfl | rfl | rfl | rfl | rfl | rfl
  · obtain ⟨T, ob, hrun⟩ := exists_forwardRun_fht4 hlegal (tx = .adstDct ∨ tx = .adstAdst) (tx = .dctAdst ∨ tx = .adstAdst)
    obtain ⟨t, hexec, hclean, -⟩ := (fht4Command tx bd s ha).1 T ob hrun
    exact ⟨t, hexec, hclean⟩
  · obtain ⟨T, ob, hrun⟩ := exists_forwardRun_fwht4x4 hlegal
    obtain ⟨t, hexec, hclean, -⟩ := (fwht4x4Command bd s ha).1 T ob hrun
    exact ⟨t, hexec, hclean⟩
  all_goals
    refine cleanNext_fdc rfl rfl ha hlegal (by cases bd <;> decide) fun v hv => ?_
    simp only [abs_le, asr_eq] at hv ⊢
    omega

end Sys2Proof.Machine
end

-- ==== Proofs: the worked examples of the range rules ====
section
/-! Where the low path raises RANGE and the high path answers (spec 47 R248): the impulse and the four equal samples by the rules of
IDCT4 and FDCT4, the failing vector by its first rotation, 46339. -/

namespace Sys2Proof.Machine

/-- Settles O37. -/
theorem rangeExamples : Obligations.RangeExamples := by
  refine ⟨fun bd => ?_, rfl, rfl, fun bd => ?_, rfl, rfl⟩
  · exact inverseDctOfDcImpulse (4, idct4) (by simp) bd (ix [32767, 0, 0, 0]) (by cases bd <;> decide)
      fun i hpos hi => by interval_cases i <;> rfl
  · rw [fdct4OnElements bd (ix [32767, 32767, 32767, 32767]) (by decide)]
    rfl

end Sys2Proof.Machine
end

-- ==== Proofs: the dispatch and the completion of a command ====
section
/-! A busy engine whose host does not act first runs the decoded command, and however the command ends it completes (spec 30 R100, 48 R255,
R256, R259); what no command touches (20 R74 d, 60 R280). -/

namespace Sys2Proof.Machine

/-- The engine moves if the host's next action waits, or is early and finds no admitted command (48 R255 step 3, R259). -/
theorem step_of_busy {s : State} (hb : s.busy = true) (hhost : ∀ e ∈ s.host.head?, e.early = true → s.runningShape = none) :
    step s = engineStep s := by
  rcases step_cases s with ⟨-, hidle, -⟩ | ⟨-, hs⟩ | ⟨e, rest, hh, hacts, -⟩
  · simp [hb] at hidle
  · exact hs
  · obtain ⟨hearly, hrunning⟩ := hacts hb
    simp [hhost e (by simp [hh]) hearly] at hrunning

theorem runningShape_of_check_ne_none {s : State} {i : Instr} (hd : decode s.latch.cmd = .ok i)
    (hc : (shapeOf i).check s.plat s.latch ≠ none) : s.runningShape = none := by
  simp [State.runningShape, hd, hc]

theorem engineStep_of_decode {s : State} {i : Instr} (hd : decode s.latch.cmd = .ok i) : engineStep s = exec i s := by
  rw [engineStep, hd]

/-- A placed word of 32 bits is the latched command (log 7). -/
theorem withFetchWord_latch_cmd (s : State) {w : Nat} (hw : w < 2 ^ 32) :
    (s.withFetchWord 32 w).latch.cmd = BitVec.ofNat 32 w := by
  rw [State.withFetchWord, Nat.mod_eq_of_lt hw]
  rfl

/-- Settles O9: in both cases it is the engine that moves. -/
theorem stepRunsDecodedInstruction : Obligations.StepRunsDecodedInstruction := by
  refine ⟨fun s i hb hd hhost => ?_, fun s w i hw hd => ?_⟩
  · rw [step_of_busy hb fun e he hearly => runningShape_of_check_ne_none hd (hhost e he hearly), engineStep_of_decode hd]
  · have hb : (s.withFetchWord 32 w).busy = true := busy_start (BitVec.ofNat 32 (w % 2 ^ 32)) s
    have hword : decode (s.withFetchWord 32 w).latch.cmd = .ok i := (withFetchWord_latch_cmd s hw).symm ▸ hd
    rw [step_of_busy hb (fun _ he => nomatch he), engineStep_of_decode hword]

/-- Settles O10: the step is the start with the low 32 bits of the value (log 12). -/
theorem commandStart : Obligations.CommandStart := by
  intro s v early rest hi hh
  have hi' : State.busy { s with host := rest } = false := hi
  have hstep : step s = .next (start (BitVec.ofNat 32 v) { s with host := rest }) := by
    simp [step_of_idle hi hh, hostAct, writeReg, hi']
  exact ⟨_, hstep, rfl, busy_start _ _, done_start _ _, fun f => faultSet_start _ f _⟩

/-- Settles O15: the engine's move is a completion. -/
theorem busyEngineCompletes : Obligations.BusyEngineCompletes := by
  intro s hb hwaits
  obtain ⟨t, hengine, hc⟩ := engineStep_completes s
  have hstep : step s = engineStep s := step_of_busy hb fun e he hearly => by simp [hwaits e he] at hearly
  exact ⟨t, hstep.trans hengine, hc.idle, hc.done, hc.host⟩

/-- The fields that a completion can change, as one equation. -/
theorem Completes.eq {s t : State} (h : Completes s t) :
    t = { s with status := t.status, mem := t.mem, raced := [], free := t.free } := by
  rw [← h.plat, ← h.cmd, ← h.src, ← h.dst, ← h.stride, ← h.latch, ← h.host, ← h.hostData, ← h.raced]

/-- The start checks raise CFG or MEM (30 R100). -/
theorem Shape.fault_of_check {sh : Shape} {p : Platform} {d : Descriptor} {f : FaultBit} (h : sh.check p d = some f) :
    f = .cfg ∨ f = .mem := by
  unfold Shape.check at h
  split at h
  · exact .inl (Option.some.inj h).symm
  · split at h
    · exact .inl (Option.some.inj h).symm
    · split at h
      · exact .inr (Option.some.inj h).symm
      · cases h

@[simp] theorem faultSet_freeRaced (f : FaultBit) (s : State) : (freeRaced s).faultSet f = s.faultSet f :=
  faultSet_freeBytes s.raced f s

theorem freeRaced_outside {s : State} {a : Nat} (h : a ∉ s.raced) : (freeRaced s).mem.read a = s.mem.read a :=
  freeBytes_outside h

@[simp] theorem freeRaced_raced (s : State) : (freeRaced s).raced = s.raced := freeBytes_raced _ s

/-- No command touches PROTO (60 R280, R284). -/
theorem faultSet_proto_runCommand (sh : Shape) (f : Computation) (s : State) :
    (runCommand sh f s).faultSet .proto = s.faultSet .proto := by
  rcases runCommand_cases sh f s with ⟨fault, hc, h⟩ | ⟨-, ob, -, h⟩ | ⟨-, -, h⟩ <;> rw [h]
  · rcases Shape.fault_of_check hc with rfl | rfl <;> simp [refuse, FaultBit.code]
  · rw [faultSet_complete, faultSet_freeRaced]
    exact faultSet_freeRaced .proto s
  · simp [FaultBit.code]

/-- A command changes no byte but those that it writes and those that the host has raced with (20 R74 d, R75). -/
theorem runCommand_outside {sh : Shape} {s : State} {a : Nat} (f : Computation) (hout : a ∉ elemBytes (sh.dstElems s.latch))
    (hraced : a ∉ s.raced) : (runCommand sh f s).mem.read a = s.mem.read a := by
  rcases runCommand_cases sh f s with ⟨fault, -, h⟩ | ⟨-, ob, -, h⟩ | ⟨-, -, h⟩ <;> rw [h]
  · rfl
  · rw [complete_mem, freeRaced_outside (by simpa using hraced), storeElems_outside hout, freeRaced_outside hraced]
  · rw [complete_mem, freeRaced_outside (by simpa using hraced), raise_mem, freeBytes_outside hout, freeRaced_outside hraced]

/-- Settles O14: every command is one run, which completes. -/
theorem everyCommandCompletes : Obligations.EveryCommandCompletes := by
  intro i s
  obtain ⟨f, hexec⟩ := exec_eq_runCommand i s
  have hc := completes_runCommand (shapeOf i) f s
  exact ⟨_, hexec, hc.eq, hc.idle, hc.done, hc.faults, faultSet_proto_runCommand _ f s,
    fun a hout hraced => runCommand_outside f hout hraced⟩

end Sys2Proof.Machine
end

-- ==== Proofs: the kernel commands ====
section
/-! The 1-D kernel commands (spec 48 R260, R261). Every coefficient of memory fits an element, so that the check of the inputs lets all of
them through: the command answers exactly when the kernel does and its outputs fit. -/

namespace Sys2Proof.Machine

/-- A vector passes `low` when each of its entries fits, and it is not changed (40 R126). -/
theorem mapSome_low {B : Widths} {y z : List Int} :
    mapSome (low B) y = some z ↔ y = z ∧ ∀ j, j < y.length → fitsS (ix y j) B.ew = true := by
  simp only [mapSome_ix, low_eq_some]
  constructor
  · rintro ⟨hlen, h⟩
    exact ⟨ext_ix hlen.symm fun j hj => (h j hj).2, fun j hj => (h j hj).1⟩
  · rintro ⟨rfl, h⟩
    exact ⟨rfl, fun j hj => ⟨h j hj, rfl⟩⟩

/-- On inputs that fit an element, the computation answers what the kernel answers, if all of it fits. -/
theorem kernelComputation_eq_some {n : Nat} {k : Kernel} {B : Widths} {ib pb ob : List Int} (hk : ∀ X, Answers n (k B X))
    (hib : ∀ j, j < n → fitsS (ix ib j) B.ew = true) :
    kernelComputation n k B ib pb = some ob ↔ k B (vec n (ix ib)) = some ob ∧ ∀ j, j < n → fitsS (ix ob j) B.ew = true := by
  obtain ⟨x, hx⟩ : ∃ x, x = (List.range n).map fun j => ix ib j := ⟨_, rfl⟩
  have hlen : x.length = n := by simp [hx]
  have hix : ∀ j, j < n → ix x j = ix ib j := fun j hj => by
    rw [ix_eq_getElem (by omega)]
    simp [hx]
  have hload : allSome (span 0 n fun j => low B (ix ib j)) = some x :=
    allSome_span.2 ⟨hlen, fun j hj => by rw [Nat.zero_add, hix j hj, low_eq_some.2 ⟨hib j hj, rfl⟩]⟩
  simp only [kernelComputation, hload, bind_some_iff, Option.some.injEq, exists_eq_left', ix_eq_vec hlen hix, mapSome_low]
  constructor
  · rintro ⟨y, hy, rfl, hfit⟩
    exact ⟨hy, hk _ y hy ▸ hfit⟩
  · rintro ⟨hob, hfit⟩
    exact ⟨ob, hob, rfl, (hk _ ob hob).symm ▸ hfit⟩

/-- IB of a kernel command, coefficient by coefficient. -/
theorem ix_loadSrc_kernel {n : Nat} (bd : BitDepth) (s : State) {j : Nat} (hj : j < n) :
    ix (Shape.loadSrc { family := .kernel, n := n, bd := bd } s.latch s.mem) j = coefAt bd s.mem s.latch.src j := by
  rw [coefAt, ← coefSize_mul_eight]
  exact ix_map_vector (fun e => sext (8 * e.size) (s.mem.readN e.addr e.size)) hj

/-- A command whose computation is that of 48 R260 and R261 does what the rule says. -/
theorem kernelEffect_of_kernelComputation {i : Instr} {bd : BitDepth} {n : Nat} {k : Kernel}
    (hk : ∀ X, Answers n (k (widths bd) X)) (hshape : shapeOf i = { family := .kernel, n := n, bd := bd })
    (hexec : ∀ s, exec i s = .next (runCommand (shapeOf i) (kernelComputation n k (widths bd)) s)) : KernelEffect i bd n k := by
  intro s ha
  have hanswer (ob : List Int) : kernelComputation n k (widths bd) ((shapeOf i).loadSrc s.latch s.mem)
      ((shapeOf i).loadDst s.latch s.mem) = some ob ↔ k (widths bd) (vec n (coefAt bd s.mem s.latch.src)) = some ob ∧
        ∀ j, j < n → fitsS (ix ob j) (widths bd).ew = true := by
    rw [hshape, kernelComputation_eq_some hk fun j hj => ix_loadSrc_kernel bd s hj ▸ fitsS_coefAt ..,
      vec_congr fun j hj => ix_loadSrc_kernel bd s hj]
  refine ⟨fun y hy hfit => ?_, fun hnone => ⟨_, hexec s, rangeNext_of_none ha ?_⟩⟩
  · obtain ⟨hclean, hmem⟩ := cleanNext_of_some ha ((hanswer y).2 ⟨hy, hfit⟩)
    refine ⟨_, hexec s, hclean, fun j hj => ?_⟩
    rw [hmem, hshape]
    exact coefAt_of_readN (readN_store_vector ha.memory (hk _ y hy) hj) (hfit j hj)
  · -- an answer would be one of the kernel with outputs that fit
    refine Option.eq_none_iff_forall_ne_some.2 fun ob hob => ?_
    obtain ⟨hy, hfit⟩ := (hanswer ob).1 hob
    obtain ⟨j, hj, hout⟩ := hnone ob hy
    simp [hfit j hj] at hout

/-- Settles O38, kernel by kernel. -/
theorem forwardKernelCommands : Obligations.ForwardKernelCommands := fun _ =>
  ⟨kernelEffect_of_kernelComputation (fdct4_answers _) rfl fun _ => rfl,
    kernelEffect_of_kernelComputation (fdct8_answers _) rfl fun _ => rfl,
    kernelEffect_of_kernelComputation (fdct16_answers _) rfl fun _ => rfl,
    kernelEffect_of_kernelComputation (fdct32_answers _) rfl fun _ => rfl,
    kernelEffect_of_kernelComputation (fadst4_answers _) rfl fun _ => rfl,
    kernelEffect_of_kernelComputation (fadst8_answers _) rfl fun _ => rfl,
    kernelEffect_of_kernelComputation (fadst16_answers _) rfl fun _ => rfl,
    kernelEffect_of_kernelComputation (fwht4_answers _) rfl fun _ => rfl⟩

/-- Settles O39, kernel by kernel. -/
theorem inverseKernelCommands : Obligations.InverseKernelCommands := fun _ =>
  ⟨kernelEffect_of_kernelComputation (idct4_answers _) rfl fun _ => rfl,
    kernelEffect_of_kernelComputation (idct8_answers _) rfl fun _ => rfl,
    kernelEffect_of_kernelComputation (idct16_answers _) rfl fun _ => rfl,
    kernelEffect_of_kernelComputation (idct32_answers _) rfl fun _ => rfl,
    kernelEffect_of_kernelComputation (iadst4_answers _) rfl fun _ => rfl,
    kernelEffect_of_kernelComputation (iadst8_answers _) rfl fun _ => rfl,
    kernelEffect_of_kernelComputation (iadst16_answers _) rfl fun _ => rfl,
    kernelEffect_of_kernelComputation (iwht4_answers _) rfl fun _ => rfl⟩

end Sys2Proof.Machine
end

-- ==== Proofs: the DC-only commands ====
section
/-! The DC-only commands (spec 48 R262, R263, R271 to R278). The running sum of 1024 samples of 16 bits needs 26 bits, so that no
check of the sum fails; the checks of the inverse constant never fail either (`idcConstant_eq_some`). -/

namespace Sys2Proof.Machine

/-- The running sum of 48 R262 is the sum. -/
theorem answersOnly_sumChecked (B : Widths) (s : Int) (vs : List Int) : AnswersOnly (sumChecked B s vs) (s + vs.sum) := by
  induction vs generalizing s with
  | nil => exact answersOnly_some_iff.2 (by simp)
  | cons v vs ih =>
    rw [sumChecked_cons, List.sum_cons, ← add_assoc]
    exact (answersOnly_acc B _).bind (ih _)

/-- IB of a forward DC-only command, sample by sample and row by row (20 R66). -/
theorem loadSrc_forwardDc (n : Nat) (bd : BitDepth) (s : State) :
    Shape.loadSrc { family := .forwardDc, n := n, bd := bd } s.latch s.mem =
      (List.range n).flatMap fun r => (List.range n).map fun c => resAt s r c := by
  show (blockElems s.latch.src s.latch.stride.toNat resSize n).map _ = _
  simp only [blockElems, List.map_flatMap, List.map_map]
  rfl

/-- The running sum over IB passes every check and is the sum of the block. -/
theorem sumChecked_loadSrc {n : Nat} {bd : BitDepth} (hn : n ≤ 32) (s : State) :
    sumChecked (widths bd) 0 (Shape.loadSrc { family := .forwardDc, n := n, bd := bd } s.latch s.mem) =
      some (blockSum n (resAt s)) := by
  have hsample : ∀ v ∈ Shape.loadSrc { family := .forwardDc, n := n, bd := bd } s.latch s.mem, |v| ≤ 32768 := by
    intro v hv
    simp only [loadSrc_forwardDc, List.mem_flatMap, List.mem_map] at hv
    obtain ⟨r, -, c, -, rfl⟩ := hv
    have hfit := fitsS_iff.1 (fitsS_resAt s r c)
    rw [abs_le]
    omega
  have hlen : (Shape.loadSrc { family := .forwardDc, n := n, bd := bd } s.latch s.mem).length = n * n := by
    simp [loadSrc_forwardDc, flatMap_range_map]
  have hroom : 0 + ((n * n : Nat) : Int) * 32768 ≤ 2 ^ ((widths bd).aw - 1) - 1 := by
    have hcount : n * n ≤ 1024 := Nat.mul_le_mul hn hn
    cases bd <;> simp only [widths] <;> omega
  obtain ⟨sum, hsum, -⟩ := sumChecked_of_abs_le (B := widths bd) (s := 0) (b := 0) hsample (by simp) (hlen.symm ▸ hroom)
  rw [hsum, answersOnly_sumChecked _ _ _ sum hsum, loadSrc_forwardDc, zero_add, List.flatMap_def, List.sum_flatten, List.map_map]
  rfl

/-- The computation of a forward DC-only command is the one check of its result (48 R262). -/
theorem fdcComputation_loadSrc {n : Nat} {bd : BitDepth} (hn : n ≤ 32) (dcs : Int → Int) (s : State) (pb : List Int) :
    fdcComputation dcs (widths bd) (Shape.loadSrc { family := .forwardDc, n := n, bd := bd } s.latch s.mem) pb =
      (low (widths bd) (dcs (blockSum n (resAt s)))).map fun v => [v] := by
  rw [fdcComputation, sumChecked_loadSrc hn s]
  cases h : low (widths bd) (dcs (blockSum n (resAt s))) <;> simp [h]

/-- A command whose computation is that of 48 R262 does what the rule says. -/
theorem forwardDcEffect_of_fdc {i : Instr} {bd : BitDepth} {n : Nat} {dcs : Int → Int} (hn : n ≤ 32)
    (hshape : shapeOf i = { family := .forwardDc, n := n, bd := bd })
    (hexec : ∀ s, exec i s = .next (runCommand (shapeOf i) (fdcComputation dcs (widths bd)) s)) :
    ForwardDcEffect i bd n dcs := by
  intro s ha
  have hf := fdcComputation_loadSrc (bd := bd) hn dcs s ((shapeOf i).loadDst s.latch s.mem)
  rw [← hshape] at hf
  refine ⟨fun hfit => ?_, fun hout => ⟨_, hexec s, rangeNext_of_none ha ?_⟩⟩
  · rw [low_eq_some.2 ⟨hfit, rfl⟩] at hf
    obtain ⟨hclean, hmem⟩ := cleanNext_of_some ha hf
    refine ⟨_, hexec s, hclean, ?_⟩
    rw [hmem, hshape]
    -- one coefficient is a vector of length 1
    exact coefAt_of_readN (readN_store_vector (n := 1) ha.memory rfl (by decide)) hfit
  · rw [hf, low_eq_none.2 hout, Option.map_none]

/-- Settles O50, size by size. -/
theorem forwardDcCommands : Obligations.ForwardDcCommands := fun _ =>
  ⟨forwardDcEffect_of_fdc (by decide) rfl fun _ => rfl, forwardDcEffect_of_fdc (by decide) rfl fun _ => rfl,
    forwardDcEffect_of_fdc (by decide) rfl fun _ => rfl, forwardDcEffect_of_fdc (by decide) rfl fun _ => rfl⟩

/-- A command whose computation is that of 48 R263 does what the rule says. -/
theorem inverseDcEffect_of_idc {i : Instr} {bd : BitDepth} {n : Nat}
    (hshape : shapeOf i = { family := .inverseDc, n := n, bd := bd })
    (hexec : ∀ s, exec i s = .next (runCommand (shapeOf i) (idcComputation n bd) s)) :
    InverseDcEffect i bd n (finalShift n) := by
  rintro s ha o1 o2 a1 rfl rfl rfl
  have hreads : (shapeOf i).readsDst = true := hshape ▸ rfl
  have hpitch : n ≤ s.latch.stride.toNat := by simpa [hshape] using Shape.le_stride_of_readsDst hreads ha.passes
  have hpb : ((shapeOf i).loadDst s.latch s.mem).length = n * n := by simpa [hshape] using Shape.length_loadDst hreads s.latch s.mem
  have hf : idcComputation n bd ((shapeOf i).loadSrc s.latch s.mem) ((shapeOf i).loadDst s.latch s.mem) =
      some (((shapeOf i).loadDst s.latch s.mem).map fun p =>
        reconstruct bd p (rnd (dcLevel (dcLevel (coefAt bd s.mem s.latch.src 0))) (finalShift n))) := by
    rw [idcComputation, hshape, ix_loadSrc_inverseDc, idcConstant_eq_some n (fitsS_coefAt ..)]
    rfl
  obtain ⟨hclean, hmem⟩ := cleanNext_of_some ha hf
  refine ⟨_, hexec s, hclean, fun r hr c hc => ?_⟩
  rw [hmem, map_eq_flatMap_elemAt hpb, ← elemAt_loadDst_inverse (s := s) hr hc, hshape]
  exact pixAt_storeElems ha.memory hpitch _ _ hr hc

/-- Settles O51, size by size. -/
theorem inverseDcCommands : Obligations.InverseDcCommands := fun _ =>
  ⟨inverseDcEffect_of_idc rfl fun _ => rfl, inverseDcEffect_of_idc rfl fun _ => rfl, inverseDcEffect_of_idc rfl fun _ => rfl,
    inverseDcEffect_of_idc rfl fun _ => rfl⟩

end Sys2Proof.Machine
end

-- ==== Proofs: STATUS while a command runs ====
section
/-! The completion line (spec 60 R290), a host write of STATUS bit by bit (60 R292), and why a dropped register write disturbs no command:
raising a fault bit commutes with everything that a command does (60 R280, R284). -/

namespace Sys2Proof.Machine

/-- Settles O22: both cases are branches of `State.irqLine`, and `Platform.initial` has no line. -/
theorem completionLineFollowsDone : Obligations.CompletionLineFollowsDone :=
  ⟨fun _ hirq => if_pos hirq, fun _ hirq => by simp [State.irqLine, hirq], rfl⟩

/-! The host's next action -/

/-- The host moves on an idle engine, and before a running command that was not refused if its action is early. -/
theorem step_of_host {s : State} {e : HostEvent} {rest : List HostEvent} (hh : s.host = e :: rest)
    (hready : s.busy = true → e.early = true ∧ s.runningShape.isSome = true) : step s = hostAct e.act { s with host := rest } := by
  cases hb : s.busy with
  | false => exact step_of_idle hb hh
  | true =>
    obtain ⟨act, early⟩ := e
    obtain ⟨rfl, hrunning⟩ : early = true ∧ s.runningShape.isSome = true := hready hb
    exact step_of_early hrunning hh

/-- A write of STATUS always acts, also while a command runs (60 R292). -/
theorem step_writeStatus {s : State} {m : Nat} {early : Bool} {rest : List HostEvent}
    (hh : s.host = { act := .writeReg .status m, early := early } :: rest)
    (hready : s.busy = true → early = true ∧ s.runningShape.isSome = true) :
    step s = .next (clearStatus (BitVec.ofNat 32 m) { s with host := rest }) :=
  step_of_host hh hready

/-- While BUSY, a write of any other register only raises PROTO (60 R284). -/
theorem writeReg_of_busy {s : State} {r : Reg} (hb : s.busy = true) (hr : r ≠ .status) (v : Nat) :
    writeReg r v s = raise .proto s := by
  rcases writeReg_cases r v s with ⟨hstatus, -⟩ | ⟨-, h⟩ | ⟨hidle, -⟩ | ⟨hidle, -⟩ | ⟨hidle, -⟩ | ⟨hidle, -⟩
  case inl => exact absurd hstatus hr
  case inr.inl => exact h
  all_goals simp [hb] at hidle

/-! The bits of a write of STATUS -/

theorem getLsbD_clearable (k : Nat) : clearable.getLsbD k = decide (1 ≤ k ∧ k ≤ 5) := by
  rcases Nat.lt_or_ge k 32 with hk | hk
  · exact (by decide : ∀ j : Fin 32, clearable.getLsbD j = decide (1 ≤ j.val ∧ j.val ≤ 5)) ⟨k, hk⟩
  · rw [BitVec.getLsbD_of_ge _ k hk, eq_comm, decide_eq_false_iff_not]
    omega

/-- Of the value written only the bits 1 to 5 count (60 R292). -/
theorem getLsbD_clearStatus (m : Nat) (s : State) (k : Nat) :
    (clearStatus (BitVec.ofNat 32 m) s).status.getLsbD k = (s.status.getLsbD k && !(decide (1 ≤ k ∧ k ≤ 5) && m.testBit k)) := by
  have hwritten : (BitVec.ofNat 32 m &&& clearable).getLsbD k = (decide (1 ≤ k ∧ k ≤ 5) && m.testBit k) := by
    rw [BitVec.getLsbD_and, BitVec.getLsbD_ofNat, getLsbD_clearable]
    by_cases hk : 1 ≤ k ∧ k ≤ 5
    · simp [hk, show k < 32 by omega]
    · simp [hk]
  simp [getLsbD_updateStatus, hwritten]

/-! Raising a fault bit -/

theorem raise_eq (f : FaultBit) (s : State) : raise f s = { s with status := s.status ||| bitWord f.code } := by
  rw [raise, updateStatus_set]

theorem raise_proto_eq (s : State) : raise .proto s = { s with status := s.status ||| 32 } := raise_eq .proto s

@[simp] theorem raise_raise_self (f : FaultBit) (s : State) : raise f (raise f s) = raise f s := by
  simp only [raise_eq, BitVec.or_assoc, BitVec.or_self]

theorem raise_raise_comm (f g : FaultBit) (s : State) : raise f (raise g s) = raise g (raise f s) := by
  simp only [raise_eq, BitVec.or_assoc, BitVec.or_comm (bitWord f.code)]

theorem getLsbD_raise_of_ne {f : FaultBit} {k : Nat} (hk : k ≠ f.code) (s : State) :
    (raise f s).status.getLsbD k = s.status.getLsbD k := by
  have hf := f.code_lt_six
  simp [getLsbD_updateStatus, getLsbD_bitWord (show f.code < 32 by omega), hk]

/-- Settles O16: of the host's actions this is the write of STATUS, taken bit by bit. -/
theorem statusWriteClearsOnes : Obligations.StatusWriteClearsOnes := by
  refine ⟨fun s m early rest hh hready => ?_, fun f s => ⟨?_, raise_raise_self f s⟩, fun f s k hk => getLsbD_raise_of_ne hk s⟩
  · exact ⟨_, step_writeStatus hh hready, rfl, getLsbD_clearStatus m { s with host := rest }⟩
  · simp

/-! A raised fault bit goes through a command unchanged -/

/-- Completion clears BUSY, which is no fault bit. -/
theorem complete_raise (f : FaultBit) (s : State) : complete (raise f s) = raise f (complete s) := by
  have hstatus : (complete (raise f s)).status = (raise f (complete s)).status := by
    refine BitVec.eq_of_getLsbD_eq fun k _ => ?_
    have hf := f.two_le_code
    have hf' := f.code_lt_six
    simp only [complete_status, raise_status, getLsbD_updateStatus, getLsbD_bitWord (show 0 < 32 by decide),
      getLsbD_bitWord (show 1 < 32 by decide), getLsbD_bitWord (show f.code < 32 by omega)]
    by_cases hk : k = f.code
    · simp [hk, show f.code ≠ 0 by omega]
    · simp [hk]
  show { (raise f (complete s)) with status := (complete (raise f s)).status } = _
  rw [hstatus]

theorem refuse_raise (f g : FaultBit) (s : State) : refuse g (raise f s) = raise f (refuse g s) := by
  rw [refuse, raise_raise_comm, complete_raise, refuse]

theorem freeBytes_raise (as : List Nat) (f : FaultBit) (s : State) : freeBytes as (raise f s) = raise f (freeBytes as s) := by
  induction as generalizing s with
  | nil => rfl
  | cons a as ih => exact ih { s with mem := s.mem.write a (Config.freeByte s.free), free := s.free + 1 }

theorem freeRaced_raise (f : FaultBit) (s : State) : freeRaced (raise f s) = raise f (freeRaced s) := freeBytes_raise s.raced f s

theorem complete_freeRaced_raise (f : FaultBit) (s : State) :
    complete (freeRaced (raise f s)) = raise f (complete (freeRaced s)) := by rw [freeRaced_raise, complete_raise]

/-- A command reads no fault bit and clears none, so a bit raised before it may as well be raised after it. -/
theorem runCommand_raise (sh : Shape) (c : Computation) (f : FaultBit) (s : State) :
    runCommand sh c (raise f s) = raise f (runCommand sh c s) := by
  simp only [runCommand, raise_plat, raise_latch, freeRaced_raise f s, raise_mem]
  cases sh.check s.plat s.latch with
  | some fault => exact refuse_raise f fault s
  | none =>
    cases hc : c (sh.loadSrc (freeRaced s).latch (freeRaced s).mem) (sh.loadDst (freeRaced s).latch (freeRaced s).mem) with
    | some ob =>
      exact complete_freeRaced_raise f { freeRaced s with mem := storeElems (sh.dstElems (freeRaced s).latch) ob (freeRaced s).mem }
    | none => simp only [freeBytes_raise, raise_raise_comm .range f, complete_freeRaced_raise]

theorem exec_raise {i : Instr} {s u : State} (h : exec i s = .next u) (f : FaultBit) : exec i (raise f s) = .next (raise f u) := by
  obtain ⟨c, hexec, -⟩ := exists_determines i
  rw [hexec] at h ⊢
  cases h
  rw [runCommand_raise]

/-- Settles O17: the dropped write raises PROTO, and the command then ends as without it but for PROTO, in every byte and every free
value. -/
theorem protocolViolation : Obligations.ProtocolViolation := by
  refine ⟨fun s r v rest hb hrunning hr hh => ?_, fun i s u v hu hv => ?_, fun s r rest _ hrunning hh => ?_,
    fun s m rest hb hrunning hh => ?_⟩
  · have hwrite : writeReg r v { s with host := rest } = raise .proto { s with host := rest } :=
      writeReg_of_busy (s := { s with host := rest }) hb hr v
    rw [step_of_early hrunning hh, hostAct, hwrite, raise_proto_eq]
  · rw [← raise_proto_eq, exec_raise hu] at hv
    obtain rfl : raise .proto u = v := Host.Outcome.next.inj hv
    exact ⟨rfl, by simp, fun _ _ _ => rfl, fun _ => congrArg State.status (raise_proto_eq u), fun _ => raise_proto_eq u⟩
  · rw [step_of_early hrunning hh]
    cases r <;> rfl
  · refine ⟨_, step_writeStatus hh fun _ => ⟨rfl, hrunning⟩, (busy_clearStatus _ _).trans hb, fun hproto => ?_⟩
    rw [faultSet_clearStatus, Bool.and_eq_true] at hproto
    exact hproto.1

end Sys2Proof.Machine
end

-- ==== Proofs: a reset at any time ====
section
/-! A reset ends idle with every register 0, and the only bytes it can change are those of an abandoned command's write footprint and the
raced ones (spec 70 R310). -/

namespace Sys2Proof.Machine

@[simp] theorem applyReset_cmd (s : State) : (applyReset s).cmd = 0 := rfl
@[simp] theorem applyReset_src (s : State) : (applyReset s).src = 0 := rfl
@[simp] theorem applyReset_dst (s : State) : (applyReset s).dst = 0 := rfl
@[simp] theorem applyReset_stride (s : State) : (applyReset s).stride = 0 := rfl
@[simp] theorem busy_applyReset (s : State) : (applyReset s).busy = false := busy_of_status_zero (applyReset_status s)
@[simp] theorem done_applyReset (s : State) : (applyReset s).done = false := by rw [State.done, applyReset_status]; rfl

/-- A byte neither in the write footprint nor raced with is not touched (70 R310 (e)). -/
theorem applyReset_outside {s : State} {a : Nat} (hwrite : a ∉ s.writeBytes) (hraced : a ∉ s.raced) :
    (applyReset s).mem.read a = s.mem.read a := by
  rw [applyReset_mem, freeBytes_outside hraced, freeBytes_outside hwrite]

/-- With no command to abandon and no race there is no byte to free. -/
theorem applyReset_mem_of_idle {s : State} (hi : s.busy = false) (hraced : s.raced = []) : (applyReset s).mem = s.mem := by
  rw [applyReset_mem, hraced, writeBytes_of_idle hi, freeBytes_nil, freeBytes_nil]

/-- Settles O8: the step is `applyReset` once the action is off the host's list, which neither the footprint nor memory depends on. -/
theorem resetAtAnyTime : Obligations.ResetAtAnyTime := by
  intro s early rest hinv hhost hready
  have hstep : step s = .next (applyReset { s with host := rest }) := step_of_host hhost hready
  refine ⟨_, hstep, applyReset_cmd _, applyReset_src _, applyReset_dst _, applyReset_stride _, applyReset_status _,
    busy_applyReset _, done_applyReset _, applyReset_plat _, applyReset_host _, fun a hwrite hraced => ?_, fun hi => ?_⟩
  · exact applyReset_outside (s := { s with host := rest }) hwrite hraced
  -- the invariant leaves an idle engine no raced byte
  · exact applyReset_mem_of_idle (s := { s with host := rest }) hi (hinv.raced_of_idle hi)

end Sys2Proof.Machine
end
